-- ==== Sys2Proof/Word.lean ====
section
/-! DEFINITION. The words of the block: every width of 00_scope.md R6, each under the name the spec gives the thing. All
integers are unsigned (R7). -/

namespace Sys2Proof

/-- A 32-bit bus word, command word, count or weight (`BUS_W`, `CMD_W`, `CNT_W`; R6). -/
abbrev Word := BitVec 32

/-- A payload byte (R92, R98). -/
abbrev Byte := BitVec 8

/-- A symbol (`SYM_W = 8`; R6). -/
abbrev Sym := BitVec 8

/-- A handle into the node arena (`HND_W = 9`; R6). -/
abbrev Handle := BitVec 9

/-- An insertion sequence number of the priority queue (`SEQ_W = 9`; R6). -/
abbrev SeqNo := BitVec 9

/-- A byte offset inside the block's bus window (`ADDR_W = 15`; R6, R61). -/
abbrev Offset := BitVec 15

/-- The bits of a code ROM entry, first code bit at position 255 (R26). -/
abbrev CodeBits := BitVec 256

end Sys2Proof
end

