-- ==== Sys2Proof/Syntax.lean ====
section
/-! DEFINITION. The twelve commands of 30_encoding.md R94, one constructor per row of spec/opcode_table.json. -/

namespace Sys2Proof

/-- A command. Format C0 has no operand (R91); format C1 has one unsigned 8-bit operand (R92, R93): a symbol for FSYM and
ESYM, a payload byte for DBYTE. -/
inductive Instr where
  | nop
  | sreset
  | clrerr
  | fsym (s : Sym)
  | build
  | tload
  | estart
  | esym (s : Sym)
  | eend
  | dstart
  | dbyte (b : Byte)
  | dend
deriving DecidableEq, Repr

end Sys2Proof
end

