-- ==== Sys2Proof/WellFormed.lean ====
section
/-! DEFINITION. When the fields of a command word form a command (30_encoding.md R91, R92, R95, R96). A term of `Instr` is
well formed by its types: its only operand is an 8-bit value, every one of which is legal (R93). What can be ill formed is a
command WORD, and this file says so over the word's three fields. -/

namespace Sys2Proof

/-- The two command formats (R90). -/
inductive Format where
  | c0   -- no operand: bits 23:0 are 0 (R91)
  | c1   -- one operand in bits 7:0; bits 23:8 are 0 (R92)
deriving DecidableEq, Repr

/-- A command word cut into its fields: bits 31:24, 23:8 and 7:0 (R91, R92). -/
structure CommandFields where
  opcode : Byte
  mid    : BitVec 16
  low    : Byte
deriving DecidableEq, Repr

/-- The format's `zero` field is 0 (R91: bits 23:0; R92: bits 23:8). -/
def CommandFields.zeroFieldOk (f : CommandFields) : Format → Bool
  | .c0 => f.mid == 0 && f.low == 0
  | .c1 => f.mid == 0

/-- The fields form a command: the opcode has a format (it is not reserved, R95), and that format's `zero` field is 0
(R96). -/
def CommandFields.wellFormed (f : CommandFields) (format : Option Format) : Bool :=
  match format with
  | none => false
  | some fmt => f.zeroFieldOk fmt

end Sys2Proof
end

