-- ==== Sys2Proof/Decode.lean ====
section
/-! DEFINITION. The decoder of command words, total on every 32-bit word and rejecting by name, and the encoder, both from the
table of 30_encoding.md R94. -/

namespace Sys2Proof

/-! ## Fields of a word -/

/-- `w[31:24]` (R90). -/
def opcodeOf (w : Word) : Byte := w.extractLsb' 24 8

/-- `w[23:8]` (R91, R92). -/
def midOf (w : Word) : BitVec 16 := w.extractLsb' 8 16

/-- `imm8 = w[7:0]`: used as it is, not extended, scaled or shifted (R93). -/
def imm8Of (w : Word) : Byte := w.extractLsb' 0 8

/-- The fields of a command word (R91, R92). -/
def fieldsOf (w : Word) : CommandFields := { opcode := opcodeOf w, mid := midOf w, low := imm8Of w }

/-- The word with these fields: `{opcode, mid, low}` (R7, R91, R92). -/
def wordOf (f : CommandFields) : Word := f.opcode ++ f.mid ++ f.low

/-! ## The opcode map (R94) -/

/-- The format of an opcode; none for a reserved one (R94, R95). -/
def formatOf (op : Byte) : Option Format :=
  match op.toNat with
  | 0x00 => some .c0   -- NOP
  | 0x01 => some .c0   -- SRESET
  | 0x02 => some .c0   -- CLRERR
  | 0x10 => some .c1   -- FSYM
  | 0x11 => some .c0   -- BUILD
  | 0x12 => some .c0   -- TLOAD
  | 0x20 => some .c0   -- ESTART
  | 0x21 => some .c1   -- ESYM
  | 0x22 => some .c0   -- EEND
  | 0x30 => some .c0   -- DSTART
  | 0x31 => some .c1   -- DBYTE
  | 0x32 => some .c0   -- DEND
  | _ => none

/-- The command of an opcode with the operand `imm8`; none for a reserved opcode (R94, R95). -/
def instrOf (op imm8 : Byte) : Option Instr :=
  match op.toNat with
  | 0x00 => some .nop
  | 0x01 => some .sreset
  | 0x02 => some .clrerr
  | 0x10 => some (.fsym imm8)
  | 0x11 => some .build
  | 0x12 => some .tload
  | 0x20 => some .estart
  | 0x21 => some (.esym imm8)
  | 0x22 => some .eend
  | 0x30 => some .dstart
  | 0x31 => some (.dbyte imm8)
  | 0x32 => some .dend
  | _ => none

/-! ## The decoder -/

/-- Why a word is no command. -/
inductive DecodeError where
  | reservedOpcode     -- the opcode is not in R94 (R95)
  | nonzeroZeroField   -- the opcode is in R94 and its format's `zero` field is not 0 (R96)
deriving DecidableEq, Repr

/-- What the decoder reads from a word. -/
inductive DecodeResult where
  | instr (i : Instr)
  | reject (e : DecodeError)
deriving DecidableEq, Repr

/-- The decoder (R94 to R96). -/
def decode (w : Word) : DecodeResult :=
  match instrOf (opcodeOf w) (imm8Of w) with
  | none => .reject .reservedOpcode
  | some i =>
    if (fieldsOf w).wellFormed (formatOf (opcodeOf w)) then .instr i else .reject .nonzeroZeroField

/-- The decoder on a word numbered as spec/opcode_table.json numbers it, bit 0 the least significant. Every command is one
32-bit word (R90); the bits at and above `nbits` are 0. -/
def decodeTableWord (nbits w : Nat) : Option Instr :=
  match decode (BitVec.ofNat 32 (w % 2 ^ nbits)) with
  | .instr i => some i
  | .reject _ => none

/-! ## The encoder -/

/-- The opcode of a command (R94). -/
def Instr.opcode : Instr → Byte
  | .nop => 0x00
  | .sreset => 0x01
  | .clrerr => 0x02
  | .fsym _ => 0x10
  | .build => 0x11
  | .tload => 0x12
  | .estart => 0x20
  | .esym _ => 0x21
  | .eend => 0x22
  | .dstart => 0x30
  | .dbyte _ => 0x31
  | .dend => 0x32

/-- The bits 7:0 of a command's word: its operand in format C1 (R92), 0 in format C0 (R91). -/
def Instr.low : Instr → Byte
  | .nop => 0
  | .sreset => 0
  | .clrerr => 0
  | .fsym s => s
  | .build => 0
  | .tload => 0
  | .estart => 0
  | .esym s => s
  | .eend => 0
  | .dstart => 0
  | .dbyte b => b
  | .dend => 0

/-- The command word of a command (R91, R92, R94). -/
def encode (i : Instr) : Word := wordOf { opcode := i.opcode, mid := 0, low := i.low }

end Sys2Proof
end

