-- ==== Sys2Proof/Config.lean ====
section
/-! DEFINITION. The parameters the hardware fixes (00_scope.md R6: "none is a run-time option") and the address map's bases
(20_memory.md R62). The spec leaves no value free ("No behaviour of this block is `any value`", 93_implementation_defined.md),
so there is no opaque constant here. -/

namespace Sys2Proof.Config

/-- `NSYM`: size of the alphabet (R6). -/
abbrev nsym : Nat := 256

/-- `NNODE`: capacity of the node arena, `2*NSYM - 1` (R6). -/
abbrev nnode : Nat := 511

/-- `MAXLEN`: longest possible code (R6). -/
abbrev maxLen : Nat := 255

/-- `PQ_SLOTS`: capacity of the priority queue (R6). -/
abbrev pqSlots : Nat := 256

/-- The only access width the bus has, in bits (`BUS_W`; R6, R61). -/
abbrev busBits : Nat := 32

/-- The greatest count and weight, `2^32 - 1` (R110, R114). -/
abbrev maxCount : Nat := 0xFFFFFFFF

end Sys2Proof.Config
end

