-- ==== Sys2Proof/Machine/State.lean ====
section
/-! DEFINITION. The state of the block (10_state.md R20: "there is no other state"), the model's lists for its two output ports
(R32), the model's own fields for the world outside the block, the reasons a step can stop, and the state after reset (R44). -/

namespace Sys2Proof.Machine

/-! ## The pieces of the state -/

/-- The top-level state of the sequencer (R21); the 2-bit codes are `phaseCode` in Flags.lean. -/
inductive Phase where
  | empty
  | ready
  | enc
  | dec
deriving DecidableEq, Repr

/-- The sticky error (R22, R190); the 4-bit codes are `errCode` in Flags.lean. "6..15 are never produced". -/
inductive Err where
  | none
  | invalidInput
  | unknownSymbol
  | corruptArtifact
  | illegalCmd
  | weightOverflow
deriving DecidableEq, Repr

/-- One entry of the node arena (R24). `sym` is meaningful in a leaf, `left` and `right` in an Internal node. -/
structure TreeNode where
  leaf   : Bool
  sym    : Sym
  weight : Word
  left   : Handle
  right  : Handle
deriving DecidableEq, Repr

/-- One entry of the code ROM (R26): `len = 0` means the symbol has no entry; code bit i is `bits[255-i]`. -/
structure CodeEntry where
  len  : BitVec 8
  bits : CodeBits
deriving DecidableEq, Repr

/-- One slot of the priority queue (R30). -/
structure PqSlot where
  valid  : Bool
  weight : Word
  seq    : SeqNo
  handle : Handle
deriving DecidableEq, Repr

/-- One entry of the traversal stack (R20, R31). -/
structure StackEntry where
  handle : Handle
  depth  : BitVec 8
deriving DecidableEq, Repr

/-! ## The world outside the block (the model's own, log entries 1, 2 and 4) -/

/-- What the host does to the block: one bus access of `bits` bits at a byte offset (R61; only 32 is a legal width, R68), or
the reset input (R220). -/
inductive HostOp where
  | read  (off : Offset) (bits : Nat)
  | write (off : Offset) (bits : Nat) (data : Word)
  | rst
deriving DecidableEq, Repr

/-- The two bus responses (R61). -/
inductive Resp where
  | okay
  | slverr
deriving DecidableEq, Repr

/-- What the host sees of one access: `(resp, data)` of a read, `resp` of a write (R61). -/
inductive BusResponse where
  | read  (resp : Resp) (data : Word)
  | write (resp : Resp)
deriving DecidableEq, Repr

/-- The consumer of an output port (R76, R226; log 4): it accepts every value sooner or later, or it accepts `n` more and
then is never ready again. -/
inductive Sink where
  | accepting
  | stopsAfter (n : Nat)
deriving DecidableEq, Repr

/-! ## The state -/

/-- The whole state. The fields up to `tpath` are the block's own, as R20 lists them; the others are the model's. -/
structure State where
  phase   : Phase                      -- R21
  err     : Err                        -- R22
  errinfo : Word                       -- R22
  freq    : Vector Word 256            -- R23
  node    : Vector TreeNode 511        -- R24
  nnodes  : BitVec 10                  -- R25
  root    : Handle                     -- R25
  code    : Vector CodeEntry 256       -- R26
  wacc    : Byte                       -- R27
  wcnt    : BitVec 3                   -- R27
  rbyte   : Byte                       -- R28
  rcnt    : BitVec 4                   -- R28
  cur     : Handle                     -- R29
  pq      : Vector PqSlot 256          -- R30
  seq     : SeqNo                      -- R30
  tstack  : List StackEntry            -- R31: empty between commands
  tpath   : List Bool                  -- R31: empty between commands
  bytesOut : List Byte                 -- R32: what BYTE_OUT carried, oldest first
  symsOut  : List Sym                  -- R32: what SYM_OUT carried, oldest first
  hostQueue : List HostOp              -- the accesses the host has still to make, next first (log 1)
  responses : List BusResponse         -- the responses given, oldest first (log 2)
  byteSink  : Sink                     -- the consumer of BYTE_OUT (log 4)
  symSink   : Sink                     -- the consumer of SYM_OUT (log 4)
deriving DecidableEq, Repr

/-! ## How a step can stop -/

/-- Why the machine stops. The block's own errors are no faults: they are latched in `err` and the machine goes on (R198). -/
inductive Fault where
  /-- Raised by ESYM and EEND (`emitBytes`): BYTE_OUT's consumer never accepts a value the command emits, so the command never
  completes (R76, R226; 93_implementation_defined.md V1: `stuck`). Safe. -/
  | byteOutHangs
  /-- Raised by DBYTE (`emitSyms`): the same for SYM_OUT. Safe. -/
  | symOutHangs
  /-- Raised by DBYTE (`walk`): the tree walk follows a handle at which the arena has no entry (511). No run reaches a state in
  which it does (R45, R77). Safe. -/
  | noSuchNode
deriving DecidableEq, Repr

/-- Why the model gives an instruction no meaning. -/
inductive Refusal where
  /-- Raised by an arm of `exec` whose instruction has no meaning yet (none at present). Safe. -/
  | notModelled (mnemonic : String)
deriving DecidableEq, Repr

/-! ## Reset values (R44) -/

/-- `{leaf:0, sym:0, weight:0, left:0, right:0}` (R44). -/
def TreeNode.zero : TreeNode := { leaf := false, sym := 0, weight := 0, left := 0, right := 0 }

/-- `{len:0, bits:0}`: no entry (R44). -/
def CodeEntry.none : CodeEntry := { len := 0, bits := 0 }

/-- `valid = 0` and the other fields 0 (R44). -/
def PqSlot.free : PqSlot := { valid := false, weight := 0, seq := 0, handle := 0 }

/-- The machine right after a hardware reset (R44, R221), with nothing emitted yet, no access waiting, and two consumers that
accept every value (the last six fields: DESIGN CHOICE, log 12). -/
def State.reset : State where
  phase := .empty
  err := .none
  errinfo := 0
  freq := Vector.replicate 256 0
  node := Vector.replicate 511 TreeNode.zero
  nnodes := 0
  root := 0
  code := Vector.replicate 256 CodeEntry.none
  wacc := 0
  wcnt := 0
  rbyte := 0
  rcnt := 0
  cur := 0
  pq := Vector.replicate 256 PqSlot.free
  seq := 0
  tstack := []
  tpath := []
  bytesOut := []
  symsOut := []
  hostQueue := []
  responses := []
  byteSink := .accepting
  symSink := .accepting

/-- An answer of the machine. -/
abbrev Answer := Host.Outcome State Fault Refusal

end Sys2Proof.Machine
end

