-- ==== Sys2Proof/Machine/Flags.lean ====
section
/-! DEFINITION. The block's only status flags, the sticky error and the phase (10_state.md R43), their codes, and the registers
that show them and the working registers (R35 to R40). There are no condition codes. -/

namespace Sys2Proof.Machine

/-- The 2-bit code of a phase (R21). -/
def phaseCode : Phase → BitVec 2
  | .empty => 0
  | .ready => 1
  | .enc => 2
  | .dec => 3

/-- The 4-bit code of an error (R22, R190). -/
def errCode : Err → BitVec 4
  | .none => 0
  | .invalidInput => 1
  | .unknownSymbol => 2
  | .corruptArtifact => 3
  | .illegalCmd => 4
  | .weightOverflow => 5

/-- STATUS (R35): `phase` in [1:0], `err` in [7:4], every other bit 0. -/
def statusWord (s : State) : Word := (0 : BitVec 24) ++ errCode s.err ++ (0 : BitVec 2) ++ phaseCode s.phase

/-- ERRINFO (R36). -/
def errinfoWord (s : State) : Word := s.errinfo

/-- ROOT (R37): `root` in [8:0]. -/
def rootWord (s : State) : Word := (0 : BitVec 23) ++ s.root

/-- NNODES (R38): `nnodes` in [9:0]. -/
def nnodesWord (s : State) : Word := (0 : BitVec 22) ++ s.nnodes

/-- CURSOR (R39): `cur` in [8:0]. -/
def cursorWord (s : State) : Word := (0 : BitVec 23) ++ s.cur

/-- BWSTATE (R40): `wacc` in [7:0], `wcnt` in [10:8]. -/
def bwstateWord (s : State) : Word := (0 : BitVec 21) ++ s.wcnt ++ s.wacc

/-- SetErr (60_exceptions.md R198): the first error after the latch was last clear wins. -/
def setErr (e : Err) (info : Word) (s : State) : State :=
  if s.err = .none then { s with err := e, errinfo := info } else s

/-- Clearing the latch (43_system.md R182). -/
def clearErr (s : State) : State := { s with err := .none, errinfo := 0 }

end Sys2Proof.Machine
end

