-- ==== Sys2Proof/Machine/Operands.lean ====
section
/-! DEFINITION. The one operand form, `imm8` (30_encoding.md R93), and the bit-level helpers the units use: writing one bit of
a byte, code bits as a sequence, a byte from a bit sequence. -/

namespace Sys2Proof.Machine

/-- A symbol as the index of its table entry, 0..255 (R93, 20_memory.md R77). -/
def symIndex (s : Sym) : Fin 256 := s.toFin

/-- `zext_32(s)`, the `errinfo` of FSYM and ESYM (R110, R141). -/
def zext32 (s : Sym) : Word := s.setWidth 32

/-- The word `v` with bit `i` set to `b`. -/
def writeBit (v : Byte) (i : Nat) (b : Bool) : Byte :=
  if b then v ||| ((1 : Byte) <<< i) else v &&& ~~~((1 : Byte) <<< i)

/-- The bits of a byte, most significant first (R7 "MSB-first", R70). -/
def byteBits (b : Byte) : List Bool := (List.range 8).map fun j => b.getLsbD (7 - j)

/-- `bits` with the sequence `p` written from position `pos - 1` downwards, every other bit 0. -/
def alignBits : Nat → List Bool → CodeBits
  | _, [] => 0
  | 0, _ :: _ => 0
  | pos + 1, b :: p => (if b then (1 : CodeBits) <<< pos else 0) ||| alignBits pos p

/-- `Entry(p)` (40_build.md R121): the length, and the path left-aligned, `bits[255-i] = p[i]`, else 0. -/
def entryOf (p : List Bool) : CodeEntry := { len := BitVec.ofNat 8 p.length, bits := alignBits 256 p }

/-- `codeseq` (10_state.md R26): `bits[255], bits[254], ..., bits[256-len]`. -/
def codeseq (e : CodeEntry) : List Bool := (List.range e.len.toNat).map fun i => e.bits.getLsbD (255 - i)

end Sys2Proof.Machine
end

