-- ==== Sys2Proof/Machine/Ops.lean ====
section
/-! DEFINITION. The named operations over the tables and registers: table access (20_memory.md R77), taking an error and
returning from one (60_exceptions.md R198, R199, R203), the checks every command passes first (30_encoding.md R103), the
output ports (20_memory.md R76), and the reset (70_reset_and_hazards.md R221). -/

namespace Sys2Proof.Machine

/-! ## Tables -/

/-- The node arena as a table (R24). -/
abbrev Arena := Vector TreeNode 511

/-- The code ROM as a table (R26). -/
abbrev CodeRom := Vector CodeEntry 256

/-- `freq[x]` (R23). -/
def freqAt (s : State) (x : Sym) : Word := s.freq[x.toNat]'(x.isLt)

/-- `freq[x] <- v` (R23). -/
def setFreq (s : State) (x : Sym) (v : Word) : State := { s with freq := s.freq.set x.toNat v x.isLt }

/-- `code[x]`: the code ROM lookup (R26, R77). -/
def codeAt (s : State) (x : Sym) : CodeEntry := s.code[x.toNat]'(x.isLt)

/-- `node[h]`; none where the arena has no entry, which is handle 511 alone (R24; log 8). -/
def nodeAt (arena : Arena) (h : Handle) : Option TreeNode := arena[h.toNat]?

/-- `node[i] <- n` for an entry of the arena (R24). -/
def setNode (s : State) (i : Nat) (n : TreeNode) : State := { s with node := s.node.setIfInBounds i n }

/-- The 256 symbols in ascending order (R115). -/
def allSyms : List Sym := (List.range 256).map (BitVec.ofNat 8)

/-! ## Taking an error, and returning from one -/

/-- The phase change R199 gives for an error: only UNKNOWN_SYMBOL has one, to READY. -/
def phaseAfter (e : Err) (p : Phase) : Phase :=
  match e with
  | .unknownSymbol => .ready
  | .none => p
  | .invalidInput => p
  | .corruptArtifact => p
  | .illegalCmd => p
  | .weightOverflow => p

/-- `raise <Error>(info)` (R8): SetErr (R198), then the phase change of R199. The block goes on: control goes nowhere, it waits
for the next access. -/
def raise (e : Err) (info : Word) (s : State) : Answer :=
  .next { setErr e info s with phase := phaseAfter e s.phase }

/-- Return from an error (R203): the latch is cleared and the block continues from the phase the error left. -/
def returnFromError (s : State) : Answer := .next (clearErr s)

/-! ## The checks before a command's own rule (R103) -/

/-- The phase a command is legal in; none for a command legal in any phase (R94). -/
def legalPhase : Instr → Option Phase
  | .nop => none
  | .sreset => none
  | .clrerr => none
  | .fsym _ => some .empty
  | .build => some .empty
  | .tload => some .empty
  | .estart => some .ready
  | .esym _ => some .enc
  | .eend => some .enc
  | .dstart => some .ready
  | .dbyte _ => some .dec
  | .dend => some .dec

/-- The opcode is SRESET's or CLRERR's: the only two executed while an error is latched (R103 step 1, R200). -/
def passesLatch (op : Byte) : Bool := op == 0x01 || op == 0x02

/-- The command is legal in the phase (R94, R97). -/
def legalIn (i : Instr) (p : Phase) : Bool :=
  match legalPhase i with
  | none => true
  | some q => p == q

/-- R103 for a well-formed command: rejected while an error is latched (step 1, R200); ILLEGAL_CMD in a phase it is not legal
in (step 3, R97), with the command word as `errinfo` (log 10); else its own rule (step 4). -/
def dispatchChecks (i : Instr) (s : State) (own : State → Answer) : Answer :=
  if s.err ≠ .none ∧ passesLatch i.opcode = false then .next s
  else if legalIn i s.phase then own s
  else raise .illegalCmd (encode i) s

/-! ## Output ports (R76) -/

/-- The consumer after it has accepted `n` more values; none when it never accepts them all. -/
def Sink.accept (n : Nat) : Sink → Option Sink
  | .accepting => some .accepting
  | .stopsAfter m => if n ≤ m then some (.stopsAfter (m - n)) else none

/-- EmitByte for each of `bs`, in order (R8, R76). -/
def emitBytes (bs : List Byte) (s : State) : Answer :=
  match s.byteSink.accept bs.length with
  | none => .fault .byteOutHangs
  | some k => .next { s with bytesOut := s.bytesOut ++ bs, byteSink := k }

/-- EmitSym for each of `xs`, in order (R8, R76). -/
def emitSyms (xs : List Sym) (s : State) : Answer :=
  match s.symSink.accept xs.length with
  | none => .fault .symOutHangs
  | some k => .next { s with symsOut := s.symsOut ++ xs, symSink := k }

/-! ## Reset (R44, R220, R221) -/

/-- Every piece of the block's state at its reset value; the model's lists and the world outside are left as they are (R44:
`bytes_out`, `syms_out` "not changed by reset"). -/
def hardReset (s : State) : State :=
  { State.reset with
    bytesOut := s.bytesOut, symsOut := s.symsOut, hostQueue := s.hostQueue, responses := s.responses,
    byteSink := s.byteSink, symSink := s.symSink }

end Sys2Proof.Machine
end

