-- ==== Sys2Proof/Machine/Bus.lean ====
section
/-! DEFINITION. The bus window: the address map (20_memory.md R62 to R65), the registers (10_state.md R33 to R40), and the
words read and written (R66 to R69). What a CMD write does is in Access.lean. -/

namespace Sys2Proof.Machine

/-- A mapped word of the bus window (R62). -/
inductive BusWord where
  | cmd
  | status
  | errinfo
  | root
  | nnodes
  | cursor
  | bwstate
  | freq (x : Sym)
  | nodeWeight (h : Fin 511)
  | nodeInfo (h : Fin 511)
  | nodeChild (h : Fin 511)
  | codeLen (x : Sym)
  | codeBits (x : Sym) (k : Fin 8)
deriving DecidableEq, Repr

/-- The register at a word index (R33): byte offset `4 * i`. -/
def registerAt (i : Nat) : Option BusWord :=
  match i with
  | 0 => some .cmd
  | 1 => some .status
  | 2 => some .errinfo
  | 3 => some .root
  | 4 => some .nnodes
  | 5 => some .cursor
  | 6 => some .bwstate
  | _ => none

/-- The NODE window's word `k` of node `h` (R64): WEIGHT, INFO, CHILD; `B + 0xC` is unmapped. -/
def nodeWordAt (h k : Nat) : Option BusWord :=
  if hh : h < 511 then
    match k with
    | 0 => some (.nodeWeight ⟨h, hh⟩)
    | 1 => some (.nodeInfo ⟨h, hh⟩)
    | 2 => some (.nodeChild ⟨h, hh⟩)
    | _ => none
  else none

/-- The CODE window's word `k` of entry `x` (R65): LEN, BITS0..BITS7; the other seven are unmapped. -/
def codeWordAt (x : Sym) (k : Nat) : Option BusWord :=
  match k with
  | 0 => some (.codeLen x)
  | k + 1 => if hk : k < 8 then some (.codeBits x ⟨k, hk⟩) else none

/-- The address map (R62); none for an unmapped or misaligned offset (R68, R71). -/
def busWordAt (off : Offset) : Option BusWord :=
  let o := off.toNat
  if o % 4 ≠ 0 then none
  else if o < 0x400 then registerAt (o / 4)
  else if o < 0x800 then some (.freq (BitVec.ofNat 8 ((o - 0x400) / 4)))
  else if o < 0x2000 then none
  else if o < 0x4000 then nodeWordAt ((o - 0x2000) / 16) (o % 16 / 4)
  else codeWordAt (BitVec.ofNat 8 ((o - 0x4000) / 64)) (o % 64 / 4)

/-- A one-bit field. -/
def boolBit (b : Bool) : BitVec 1 := if b then 1 else 0

/-- INFO (R64): `leaf` in [0], `sym` in [15:8]. -/
def infoWord (n : TreeNode) : Word := (0 : BitVec 16) ++ n.sym ++ (0 : BitVec 7) ++ boolBit n.leaf

/-- CHILD (R64): `left` in [8:0], `right` in [24:16]. -/
def childWord (n : TreeNode) : Word := (0 : BitVec 7) ++ n.right ++ (0 : BitVec 7) ++ n.left

/-- BITSk (R65): `bits[255-32*k : 224-32*k]`. -/
def codeBitsWord (e : CodeEntry) (k : Nat) : Word := e.bits.extractLsb' (224 - 32 * k) 32

/-- LEN (R65): `len` in [7:0]. -/
def codeLenWord (e : CodeEntry) : Word := (0 : BitVec 24) ++ e.len

/-- The current value of a mapped word (R34 to R40, R63 to R66); CMD reads 0. -/
def wordValue (s : State) : BusWord → Word
  | .cmd => 0
  | .status => statusWord s
  | .errinfo => errinfoWord s
  | .root => rootWord s
  | .nnodes => nnodesWord s
  | .cursor => cursorWord s
  | .bwstate => bwstateWord s
  | .freq x => freqAt s x
  | .nodeWeight h => s.node[h].weight
  | .nodeInfo h => infoWord s.node[h]
  | .nodeChild h => childWord s.node[h]
  | .codeLen x => codeLenWord (codeAt s x)
  | .codeBits x k => codeBitsWord (codeAt s x) k.val

/-- BusRead (R61, R66, R68): `SLVERR` and data 0 at an unmapped or misaligned offset and at any width but 32 bits. -/
def busRead (s : State) (off : Offset) (bits : Nat) : Resp × Word :=
  if bits ≠ Config.busBits then (.slverr, 0)
  else
    match busWordAt off with
    | none => (.slverr, 0)
    | some w => (.okay, wordValue s w)

/-- INFO written (R64, R69): the listed fields only. -/
def writeInfo (n : TreeNode) (data : Word) : TreeNode :=
  { n with leaf := data.getLsbD 0, sym := data.extractLsb' 8 8 }

/-- CHILD written (R64, R69): the listed fields only. -/
def writeChild (n : TreeNode) (data : Word) : TreeNode :=
  { n with left := data.extractLsb' 0 9, right := data.extractLsb' 16 9 }

/-- `node[h]` replaced. -/
def putNode (s : State) (h : Fin 511) (n : TreeNode) : State := { s with node := s.node.set h.val n h.isLt }

/-- The state after a write to a word that is writable in EMPTY (R37, R38, R63, R64); none for a word that is never writable
over the bus (R35, R36, R39, R40, R65). CMD is not written here. -/
def storeWord (s : State) (data : Word) : BusWord → Option State
  | .cmd => none
  | .status => none
  | .errinfo => none
  | .root => some { s with root := data.extractLsb' 0 9 }
  | .nnodes => some { s with nnodes := data.extractLsb' 0 10 }
  | .cursor => none
  | .bwstate => none
  | .freq x => some (setFreq s x data)
  | .nodeWeight h => some (putNode s h { s.node[h] with weight := data })
  | .nodeInfo h => some (putNode s h (writeInfo s.node[h] data))
  | .nodeChild h => some (putNode s h (writeChild s.node[h] data))
  | .codeLen _ => none
  | .codeBits _ _ => none

/-- A write to a mapped word other than CMD (R67): accepted if and only if the word is writable and `phase = EMPTY`, whatever
`err` is. -/
def busStore (s : State) (w : BusWord) (data : Word) : Resp × State :=
  match storeWord s data w with
  | none => (.slverr, s)
  | some t => if s.phase = .empty then (.okay, t) else (.slverr, s)

end Sys2Proof.Machine
end

