-- ==== Sys2Proof/Machine/Queue.lean ====
section
/-! DEFINITION. The priority queue of the tree builder: PQInsert (40_build.md R116) and the arbiter PQRemoveMin (R117), over
the slots of 10_state.md R30. -/

namespace Sys2Proof.Machine

/-- The arbiter's 41-bit key `{weight, seq}` (R117). -/
def PqSlot.key (e : PqSlot) : BitVec 41 := e.weight ++ e.seq

/-- The number of valid slots: the queue's size (R30). -/
def validCount (s : State) : Nat := s.pq.toList.countP (·.valid)

/-- A slot with `valid = 0`: the lowest-numbered one (R116, "any slot"; log 6). -/
def freeSlot (s : State) : Option Nat := s.pq.toList.findIdx? (fun e => !e.valid)

/-- PQInsert(h, w) (R116). "One always exists": a full queue is outside the rule, and then nothing is written (log 7). -/
def pqInsert (h : Handle) (w : Word) (s : State) : State :=
  match freeSlot s with
  | none => s
  | some k =>
    { s with pq := s.pq.setIfInBounds k { valid := true, weight := w, seq := s.seq, handle := h }, seq := s.seq + 1 }

/-- The valid slot of least key in a list of slots numbered from `i`, the first of them where keys are equal (within BUILD they
never are, R117). -/
def leastValid : Nat → List PqSlot → Option (Nat × PqSlot)
  | _, [] => none
  | i, e :: rest =>
    match leastValid (i + 1) rest with
    | none => if e.valid then some (i, e) else none
    | some (k, m) => if e.valid && e.key.toNat ≤ m.key.toNat then some (i, e) else some (k, m)

/-- PQRemoveMin() (R117): the removed entry, and the state with its slot's `valid` cleared. The precondition is one valid entry
at least; without one nothing is removed (log 7). -/
def pqRemoveMin (s : State) : PqSlot × State :=
  match leastValid 0 s.pq.toList with
  | none => (PqSlot.free, s)
  | some (k, e) => (e, { s with pq := s.pq.setIfInBounds k { e with valid := false } })

end Sys2Proof.Machine
end

