-- ==== Sys2Proof/Machine/Tree.lean ====
section
/-! DEFINITION. The two functions of a tree in the arena: the validity predicate ValidTree (40_build.md R126) and the code
generator GenCodes (R121). -/

namespace Sys2Proof.Machine

/-! ## ValidTree (R126) -/

/-- The two sets `Check` threads through its calls. -/
structure Visited where
  handles : List Handle
  symbols : List Sym
deriving DecidableEq, Repr

/-- The weight of `node[h]` as an exact integer; none where there is no entry. -/
def weightOf (arena : Arena) (h : Handle) : Option Nat := (nodeAt arena h).map fun n => n.weight.toNat

/-- `Check(h)` (R126): the sets after it, none when a requirement fails. The first argument bounds the depth of calls; every
call adds a handle below `nnodes <= 511`, so that 512 is never used up (log 9). -/
def checkNode (arena : Arena) (nnodes : Nat) : Nat → Handle → Visited → Option Visited
  | 0, _, _ => none
  | fuel + 1, h, v =>
    if h.toNat < nnodes ∧ h ∉ v.handles then
      match nodeAt arena h with
      | none => none
      | some n =>
        if n.leaf then
          if n.weight ≠ 0 ∧ n.sym ∉ v.symbols then
            some { handles := h :: v.handles, symbols := n.sym :: v.symbols }
          else none
        else
          match checkNode arena nnodes fuel n.left { v with handles := h :: v.handles } with
          | none => none
          | some v1 =>
            match checkNode arena nnodes fuel n.right v1 with
            | none => none
            | some v2 =>
              match weightOf arena n.left, weightOf arena n.right with
              | some wl, some wr => if n.weight.toNat = wl + wr then some v2 else none
              | _, _ => none
    else none

/-- ValidTree(root, nnodes, node) (R126). -/
def validTree (root : Handle) (nnodes : BitVec 10) (arena : Arena) : Bool :=
  decide (1 ≤ nnodes.toNat ∧ nnodes.toNat ≤ 511 ∧ root.toNat < nnodes.toNat) &&
    match checkNode arena nnodes.toNat 512 root { handles := [], symbols := [] } with
    | none => false
    | some v => v.handles.length == nnodes.toNat

/-! ## GenCodes (R121) -/

/-- The code ROM with no entry (R121, first line). -/
def emptyRom : CodeRom := Vector.replicate 256 CodeEntry.none

/-- `code[x] <- e`. -/
def setCode (rom : CodeRom) (x : Sym) (e : CodeEntry) : CodeRom := rom.set x.toNat e x.isLt

/-- `Visit(h, p)` (R121): pre-order, left before right. The first argument bounds the depth of calls: a tree's leaves lie at
depth 255 at most (R124(d), R126), so that 256 is never used up on a tree (log 9). -/
def visit (arena : Arena) : Nat → Handle → List Bool → CodeRom → CodeRom
  | 0, _, _, rom => rom
  | fuel + 1, h, p, rom =>
    match nodeAt arena h with
    | none => rom
    | some n =>
      if n.leaf then setCode rom n.sym (entryOf p)
      else visit arena fuel n.right (p ++ [true]) (visit arena fuel n.left (p ++ [false]) rom)

/-- GenCodes(root, node) (R121), with the lone leaf's fixed code `1` (R122). -/
def genCodes (root : Handle) (arena : Arena) : CodeRom :=
  match nodeAt arena root with
  | none => emptyRom
  | some n =>
    if n.leaf then setCode emptyRom n.sym (entryOf [true])
    else visit arena 256 root [] emptyRom

end Sys2Proof.Machine
end

