-- ==== Sys2Proof/Machine/Build.lean ====
section
/-! DEFINITION. Frequency counting, tree construction and tree load: FSYM, BUILD, TLOAD (40_build.md). -/

namespace Sys2Proof.Machine

/-- FSYM (R110). -/
def execFsym (x : Sym) (s : State) : Answer :=
  dispatchChecks (.fsym x) s fun s =>
    if freqAt s x = 0xFFFFFFFF then raise .weightOverflow (zext32 x) s
    else .next (setFreq s x (freqAt s x + 1))

/-! ## BUILD -/

/-- Every `freq[s]` is 0 (R113). -/
def freqEmpty (s : State) : Bool := s.freq.toList.all (· == 0)

/-- The exact integer sum of the 256 counts (R114). -/
def freqSum (s : State) : Nat := (s.freq.toList.map BitVec.toNat).sum

/-- `nnodes <- 0 ; seq <- 0 ; every pq[k].valid <- 0` (R112). -/
def buildStart (s : State) : State :=
  { s with nnodes := 0, seq := 0, pq := s.pq.map fun e => { e with valid := false } }

/-- Create the node `n` at the next free handle and put it in the queue (R115, R118: the common lines of R112's two loops). -/
def addNode (n : TreeNode) (s : State) : State :=
  let s1 := pqInsert (s.nnodes.setWidth 9) n.weight (setNode s s.nnodes.toNat n)
  { s1 with nnodes := s1.nnodes + 1 }

/-- One turn of the leaf insertion (R115). -/
def insertLeaf (s : State) (x : Sym) : State :=
  if freqAt s x = 0 then s
  else addNode { leaf := true, sym := x, weight := freqAt s x, left := 0, right := 0 } s

/-- Leaf insertion, symbols 0 to 255 in ascending order (R115). -/
def insertLeaves (s : State) : State := allSyms.foldl insertLeaf s

/-- One pass of the merge loop (R118): the first removed entry is the left child, the second the right child. -/
def mergeOnce (s : State) : State :=
  let (a, s1) := pqRemoveMin s
  let (b, s2) := pqRemoveMin s1
  addNode { leaf := false, sym := 0, weight := a.weight + b.weight, left := a.handle, right := b.handle } s2

/-- The merge loop (R118): while more than one entry is valid. It runs `L - 1 <= 255` times (log 9). -/
def mergeLoop : Nat → State → State
  | 0, s => s
  | fuel + 1, s => if 1 < validCount s then mergeLoop fuel (mergeOnce s) else s

/-- The last entry's handle becomes `root` (R120). -/
def takeRoot (s : State) : State :=
  let (r, s1) := pqRemoveMin s
  { s1 with root := r.handle }

/-- The tree of the frequency table, in the arena (R112, R115 to R120). -/
def buildTree (s : State) : State := takeRoot (mergeLoop 255 (insertLeaves (buildStart s)))

/-- The end of BUILD and TLOAD (R112, R125): the code ROM from the tree, READY; the traversal storage is empty again (R31). -/
def acceptTree (s : State) : State :=
  { s with code := genCodes s.root s.node, phase := .ready, tstack := [], tpath := [] }

/-- BUILD (R112). -/
def execBuild (s : State) : Answer :=
  dispatchChecks .build s fun s =>
    if freqEmpty s then raise .invalidInput 0 s
    else if freqSum s > Config.maxCount then raise .weightOverflow 0x00000100 s
    else .next (acceptTree (buildTree s))

/-! ## TLOAD -/

/-- TLOAD (R125, R127). -/
def execTload (s : State) : Answer :=
  dispatchChecks .tload s fun s =>
    if validTree s.root s.nnodes s.node then .next (acceptTree s)
    else raise .corruptArtifact 0 s

end Sys2Proof.Machine
end

