-- ==== Sys2Proof/Machine/Decoder.lean ====
section
/-! DEFINITION. The decoder: DSTART, DBYTE, DEND, the bit unpacker's step RBIT and the tree walk's step WALK
(42_decoder.md). -/

namespace Sys2Proof.Machine

/-- The bit unpacker's two registers and the cursor, taken together (R28, R29). -/
structure Reader where
  byte : Byte
  cnt  : BitVec 4
  cur  : Handle
deriving DecidableEq, Repr

/-- RBIT() (R162): the bit, `rbyte` shifted left by one, `rcnt` less one. -/
def rbit (byte : Byte) (cnt : BitVec 4) : Bool × Byte × BitVec 4 :=
  (byte.getLsbD 7, byte.extractLsb' 0 7 ++ (0 : BitVec 1), cnt - 1)

/-- WALK(bit) (R163, R164): the cursor after it and the symbol it emits, if any; none where the arena has no entry for a handle
it follows (log 8). At a lone leaf the cursor stays. -/
def walk (arena : Arena) (root cur : Handle) (bit : Bool) : Option (Handle × Option Sym) :=
  match nodeAt arena root with
  | none => none
  | some r =>
    if r.leaf then some (cur, if bit then some r.sym else none)
    else
      match nodeAt arena cur with
      | none => none
      | some n =>
        let child := if bit then n.right else n.left
        match nodeAt arena child with
        | none => none
        | some m => if m.leaf then some (root, some m.sym) else some (child, none)

/-- `k` times RBIT and WALK (R161): the registers after it and the symbols emitted, in order. -/
def walkBits (arena : Arena) (root : Handle) : Nat → Reader → Option (Reader × List Sym)
  | 0, r => some (r, [])
  | k + 1, r =>
    let (bit, byte, cnt) := rbit r.byte r.cnt
    match walk arena root r.cur bit with
    | none => none
    | some (cur, out) =>
      match walkBits arena root k { byte := byte, cnt := cnt, cur := cur } with
      | none => none
      | some (r', outs) => some (r', out.toList ++ outs)

/-- `rbyte`, `rcnt`, `cur` written (R28, R29). -/
def setReader (s : State) (r : Reader) : State := { s with rbyte := r.byte, rcnt := r.cnt, cur := r.cur }

/-- DSTART (R160). -/
def execDstart (s : State) : Answer :=
  dispatchChecks .dstart s fun s => .next { setReader s { byte := 0, cnt := 0, cur := s.root } with phase := .dec }

/-- DBYTE (R161). -/
def execDbyte (b : Byte) (s : State) : Answer :=
  dispatchChecks (.dbyte b) s fun s =>
    match walkBits s.node s.root 8 { byte := b, cnt := 8, cur := s.cur } with
    | none => .fault .noSuchNode
    | some (r, syms) => emitSyms syms (setReader s r)

/-- DEND (R165): `phase` only; a partial code is dropped, and `cur` keeps its value. -/
def execDend (s : State) : Answer := dispatchChecks .dend s fun s => .next { s with phase := .ready }

end Sys2Proof.Machine
end

