-- ==== Sys2Proof/Machine/Encoder.lean ====
section
/-! DEFINITION. The encoder: ESTART, ESYM, EEND and the bit packer's step WBIT (41_encoder.md). -/

namespace Sys2Proof.Machine

/-- The bit packer's two registers, taken together (R27). -/
structure Packer where
  acc : Byte
  cnt : BitVec 3
deriving DecidableEq, Repr

/-- The packer as it starts every byte (R140). -/
def Packer.zero : Packer := { acc := 0, cnt := 0 }

/-- WBIT(b) (R143): the packer after it and the byte it emits, if any. -/
def wbit (p : Packer) (b : Bool) : Packer × Option Byte :=
  let acc := writeBit p.acc (7 - p.cnt.toNat) b
  if p.cnt = 7 then (Packer.zero, some acc) else ({ acc := acc, cnt := p.cnt + 1 }, none)

/-- WBIT for each bit of a sequence, first bit first: the packer after it and the bytes emitted, in order (R141). -/
def packBits : Packer → List Bool → Packer × List Byte
  | p, [] => (p, [])
  | p, b :: q =>
    let (p1, out) := wbit p b
    let (p2, bytes) := packBits p1 q
    (p2, out.toList ++ bytes)

/-- The state's packer (R27). -/
def packerOf (s : State) : Packer := { acc := s.wacc, cnt := s.wcnt }

/-- `wacc`, `wcnt` written (R27). -/
def setPacker (s : State) (p : Packer) : State := { s with wacc := p.acc, wcnt := p.cnt }

/-- ESTART (R140). -/
def execEstart (s : State) : Answer :=
  dispatchChecks .estart s fun s => .next { setPacker s Packer.zero with phase := .enc }

/-- ESYM (R141, R142). -/
def execEsym (x : Sym) (s : State) : Answer :=
  dispatchChecks (.esym x) s fun s =>
    if (codeAt s x).len = 0 then raise .unknownSymbol (zext32 x) (setPacker s Packer.zero)
    else
      let (p, bytes) := packBits (packerOf s) (codeseq (codeAt s x))
      emitBytes bytes (setPacker s p)

/-- What EEND emits: the pending partial byte, if there is one (R144). -/
def flushBytes (p : Packer) : List Byte := if p.cnt = 0 then [] else [p.acc]

/-- EEND (R144). -/
def execEend (s : State) : Answer :=
  dispatchChecks .eend s fun s =>
    emitBytes (flushBytes (packerOf s)) { setPacker s Packer.zero with phase := .ready }

end Sys2Proof.Machine
end

