-- ==== Sys2Proof/Machine/System.lean ====
section
/-! DEFINITION. The system commands NOP, SRESET and CLRERR (43_system.md). -/

namespace Sys2Proof.Machine

/-- NOP (R180): no state changes, nothing is emitted. -/
def execNop (s : State) : Answer := dispatchChecks .nop s fun s => .next s

/-- SRESET (R181): every piece of state to its reset value; an open operation is abandoned without a flush. -/
def execSreset (s : State) : Answer := dispatchChecks .sreset s fun s => .next (hardReset s)

/-- CLRERR (R182): `err`, `errinfo` only. -/
def execClrerr (s : State) : Answer := dispatchChecks .clrerr s returnFromError

end Sys2Proof.Machine
end

