-- ==== Sys2Proof/Machine/Dispatch.lean ====
section
/-! DEFINITION. One arm per command (30_encoding.md R94, last column). -/

namespace Sys2Proof.Machine

def exec (i : Instr) (s : State) : Host.Outcome State Fault Refusal :=
  match i with
  | .nop => Sys2Proof.Machine.execNop s
  | .sreset => Sys2Proof.Machine.execSreset s
  | .clrerr => Sys2Proof.Machine.execClrerr s
  | .fsym x => Sys2Proof.Machine.execFsym x s
  | .build => Sys2Proof.Machine.execBuild s
  | .tload => Sys2Proof.Machine.execTload s
  | .estart => Sys2Proof.Machine.execEstart s
  | .esym x => Sys2Proof.Machine.execEsym x s
  | .eend => Sys2Proof.Machine.execEend s
  | .dstart => Sys2Proof.Machine.execDstart s
  | .dbyte b => Sys2Proof.Machine.execDbyte b s
  | .dend => Sys2Proof.Machine.execDend s

end Sys2Proof.Machine
end

