-- ==== Sys2Proof/Machine/Command.lean ====
section
/-! DEFINITION. Executing a command word written to CMD (30_encoding.md R103). -/

namespace Sys2Proof.Machine

/-- R103 for any word `w`: a word the decoder reads is executed; any other is rejected while an error is latched, unless its
opcode is SRESET's or CLRERR's (step 1), and else raises ILLEGAL_CMD with `errinfo = w` (step 2, R95, R96), which an already
latched error absorbs (R198). -/
def runCommandWord (w : Word) (s : State) : Answer :=
  match decode w with
  | .instr i => exec i s
  | .reject _ =>
    if s.err ≠ .none ∧ passesLatch (opcodeOf w) = false then .next s
    else raise .illegalCmd w s

end Sys2Proof.Machine
end

