-- ==== Sys2Proof/Machine/Access.lean ====
section
/-! DEFINITION. Performing one host access to completion (00_scope.md R9; 20_memory.md R61, R66 to R68; 10_state.md R34). -/

namespace Sys2Proof.Machine

/-- The response is given to the host (R61; log 2). -/
def respond (r : BusResponse) (s : State) : State := { s with responses := s.responses ++ [r] }

/-- An answer with the response of the access that caused it. A command that never completes gives none (R34, R223). -/
def answerWith (r : BusResponse) : Answer → Answer
  | .next t => .next (respond r t)
  | .fault f => .fault f
  | .refused f => .refused f

/-- A 32-bit write to a mapped word: to CMD it executes the command and is always `OKAY` (R34, R67). -/
def writeWord (s : State) (w : BusWord) (data : Word) : Answer :=
  if w = .cmd then answerWith (.write .okay) (runCommandWord data s)
  else .next (respond (.write (busStore s w data).1) (busStore s w data).2)

/-- One access, or the reset input (R61, R66 to R68, R220). -/
def performOp (op : HostOp) (s : State) : Answer :=
  match op with
  | .read off bits => .next (respond (.read (busRead s off bits).1 (busRead s off bits).2) s)
  | .write off bits data =>
    if bits ≠ Config.busBits then .next (respond (.write .slverr) s)
    else
      match busWordAt off with
      | none => .next (respond (.write .slverr) s)
      | some w => writeWord s w data
  | .rst => .next (hardReset s)

/-- The next waiting access is performed; with none waiting the block is idle (R73, R221). -/
def performNext (s : State) : Answer :=
  match s.hostQueue with
  | [] => .next s
  | op :: rest => performOp op { s with hostQueue := rest }

/-- The access that writes the command word `w` to CMD (R33, R34). -/
def commandWrite (w : Word) : HostOp := .write 0x0000 32 w

/-- `s` with `op` put before every waiting access. -/
def enqueueFirst (op : HostOp) (s : State) : State := { s with hostQueue := op :: s.hostQueue }

end Sys2Proof.Machine
end

