-- ==== Sys2Proof/Machine/Step.lean ====
section
/-! DEFINITION. One step of the machine: the next host access, to completion (00_scope.md R9). -/

namespace Sys2Proof.Machine

/-- The step. -/
def step (s : State) : Host.Outcome State Fault Refusal := performNext s

/-- `s` with the command word `w` (its bits at and above `nbits` zero) as the next access the host makes: a 32-bit write to CMD.
The block fetches no instructions (20_memory.md R60); this queue is where step takes its next command from (log 1). -/
def State.withFetchWord (s : State) (nbits w : Nat) : State :=
  enqueueFirst (commandWrite (BitVec.ofNat 32 (w % 2 ^ nbits))) s

end Sys2Proof.Machine
end

