-- ==== Sys2Proof/Machine/Artifact.lean ====
section
/-! DEFINITION. The tree artifact (30_encoding.md R100): the arena image, and the labelled binary tree reachable from its root,
which is what makes two images the same tree. -/

namespace Sys2Proof.Machine

/-- The arena image: `nnodes`, `root`, and `node[h]` for h = 0..nnodes-1 (R100). -/
structure ArenaImage where
  nnodes : BitVec 10
  root   : Handle
  nodes  : List TreeNode
deriving DecidableEq, Repr

/-- The arena image the state holds (R100). -/
def imageOf (s : State) : ArenaImage :=
  { nnodes := s.nnodes, root := s.root, nodes := s.node.toList.take s.nnodes.toNat }

/-- A labelled binary tree: shape, leaf symbols, weights (R24, R100). -/
inductive Tree where
  | leaf (sym : Sym) (weight : Word)
  | internal (weight : Word) (left right : Tree)
deriving DecidableEq, Repr

/-- The tree reachable from `h`; none where a handle has no entry or the depth bound is used up (log 9). -/
def treeAt (arena : Arena) : Nat → Handle → Option Tree
  | 0, _ => none
  | fuel + 1, h =>
    match nodeAt arena h with
    | none => none
    | some n =>
      if n.leaf then some (.leaf n.sym n.weight)
      else
        match treeAt arena fuel n.left, treeAt arena fuel n.right with
        | some l, some r => some (.internal n.weight l r)
        | _, _ => none

/-- The handle reached from `h` by a path, `false` = left, `true` = right (R7, R99); none where the path leaves the tree. -/
def followPath (arena : Arena) : Handle → List Bool → Option Handle
  | h, [] => some h
  | h, b :: p =>
    match nodeAt arena h with
    | none => none
    | some n => if n.leaf then none else followPath arena (if b then n.right else n.left) p

end Sys2Proof.Machine
end

