-- ==== Sys2Proof/Machine/Assembler.lean ====
section
/-! DEFINITION. The spec's notation for what a host does: the assembler's lines (30_encoding.md R101) and the
pseudo-instructions (R102), each as the host accesses it stands for. -/

namespace Sys2Proof.Machine

/-! ## Lines (R101) -/

/-- The twelve mnemonics (R94). -/
inductive Mnemonic where
  | nop
  | sreset
  | clrerr
  | fsym
  | build
  | tload
  | estart
  | esym
  | eend
  | dstart
  | dbyte
  | dend
deriving DecidableEq, Repr

/-- The three ways to write an `imm8` (R101). -/
inductive AsmOperand where
  | hex (high low : Nat)   -- `0x` and two hexadecimal digits
  | dec (n : Nat)          -- a decimal number 0..255
  | chr (c : Char)         -- one printable ASCII character in single quotes
deriving DecidableEq, Repr

/-- A line: a command, or one of the two bus pseudo-statements (R101; log 24). -/
inductive AsmLine where
  | cmd (m : Mnemonic) (operand : Option AsmOperand)
  | wr (off value : Nat)
  | rd (off : Nat)
deriving DecidableEq, Repr

/-- The value of an operand; none where it is not of one of the three forms (R101; printable is 0x20..0x7E, log 24). -/
def operandValue : AsmOperand → Option Byte
  | .hex high low => if high < 16 ∧ low < 16 then some (BitVec.ofNat 8 (16 * high + low)) else none
  | .dec n => if n ≤ 255 then some (BitVec.ofNat 8 n) else none
  | .chr c => if 0x20 ≤ c.toNat ∧ c.toNat ≤ 0x7E then some (BitVec.ofNat 8 c.toNat) else none

/-- The command of a mnemonic without an operand: format C0 only (R101). -/
def commandC0 : Mnemonic → Option Instr
  | .nop => some .nop
  | .sreset => some .sreset
  | .clrerr => some .clrerr
  | .fsym => none
  | .build => some .build
  | .tload => some .tload
  | .estart => some .estart
  | .esym => none
  | .eend => some .eend
  | .dstart => some .dstart
  | .dbyte => none
  | .dend => some .dend

/-- The command of a mnemonic with an `imm8`: format C1 only (R101). -/
def commandC1 (m : Mnemonic) (v : Byte) : Option Instr :=
  match m with
  | .nop => none
  | .sreset => none
  | .clrerr => none
  | .fsym => some (.fsym v)
  | .build => none
  | .tload => none
  | .estart => none
  | .esym => some (.esym v)
  | .eend => none
  | .dstart => none
  | .dbyte => some (.dbyte v)
  | .dend => none

/-- The command of a line (R101). -/
def assembleCommand (m : Mnemonic) (operand : Option AsmOperand) : Option Instr :=
  match operand with
  | none => commandC0 m
  | some a =>
    match operandValue a with
    | none => none
    | some v => commandC1 m v

/-- The access that executes a command (R34, R101). -/
def commandOp (i : Instr) : HostOp := commandWrite (encode i)

/-- `RD off` (R101). -/
def rdOp (off : Nat) : HostOp := .read (BitVec.ofNat 15 off) 32

/-- `WR off, value` (R101). -/
def wrOp (off : Nat) (value : Word) : HostOp := .write (BitVec.ofNat 15 off) 32 value

/-- The access a line stands for; none where the line is not one of R101's. -/
def assembleLine : AsmLine → Option HostOp
  | .cmd m operand => (assembleCommand m operand).map commandOp
  | .wr off value => if off < 2 ^ 15 ∧ value < 2 ^ 32 then some (wrOp off (BitVec.ofNat 32 value)) else none
  | .rd off => if off < 2 ^ 15 then some (rdOp off) else none

/-- The eight hexadecimal digits of a command word, first digit first (R101). -/
def hexDigits (w : Word) : List (BitVec 4) := (List.range 8).map fun i => w.extractLsb' (28 - 4 * i) 4

/-! ## Pseudo-instructions (R102) -/

/-- `FREQ t0 ... t(n-1)`. -/
def freqOps (ts : List Sym) : List HostOp := ts.map fun x => commandOp (.fsym x)

/-- `ENCODE t0 ... t(n-1)`. -/
def encodeOps (ts : List Sym) : List HostOp :=
  commandOp .estart :: (ts.map fun x => commandOp (.esym x)) ++ [commandOp .eend]

/-- `DECODE b0 ... b(m-1)`. -/
def decodeOps (bs : List Byte) : List HostOp :=
  commandOp .dstart :: (bs.map fun b => commandOp (.dbyte b)) ++ [commandOp .dend]

/-- The three reads of node `h`. -/
def readNodeOps (h : Nat) : List HostOp :=
  [rdOp (0x2000 + 16 * h), rdOp (0x2004 + 16 * h), rdOp (0x2008 + 16 * h)]

/-- The three writes of node `h`. -/
def writeNodeOps (h : Nat) (n : TreeNode) : List HostOp :=
  [wrOp (0x2000 + 16 * h) n.weight, wrOp (0x2004 + 16 * h) (infoWord n), wrOp (0x2008 + 16 * h) (childWord n)]

/-- `PERSIST`, by a host to which the first read answers `nnodes` (log 14). -/
def persistOps (nnodes : Nat) : List HostOp :=
  rdOp 0x0010 :: rdOp 0x000C :: (List.range nnodes).flatMap readNodeOps

/-- The writes of the nodes of an image, from handle `h` on. -/
def writeNodesOps : Nat → List TreeNode → List HostOp
  | _, [] => []
  | h, n :: rest => writeNodeOps h n ++ writeNodesOps (h + 1) rest

/-- `LOADTREE image`. -/
def loadTreeOps (img : ArenaImage) : List HostOp :=
  commandOp .sreset :: wrOp 0x0010 ((0 : BitVec 22) ++ img.nnodes) :: wrOp 0x000C ((0 : BitVec 23) ++ img.root) ::
    writeNodesOps 0 img.nodes ++ [commandOp .tload]

/-- `COMPRESS t0 ... t(n-1)`, by a host to which PERSIST's first read answers `nnodes`. -/
def compressOps (ts : List Sym) (nnodes : Nat) : List HostOp :=
  commandOp .sreset :: freqOps ts ++ commandOp .build :: encodeOps ts ++ persistOps nnodes

/-- `DECOMPRESS b0 ... b(m-1), image`. -/
def decompressOps (bs : List Byte) (img : ArenaImage) : List HostOp := loadTreeOps img ++ decodeOps bs

end Sys2Proof.Machine
end

