-- ==== Sys2Proof/Machine/Wire.lean ====
section
/-! DEFINITION. The wire format as the spec defines it, apart from the units that produce and consume it: the payload of a bit
sequence (30_encoding.md R98) and the bit sequence of a text (R99, 41_encoder.md R145). -/

namespace Sys2Proof.Machine

/-- The byte whose bit `7-j` is `f j`, j = 0..7 (R98). -/
def byteOfBits (f : Nat → Bool) : Byte := (List.range 8).foldl (fun v j => writeBit v (7 - j) (f j)) 0

/-- The payload of the bit sequence `q` (R98): `ceil(n/8)` bytes, byte k with bit `7-j` equal to `q[8k+j]`, and 0 past the
end. -/
def payload (q : List Bool) : List Byte :=
  (List.range ((q.length + 7) / 8)).map fun k => byteOfBits fun j => q.getD (8 * k + j) false

/-- The concatenation of the code words of a text's symbols, in input order (R99, R145). -/
def textBits (s : State) (ts : List Sym) : List Bool := ts.flatMap fun x => codeseq (codeAt s x)

/-- The number of padding bits of a payload with `n` code bits, `(8 - n mod 8) mod 8` (R146, R166). -/
def padBits (n : Nat) : Nat := (8 - n % 8) % 8

end Sys2Proof.Machine
end

