-- ==== Sys2Proof/Safety.lean ====
section
/-! DEFINITION. What counts as a safe state and a good end of a run: the invariants of 10_state.md R45 (with those R26, R27 and
R31 state of the same fields), the good end of 70_reset_and_hazards.md R232, and consumers that accept (20_memory.md R76). -/

namespace Sys2Proof.Safety

open Sys2Proof.Machine

/-- Both consumers accept every value (R76, R226). -/
def SinksAccept (s : State) : Prop := s.byteSink = .accepting ∧ s.symSink = .accepting

/-- The invariants of R45, lettered as there; (i) is R26's left alignment, (j) R27's zero low bits, (k) R31's empty traversal
storage. R45(b) speaks of two states and is stated by itself. -/
structure Inv (s : State) : Prop where
  tree : s.phase ≠ .empty → validTree s.root s.nnodes s.node = true                                -- (a)
  rom : s.phase ≠ .empty → s.code = genCodes s.root s.node                                         -- (a)
  noCode : s.phase = .empty → ∀ x : Sym, (codeAt s x).len = 0                                      -- (c)
  packerIdle : s.phase ≠ .enc → s.wacc = 0 ∧ s.wcnt = 0                                            -- (d)
  readerIdle : s.rcnt = 0                                                                          -- (e)
  queueEmpty : validCount s = 0                                                                    -- (e)
  cursor : s.phase = .dec → s.cur.toNat < s.nnodes.toNat                                           -- (f)
  cursorInternal : s.phase = .dec →
    ∀ r n, nodeAt s.node s.root = some r → r.leaf = false → nodeAt s.node s.cur = some n → n.leaf = false   -- (f)
  infoClear : s.err = .none → s.errinfo = 0                                                        -- (g)
  romAligned : ∀ x : Sym, ∀ j, j < 256 - (codeAt s x).len.toNat → (codeAt s x).bits.getLsbD j = false        -- (i)
  packerLow : ∀ j, j < 8 - s.wcnt.toNat → s.wacc.getLsbD j = false                                 -- (j)
  noTraversal : s.tstack = [] ∧ s.tpath = []                                                       -- (k)

/-- A good end of a run (R232): no access is left, `err = NONE`, and the phase is EMPTY or READY. -/
def GoodEnd (s : State) : Prop := s.hostQueue = [] ∧ s.err = .none ∧ (s.phase = .empty ∨ s.phase = .ready)

/-- An answer is safe when the machine goes on. -/
def Safe (a : Answer) : Prop := ∃ t, a = .next t

/-! ## Terms the statements use -/

/-- The run of `ops`, one access a step, ends in `t`; what was waiting before is waiting after. -/
def Runs (ops : List HostOp) (s t : State) : Prop :=
  Sys2Proof.core.run ops.length { s with hostQueue := ops ++ s.hostQueue } = .next t

/-- The 32-bit read at `off` answers `(resp, v)` and changes nothing (R61, R66). -/
def ReadAnswers (s : State) (off : Offset) (resp : Resp) (v : Word) : Prop :=
  ∀ rest, step { s with hostQueue := .read off 32 :: rest } =
    .next { s with hostQueue := rest, responses := s.responses ++ [.read resp v] }

/-- The 32-bit write of `data` at `off` answers `resp` and turns `s` into `t`, the queue and the responses apart (R61). -/
def WriteAnswers (s : State) (off : Offset) (data : Word) (resp : Resp) (t : State) : Prop :=
  ∀ rest, step { s with hostQueue := .write off 32 data :: rest } =
    .next { t with hostQueue := rest, responses := s.responses ++ [.write resp] }

/-- The offset is unmapped: in none of the ranges of R62, or a word its window does not list (R64, R65). -/
def Unmapped (off : Offset) : Prop :=
  (0x001C ≤ off.toNat ∧ off.toNat < 0x0400) ∨ (0x0800 ≤ off.toNat ∧ off.toNat < 0x2000) ∨
  (0x2000 ≤ off.toNat ∧ off.toNat < 0x4000 ∧ 0xC ≤ off.toNat % 16) ∨
  (0x3FF0 ≤ off.toNat ∧ off.toNat < 0x4000) ∨ (0x4000 ≤ off.toNat ∧ 0x24 ≤ off.toNat % 64)

/-- The steps of the walk for a bit sequence, first bit first: the last cursor and the symbols emitted (R161, R163, R164). -/
def walkSeq (arena : Arena) (root : Handle) : Handle → List Bool → Option (Handle × List Sym)
  | cur, [] => some (cur, [])
  | cur, b :: q =>
    match walk arena root cur b with
    | none => none
    | some (c, out) =>
      match walkSeq arena root c q with
      | none => none
      | some (c', outs) => some (c', out.toList ++ outs)

/-- The symbols with a count, in ascending order (R115). -/
def present (s : State) : List Sym := allSyms.filter fun x => freqAt s x != 0

/-- The number of Internal nodes below `nnodes` of which `h` is the left or the right child, each link counted (R24). -/
def parentLinks (arena : Arena) (nnodes : Nat) (h : Handle) : Nat :=
  ((arena.toList.take nnodes).map fun n =>
    if n.leaf then 0 else (if n.left = h then 1 else 0) + (if n.right = h then 1 else 0)).sum

/-- In an arena BUILD has made, the queue entry of node `a` has a smaller arbiter key `{weight, seq}` than that of `b` (R117). The
sequence number of a node's entry is its handle: both count the nodes created (R112, R115, R118). -/
def KeyBelow (arena : Arena) (a b : Handle) : Prop :=
  ∃ n m, nodeAt arena a = some n ∧ nodeAt arena b = some m ∧
    (n.weight.toNat < m.weight.toNat ∨ (n.weight = m.weight ∧ a.toNat < b.toNat))

/-- The responses of PERSIST (R102): `nnodes`, `root`, and WEIGHT, INFO, CHILD of each node. -/
def imageResponses (img : ArenaImage) : List BusResponse :=
  .read .okay ((0 : BitVec 22) ++ img.nnodes) :: .read .okay ((0 : BitVec 23) ++ img.root) ::
    img.nodes.flatMap fun n => [.read .okay n.weight, .read .okay (infoWord n), .read .okay (childWord n)]

end Sys2Proof.Safety
end

