-- ==== Sys2Proof/Certificates/Slice0/Obligations.lean ====
section
/-! DEFINITION. The statements about the HT9 Huffman codec block, from the spec's numbered rules. -/

open Sys2Proof Sys2Proof.Machine Sys2Proof.Safety

/-! ## Encoding -/

/-- The twelve rows of R94, each by a word written out from its opcode and operand. -/
def Obligations.TableWordsDecode : Prop :=
  decode 0x00000000 = .instr .nop ∧ decode 0x01000000 = .instr .sreset ∧ decode 0x02000000 = .instr .clrerr ∧
  decode 0x10000061 = .instr (.fsym 0x61) ∧ decode 0x11000000 = .instr .build ∧ decode 0x12000000 = .instr .tload ∧
  decode 0x20000000 = .instr .estart ∧ decode 0x210000FF = .instr (.esym 0xFF) ∧ decode 0x22000000 = .instr .eend ∧
  decode 0x30000000 = .instr .dstart ∧ decode 0x31000058 = .instr (.dbyte 0x58) ∧ decode 0x32000000 = .instr .dend

/-- R90 to R96: a word is read as a command exactly when it is that command's word; both directions, every operand. -/
def Obligations.DecodeAndEncodeAgree : Prop :=
  ∀ (w : Word) (i : Instr), decode w = .instr i ↔ w = encode i

/-- R95, as the host sees it (R34): the CMD write of a word whose opcode is none of R94's twelve raises ILLEGAL_CMD with the
word, changes nothing else, and is answered OKAY. -/
def Obligations.ReservedOpcodeIsIllegal : Prop :=
  ∀ (s : State) (w : Word), s.err = .none →
    w.extractLsb' 24 8 ∉
      ([0x00, 0x01, 0x02, 0x10, 0x11, 0x12, 0x20, 0x21, 0x22, 0x30, 0x31, 0x32] : List (BitVec 8)) →
    WriteAnswers s 0x0000 w .okay { s with err := .illegalCmd, errinfo := w }

/-- R96, as the host sees it (R34): the CMD write of a word with an opcode of R94 whose `zero` field is not 0 raises ILLEGAL_CMD
with the word, changes nothing else, and is answered OKAY; NOP is the word 0. -/
def Obligations.NonzeroReservedBitsAreIllegal : Prop :=
  (∀ (s : State) (w : Word), s.err = .none →
    ((w.extractLsb' 24 8 ∈ ([0x10, 0x21, 0x31] : List (BitVec 8)) ∧ w &&& 0x00FFFF00 ≠ 0) ∨
     (w.extractLsb' 24 8 ∈ ([0x00, 0x01, 0x02, 0x11, 0x12, 0x20, 0x22, 0x30, 0x32] : List (BitVec 8)) ∧
      w &&& 0x00FFFFFF ≠ 0)) →
    WriteAnswers s 0x0000 w .okay { s with err := .illegalCmd, errinfo := w }) ∧
  ∀ w : Word, decode w = .instr .nop ↔ w = 0x00000000

/-- R97 with R94's column "legal in phase", as the host sees it (R34): the CMD write of a well-formed command in another phase
raises ILLEGAL_CMD with its word, every other piece of state is unchanged, and it is answered OKAY. -/
def Obligations.WrongPhaseIsIllegal : Prop :=
  ∀ (s : State) (w : Word) (i : Instr), s.err = .none → decode w = .instr i →
    ((((∃ x, i = .fsym x) ∨ i = .build ∨ i = .tload) ∧ s.phase ≠ .empty) ∨
     ((i = .estart ∨ i = .dstart) ∧ s.phase ≠ .ready) ∨
     (((∃ x, i = .esym x) ∨ i = .eend) ∧ s.phase ≠ .enc) ∨
     (((∃ b, i = .dbyte b) ∨ i = .dend) ∧ s.phase ≠ .dec)) →
    WriteAnswers s 0x0000 w .okay { s with err := .illegalCmd, errinfo := w }

/-- R200, first sentence, with R103's last paragraph and R198, as the host sees it: while an error is latched the CMD write of any
word but SRESET's and CLRERR's own, a malformed one with their opcodes too, changes no state of the block and emits nothing, and
its response is OKAY. -/
def Obligations.CommandIsRejectedWhileErrorIsLatched : Prop :=
  ∀ (s : State) (w : Word), s.err ≠ .none → decode w ≠ .instr .sreset → decode w ≠ .instr .clrerr →
    WriteAnswers s 0x0000 w .okay s

/-! ## One step -/

/-- A CMD write whose word decodes to `i` is `exec i` on the state without that access, and then its response (R34, R103). -/
def Obligations.StepRunsTheDecodedCommand : Prop :=
  ∀ (s : State) (w : Word) (i : Instr) (rest : List HostOp), decode w = .instr i →
    s.hostQueue = .write 0x0000 32 w :: rest →
    step s =
      match exec i { s with hostQueue := rest } with
      | .next t => .next { t with responses := t.responses ++ [.write .okay] }
      | .fault f => .fault f
      | .refused r => .refused r

/-! ## The bus -/

/-- R68, with the unmapped offsets as R62, R64 and R65 list them. -/
def Obligations.UnmappedMisalignedOrNarrowAccessIsRefused : Prop :=
  ∀ (s : State) (off : Offset) (bits : Nat) (data : Word) (rest : List HostOp),
    (Unmapped off ∨ off.toNat % 4 ≠ 0 ∨ bits ≠ 32) →
    step { s with hostQueue := .read off bits :: rest } =
      .next { s with hostQueue := rest, responses := s.responses ++ [.read .slverr 0] } ∧
    step { s with hostQueue := .write off bits data :: rest } =
      .next { s with hostQueue := rest, responses := s.responses ++ [.write .slverr] }

/-- R66: a read of any mapped word, in any phase and with any error, answers OKAY and changes nothing; the data is the same
whatever the host does next. -/
def Obligations.MappedReadIsOkayAndWithoutSideEffect : Prop :=
  ∀ (s : State) (off : Offset), ¬ Unmapped off → off.toNat % 4 = 0 → ∃ v, ReadAnswers s off .okay v

/-- R35: STATUS, with the codes of R21 and R22; a write is refused. -/
def Obligations.StatusShowsPhaseAndError : Prop :=
  ∀ s : State,
    (∃ v : Word, ReadAnswers s 0x0004 .okay v ∧
      v.extractLsb' 0 2 = (match s.phase with | .empty => 0 | .ready => 1 | .enc => 2 | .dec => 3) ∧
      v.extractLsb' 2 2 = 0 ∧
      v.extractLsb' 4 4 = (match s.err with
        | .none => 0 | .invalidInput => 1 | .unknownSymbol => 2 | .corruptArtifact => 3 | .illegalCmd => 4
        | .weightOverflow => 5) ∧
      v.extractLsb' 8 24 = 0) ∧
    ∀ data, WriteAnswers s 0x0004 data .slverr s

/-- R36, R39, R40: ERRINFO, CURSOR, BWSTATE; writes are refused. And CMD reads 0 (R34). -/
def Obligations.ReadOnlyRegisters : Prop :=
  ∀ s : State,
    ReadAnswers s 0x0000 .okay 0 ∧
    ReadAnswers s 0x0008 .okay s.errinfo ∧
    (∃ v : Word, ReadAnswers s 0x0014 .okay v ∧ v.extractLsb' 0 9 = s.cur ∧ v.extractLsb' 9 23 = 0) ∧
    (∃ v : Word, ReadAnswers s 0x0018 .okay v ∧ v.extractLsb' 0 8 = s.wacc ∧ v.extractLsb' 8 3 = s.wcnt ∧
      v.extractLsb' 11 21 = 0) ∧
    ∀ data, WriteAnswers s 0x0008 data .slverr s ∧ WriteAnswers s 0x0014 data .slverr s ∧
      WriteAnswers s 0x0018 data .slverr s

/-- R37, R38: ROOT and NNODES, read in any phase, written in EMPTY only, the upper bits dropped. -/
def Obligations.RootAndNnodesRegisters : Prop :=
  ∀ s : State,
    (∃ v : Word, ReadAnswers s 0x000C .okay v ∧ v.extractLsb' 0 9 = s.root ∧ v.extractLsb' 9 23 = 0) ∧
    (∃ v : Word, ReadAnswers s 0x0010 .okay v ∧ v.extractLsb' 0 10 = s.nnodes ∧ v.extractLsb' 10 22 = 0) ∧
    ∀ data : Word,
      (s.phase = .empty → WriteAnswers s 0x000C data .okay { s with root := data.extractLsb' 0 9 }) ∧
      (s.phase = .empty → WriteAnswers s 0x0010 data .okay { s with nnodes := data.extractLsb' 0 10 }) ∧
      (s.phase ≠ .empty → WriteAnswers s 0x000C data .slverr s ∧ WriteAnswers s 0x0010 data .slverr s)

/-- R63: the FREQ window. -/
def Obligations.FreqWindow : Prop :=
  ∀ (s : State) (x : Nat) (hx : x < 256),
    ReadAnswers s (BitVec.ofNat 15 (0x0400 + 4 * x)) .okay s.freq[x] ∧
    ∀ data : Word,
      (s.phase = .empty →
        WriteAnswers s (BitVec.ofNat 15 (0x0400 + 4 * x)) data .okay { s with freq := s.freq.set x data }) ∧
      (s.phase ≠ .empty → WriteAnswers s (BitVec.ofNat 15 (0x0400 + 4 * x)) data .slverr s)

/-- R64: the NODE window, with the layout of its three words, what a write stores, and the unmapped fourth word. -/
def Obligations.NodeWindow : Prop :=
  ∀ (s : State) (h : Nat) (hh : h < 511),
    ReadAnswers s (BitVec.ofNat 15 (0x2000 + 16 * h)) .okay s.node[h].weight ∧
    (∃ v : Word, ReadAnswers s (BitVec.ofNat 15 (0x2004 + 16 * h)) .okay v ∧ v.getLsbD 0 = s.node[h].leaf ∧
      v.extractLsb' 1 7 = 0 ∧ v.extractLsb' 8 8 = s.node[h].sym ∧ v.extractLsb' 16 16 = 0) ∧
    (∃ v : Word, ReadAnswers s (BitVec.ofNat 15 (0x2008 + 16 * h)) .okay v ∧ v.extractLsb' 0 9 = s.node[h].left ∧
      v.extractLsb' 9 7 = 0 ∧ v.extractLsb' 16 9 = s.node[h].right ∧ v.extractLsb' 25 7 = 0) ∧
    ReadAnswers s (BitVec.ofNat 15 (0x200C + 16 * h)) .slverr 0 ∧
    ∀ data : Word,
      (s.phase = .empty →
        WriteAnswers s (BitVec.ofNat 15 (0x2000 + 16 * h)) data .okay
          { s with node := s.node.set h { s.node[h] with weight := data } } ∧
        WriteAnswers s (BitVec.ofNat 15 (0x2004 + 16 * h)) data .okay
          { s with node := s.node.set h { s.node[h] with leaf := data.getLsbD 0, sym := data.extractLsb' 8 8 } } ∧
        WriteAnswers s (BitVec.ofNat 15 (0x2008 + 16 * h)) data .okay
          { s with node :=
              s.node.set h { s.node[h] with left := data.extractLsb' 0 9, right := data.extractLsb' 16 9 } }) ∧
      (s.phase ≠ .empty →
        WriteAnswers s (BitVec.ofNat 15 (0x2000 + 16 * h)) data .slverr s ∧
        WriteAnswers s (BitVec.ofNat 15 (0x2004 + 16 * h)) data .slverr s ∧
        WriteAnswers s (BitVec.ofNat 15 (0x2008 + 16 * h)) data .slverr s) ∧
      WriteAnswers s (BitVec.ofNat 15 (0x200C + 16 * h)) data .slverr s

/-- R65: the CODE window, read-only in every phase. -/
def Obligations.CodeWindow : Prop :=
  ∀ (s : State) (x : Nat) (hx : x < 256),
    (∃ v : Word, ReadAnswers s (BitVec.ofNat 15 (0x4000 + 64 * x)) .okay v ∧ v.extractLsb' 0 8 = s.code[x].len ∧
      v.extractLsb' 8 24 = 0) ∧
    (∀ k, k < 8 →
      ReadAnswers s (BitVec.ofNat 15 (0x4004 + 64 * x + 4 * k)) .okay
        (s.code[x].bits.extractLsb' (224 - 32 * k) 32)) ∧
    (∀ k, 9 ≤ k → k < 16 → ReadAnswers s (BitVec.ofNat 15 (0x4000 + 64 * x + 4 * k)) .slverr 0) ∧
    ∀ k, k < 16 → ∀ data : Word, WriteAnswers s (BitVec.ofNat 15 (0x4000 + 64 * x + 4 * k)) data .slverr s

/-- R67: a write to a mapped word other than CMD is accepted if and only if the word is FREQ, NODE, ROOT or NNODES and the
phase is EMPTY, whatever `err` is; a refused one changes nothing; a CMD write that completes is OKAY. -/
def Obligations.WritesAreAcceptedOnlyInEmpty : Prop :=
  ∀ (s t : State) (off : Offset) (data : Word) (rest : List HostOp),
    step { s with hostQueue := .write off 32 data :: rest } = .next t →
    (off ≠ 0 → ¬ Unmapped off → off.toNat % 4 = 0 →
      ((t.responses = s.responses ++ [.write .okay] ↔
        s.phase = .empty ∧ (off = 0x000C ∨ off = 0x0010 ∨ (0x0400 ≤ off.toNat ∧ off.toNat < 0x4000))) ∧
       (t.responses ≠ s.responses ++ [.write .okay] →
        t = { s with hostQueue := rest, responses := s.responses ++ [.write .slverr] }))) ∧
    (off = 0 → t.responses = s.responses ++ [.write .okay])

/-! ## System commands, reset, the latch -/

/-- R180. -/
def Obligations.NopChangesNothing : Prop := ∀ s : State, exec .nop s = .next s

/-- R181 with the values of R44: every piece of the block's state, in any phase and with any error; what was emitted stays
emitted. -/
def Obligations.SresetRestoresTheResetState : Prop :=
  ∀ s : State, exec .sreset s = .next
    { phase := .empty, err := .none, errinfo := 0,
      freq := Vector.replicate 256 0,
      node := Vector.replicate 511 { leaf := false, sym := 0, weight := 0, left := 0, right := 0 },
      nnodes := 0, root := 0,
      code := Vector.replicate 256 { len := 0, bits := 0 },
      wacc := 0, wcnt := 0, rbyte := 0, rcnt := 0, cur := 0,
      pq := Vector.replicate 256 { valid := false, weight := 0, seq := 0, handle := 0 },
      seq := 0, tstack := [], tpath := [],
      bytesOut := s.bytesOut, symsOut := s.symsOut, hostQueue := s.hostQueue, responses := s.responses,
      byteSink := s.byteSink, symSink := s.symSink }

/-- R220: the reset input has SRESET's effect. -/
def Obligations.HardwareResetEqualsSreset : Prop :=
  ∀ (s : State) (rest : List HostOp), step { s with hostQueue := .rst :: rest } = exec .sreset { s with hostQueue := rest }

/-- R182. -/
def Obligations.ClrerrClearsTheLatch : Prop :=
  ∀ s : State, exec .clrerr s = .next { s with err := .none, errinfo := 0 }

/-- R44: the values after a hardware reset, as the host and the commands read them. -/
def Obligations.ResetValues : Prop :=
  State.reset.phase = .empty ∧ State.reset.err = .none ∧ State.reset.errinfo = 0 ∧
  (∀ x (_ : x < 256), State.reset.freq[x] = 0) ∧
  (∀ h (_ : h < 511), State.reset.node[h] = { leaf := false, sym := 0, weight := 0, left := 0, right := 0 }) ∧
  State.reset.nnodes = 0 ∧ State.reset.root = 0 ∧
  (∀ x (_ : x < 256), State.reset.code[x] = { len := 0, bits := 0 }) ∧
  State.reset.wacc = 0 ∧ State.reset.wcnt = 0 ∧ State.reset.rbyte = 0 ∧ State.reset.rcnt = 0 ∧
  State.reset.cur = 0 ∧
  (∀ k (_ : k < 256), State.reset.pq[k] = { valid := false, weight := 0, seq := 0, handle := 0 }) ∧
  State.reset.seq = 0 ∧ State.reset.tstack = [] ∧ State.reset.tpath = []

/-- R22, R198, R200: a latched error and its `errinfo` stay until a reset, SRESET or CLRERR. -/
def Obligations.FirstErrorIsKept : Prop :=
  ∀ (s t : State), s.err ≠ .none → step s = .next t →
    (t.err = s.err ∧ t.errinfo = s.errinfo) ∨
    ∃ rest, s.hostQueue = .rst :: rest ∨ s.hostQueue = .write 0 32 0x01000000 :: rest ∨
      s.hostQueue = .write 0 32 0x02000000 :: rest

/-! ## FSYM and BUILD -/

/-- R110: the count, or WEIGHT_OVERFLOW with the symbol. -/
def Obligations.FsymCountsOneSymbol : Prop :=
  ∀ (s : State) (x : Sym), s.phase = .empty → s.err = .none →
    exec (.fsym x) s =
      if freqAt s x = 0xFFFFFFFF then .next { s with err := .weightOverflow, errinfo := x.setWidth 32 }
      else .next { s with freq := s.freq.set x.toNat (freqAt s x + 1) x.isLt }

/-- R111: after reset and the FSYM commands of a text in which no count overflows, the count of every symbol is its number of
occurrences (0 for a symbol not in the text), and the counts sum to the length. -/
def Obligations.FrequencyTableCountsTheText : Prop :=
  ∀ ts : List Sym, (∀ x : Sym, ts.count x < 2 ^ 32) →
    ∃ t, Runs (freqOps ts) State.reset t ∧ t.err = .none ∧ t.phase = .empty ∧
      (∀ x : Sym, (freqAt t x).toNat = ts.count x) ∧ (t.freq.toList.map BitVec.toNat).sum = ts.length

/-- R113: BUILD on an empty table. -/
def Obligations.BuildOfAnEmptyTable : Prop :=
  ∀ s : State, s.phase = .empty → s.err = .none → (∀ x : Sym, freqAt s x = 0) →
    exec .build s = .next { s with err := .invalidInput, errinfo := 0 }

/-- R114, first sentence: BUILD when the exact sum of the counts is above `2^32 - 1`. -/
def Obligations.BuildOfTooLargeCounts : Prop :=
  ∀ s : State, s.phase = .empty → s.err = .none → (s.freq.toList.map BitVec.toNat).sum > 2 ^ 32 - 1 →
    exec .build s = .next { s with err := .weightOverflow, errinfo := 0x00000100 }

/-- R112, R118, R120, R124(a), (b): on any other table BUILD completes, with a valid tree of `2L-1` nodes whose root weighs the
sum of the counts, and the code ROM of that tree; every other piece of state, and every arena entry at or above the new
`nnodes`, is as before. That the traversal storage is empty after it is R31 as the model reads it (log 16). -/
def Obligations.BuildMakesAValidTree : Prop :=
  ∀ s : State, s.phase = .empty → s.err = .none → (∃ x : Sym, freqAt s x ≠ 0) →
    (s.freq.toList.map BitVec.toNat).sum ≤ 2 ^ 32 - 1 →
    ∃ t, exec .build s = .next t ∧
      t = { s with node := t.node, nnodes := t.nnodes, root := t.root, code := t.code, phase := .ready,
                   pq := t.pq, seq := t.seq, tstack := [], tpath := [] } ∧
      validTree t.root t.nnodes t.node = true ∧ t.code = genCodes t.root t.node ∧
      t.nnodes.toNat = 2 * (present s).length - 1 ∧ validCount t = 0 ∧
      (∃ r, nodeAt t.node t.root = some r ∧ r.weight.toNat = (s.freq.toList.map BitVec.toNat).sum) ∧
      ∀ h (_ : h < 511), t.nnodes.toNat ≤ h → t.node[h] = s.node[h]

/-- R115, R117, R118, R120, R124(a), (b): the arena BUILD leaves. Leaves at 0..L-1 in ascending symbol order; Internal nodes above
them with smaller children whose weights they sum, the last of them the root. The entries the merge loop removed, which are
left(L), right(L), left(L+1), right(L+1), ..., have strictly ascending arbiter keys: the first removed of a pass is its left
child, the second its right child, and equal weights go first in, first out. -/
def Obligations.BuildLaysOutTheArena : Prop :=
  ∀ s t : State, s.phase = .empty → s.err = .none → exec .build s = .next t → t.phase = .ready →
    (∀ h (hp : h < (present s).length), t.node[h]? = some
      { leaf := true, sym := (present s)[h], weight := freqAt s (present s)[h], left := 0, right := 0 }) ∧
    (∀ h, (present s).length ≤ h → h < t.nnodes.toNat → ∃ n l r, t.node[h]? = some n ∧ n.leaf = false ∧ n.sym = 0 ∧
      n.left.toNat < h ∧ n.right.toNat < h ∧ nodeAt t.node n.left = some l ∧ nodeAt t.node n.right = some r ∧
      n.weight.toNat = l.weight.toNat + r.weight.toNat ∧ KeyBelow t.node n.left n.right) ∧
    (∀ h n m, (present s).length ≤ h → h + 1 < t.nnodes.toNat → t.node[h]? = some n → t.node[h + 1]? = some m →
      KeyBelow t.node n.right m.left) ∧
    t.root.toNat = t.nnodes.toNat - 1

/-- R119, R122: one present symbol gives a lone leaf and the fixed 1-bit code `1`. -/
def Obligations.BuildOfOneSymbol : Prop :=
  ∀ (s : State) (x : Sym), s.phase = .empty → s.err = .none → present s = [x] →
    ∃ t, exec .build s = .next t ∧ t.phase = .ready ∧ t.err = .none ∧ t.nnodes = 1 ∧ t.root = 0 ∧
      t.node[0] = { leaf := true, sym := x, weight := freqAt s x, left := 0, right := 0 } ∧
      codeAt t x = { len := 1, bits := 1#256 <<< 255 } ∧
      ∀ y, y ≠ x → codeAt t y = { len := 0, bits := 0 }

/-- R117: the arbiter removes the valid entry that is least by weight and then by sequence number, and no other slot
changes. -/
def Obligations.ArbiterRemovesTheLeastEntry : Prop :=
  ∀ s : State, (∃ k : Fin 256, s.pq[k].valid = true) →
    ∃ k : Fin 256, s.pq[k].valid = true ∧ (pqRemoveMin s).1 = s.pq[k] ∧
      (∀ j : Fin 256, s.pq[j].valid = true →
        s.pq[k].weight.toNat < s.pq[j].weight.toNat ∨
        (s.pq[k].weight = s.pq[j].weight ∧ s.pq[k].seq.toNat ≤ s.pq[j].seq.toNat)) ∧
      (pqRemoveMin s).2 = { s with pq := s.pq.set k { s.pq[k] with valid := false } }

/-- R124(f): a symbol with a strictly greater count never has a longer code. -/
def Obligations.GreaterCountNeverHasLongerCode : Prop :=
  ∀ (s t : State) (a b : Sym), s.phase = .empty → s.err = .none → exec .build s = .next t → t.phase = .ready →
    freqAt s b ≠ 0 → (freqAt s b).toNat < (freqAt s a).toNat → (codeAt t a).len.toNat ≤ (codeAt t b).len.toNat

/-! ## Trees and codes -/

/-- R121, R123: in a valid tree whose root is an Internal node, the code of a symbol is the path from the root to its leaf, and
a symbol without a leaf has none. -/
def Obligations.CodesAreThePathsOfTheTree : Prop :=
  ∀ (root : Handle) (nnodes : BitVec 10) (arena : Arena), validTree root nnodes arena = true →
    (∃ r, nodeAt arena root = some r ∧ r.leaf = false) →
    ∀ x : Sym,
      (∀ p : List Bool, p ≠ [] →
        (codeseq ((genCodes root arena)[x.toNat]'(x.isLt)) = p ↔
          ∃ h n, followPath arena root p = some h ∧ nodeAt arena h = some n ∧ n.leaf = true ∧ n.sym = x)) ∧
      (((genCodes root arena)[x.toNat]'(x.isLt)).len = 0 ↔
        ∀ h n, h.toNat < nnodes.toNat → nodeAt arena h = some n → n.leaf = true → n.sym ≠ x)

/-- R26, R124(e): the codes of a valid tree are prefix-free. -/
def Obligations.CodesArePrefixFree : Prop :=
  ∀ (root : Handle) (nnodes : BitVec 10) (arena : Arena), validTree root nnodes arena = true →
    ∀ a b : Sym, a ≠ b →
      ((genCodes root arena)[a.toNat]'(a.isLt)).len ≠ 0 → ((genCodes root arena)[b.toNat]'(b.isLt)).len ≠ 0 →
      ¬ codeseq ((genCodes root arena)[a.toNat]'(a.isLt)) <+: codeseq ((genCodes root arena)[b.toNat]'(b.isLt))

/-- R24, R126: in a valid tree every handle below `nnodes` other than the root is the child of exactly one Internal node, and
the root is the child of none. -/
def Obligations.ValidTreeOwnsEachChildOnce : Prop :=
  ∀ (root : Handle) (nnodes : BitVec 10) (arena : Arena), validTree root nnodes arena = true →
    ∀ h : Handle, h.toNat < nnodes.toNat → parentLinks arena nnodes.toNat h = if h = root then 0 else 1

/-- R100: the same tree under another numbering gives the same code ROM. -/
def Obligations.SameTreeGivesSameCodes : Prop :=
  ∀ (root root' : Handle) (nnodes nnodes' : BitVec 10) (arena arena' : Arena),
    validTree root nnodes arena = true → validTree root' nnodes' arena' = true →
    treeAt arena 512 root = treeAt arena' 512 root' → genCodes root arena = genCodes root' arena'

/-- R125: TLOAD of a valid arena. That the traversal storage is empty after it is R31 as the model reads it (log 16). -/
def Obligations.TloadAcceptsAValidTree : Prop :=
  ∀ s : State, s.phase = .empty → s.err = .none → validTree s.root s.nnodes s.node = true →
    exec .tload s = .next { s with code := genCodes s.root s.node, phase := .ready, tstack := [], tpath := [] }

/-- R127: TLOAD of an arena that is not a tree fails closed. -/
def Obligations.TloadFailsClosed : Prop :=
  ∀ s : State, s.phase = .empty → s.err = .none → validTree s.root s.nnodes s.node = false →
    exec .tload s = .next { s with err := .corruptArtifact, errinfo := 0 }

/-- R100, R102: PERSIST reads the arena image and changes nothing. -/
def Obligations.PersistReadsTheArenaImage : Prop :=
  ∀ s : State, s.nnodes.toNat ≤ 511 →
    Runs (persistOps s.nnodes.toNat) s { s with responses := s.responses ++ imageResponses (imageOf s) }

/-- R100, R102, R125: LOADTREE of the image of a tree another block holds, from any state, gives that tree and its code ROM;
the frequency table is empty, and nothing is emitted. -/
def Obligations.LoadtreeRestoresTheTree : Prop :=
  ∀ s u : State, validTree s.root s.nnodes s.node = true →
    ∃ t, Runs (loadTreeOps (imageOf s)) u t ∧ t.phase = .ready ∧ t.err = .none ∧ t.nnodes = s.nnodes ∧
      t.root = s.root ∧ t.code = genCodes s.root s.node ∧
      (∀ h (_ : h < 511), h < s.nnodes.toNat → t.node[h] = s.node[h]) ∧
      (∀ x : Sym, freqAt t x = 0) ∧ t.bytesOut = u.bytesOut ∧ t.symsOut = u.symsOut

/-! ## The encoder -/

/-- R140. -/
def Obligations.EstartOpensAnEncode : Prop :=
  ∀ s : State, s.phase = .ready → s.err = .none → exec .estart s = .next { s with wacc := 0, wcnt := 0, phase := .enc }

/-- R143: WBIT writes bit `7 - wcnt` and no other, and emits the completed byte on the eighth. -/
def Obligations.WbitPlacesOneBit : Prop :=
  ∀ (p : Packer) (b : Bool), ∃ acc : Byte,
    (∀ j, j < 8 → acc.getLsbD j = if j = 7 - p.cnt.toNat then b else p.acc.getLsbD j) ∧
    wbit p b = if p.cnt = 7 then ({ acc := 0, cnt := 0 }, some acc) else ({ acc := acc, cnt := p.cnt + 1 }, none)

/-- R141, R146: with a code, ESYM completes: the pending bits followed by the code bits are the bits of the bytes emitted
followed by the bits pending after it; `floor((wcnt + len) / 8)` bytes are emitted; nothing else changes. -/
def Obligations.EsymPacksTheCode : Prop :=
  ∀ (s : State) (x : Sym), s.phase = .enc → s.err = .none → s.byteSink = .accepting → (codeAt s x).len ≠ 0 →
    ∃ acc cnt bytes,
      exec (.esym x) s = .next { s with wacc := acc, wcnt := cnt, bytesOut := s.bytesOut ++ bytes } ∧
      bytes.length = (s.wcnt.toNat + (codeAt s x).len.toNat) / 8 ∧
      cnt.toNat = (s.wcnt.toNat + (codeAt s x).len.toNat) % 8 ∧
      (byteBits s.wacc).take s.wcnt.toNat ++ codeseq (codeAt s x) =
        bytes.flatMap byteBits ++ (byteBits acc).take cnt.toNat

/-- R142: ESYM of a symbol without a code ends the operation. -/
def Obligations.EsymOfAnUnknownSymbol : Prop :=
  ∀ (s : State) (x : Sym), s.phase = .enc → s.err = .none → (codeAt s x).len = 0 →
    exec (.esym x) s = .next { s with err := .unknownSymbol, errinfo := x.setWidth 32, phase := .ready, wacc := 0, wcnt := 0 }

/-- R144: EEND emits the pending byte as it is, if 1 to 7 bits are pending, and closes the operation. -/
def Obligations.EendFlushesAndCloses : Prop :=
  ∀ s : State, s.phase = .enc → s.err = .none → s.byteSink = .accepting →
    exec .eend s = .next
      { s with bytesOut := s.bytesOut ++ (if s.wcnt ≠ 0 then [s.wacc] else []), wacc := 0, wcnt := 0, phase := .ready }

/-- R145, R146, R148, with R98: the run of ENCODE (R102) on any text whose symbols have codes emits exactly the payload of the
text's bit sequence, every access is answered OKAY, and nothing else changes. -/
def Obligations.EncodeEmitsThePayload : Prop :=
  ∀ (s : State) (ts : List Sym), s.phase = .ready → s.err = .none → s.byteSink = .accepting →
    (∀ x ∈ ts, (codeAt s x).len ≠ 0) →
    Runs (encodeOps ts) s
      { s with wacc := 0, wcnt := 0, bytesOut := s.bytesOut ++ payload (textBits s ts),
               responses := s.responses ++ List.replicate (ts.length + 2) (.write .okay) }

/-! ## The decoder -/

/-- R160. -/
def Obligations.DstartOpensADecode : Prop :=
  ∀ s : State, s.phase = .ready → s.err = .none →
    exec .dstart s = .next { s with cur := s.root, rbyte := 0, rcnt := 0, phase := .dec }

/-- R162: RBIT delivers bit 7, shifts left by one and counts down. -/
def Obligations.RbitDeliversTheTopBit : Prop :=
  ∀ (byte : Byte) (cnt : BitVec 4), 1 ≤ cnt.toNat →
    (rbit byte cnt).1 = byte.getLsbD 7 ∧ (rbit byte cnt).2.1 = byte <<< 1 ∧
    (rbit byte cnt).2.2.toNat = cnt.toNat - 1

/-- R163, R164: WALK in a tree whose root is an Internal node, and at a lone leaf (a 1 bit emits the symbol, a 0 bit is
ignored, the cursor stays). R164 says that the cursor stays equal to `root`; that a cursor which differs from `root` stays as it
is, is the model's reading (log 15). -/
def Obligations.WalkTakesOneStep : Prop :=
  ∀ (arena : Arena) (root cur : Handle) (r : TreeNode), nodeAt arena root = some r →
    (r.leaf = false → ∀ (n m : TreeNode) (bit : Bool), nodeAt arena cur = some n →
      nodeAt arena (if bit = false then n.left else n.right) = some m →
      walk arena root cur bit =
        if m.leaf = true then some (root, some m.sym)
        else some (if bit = false then n.left else n.right, none)) ∧
    (r.leaf = true → walk arena root cur true = some (cur, some r.sym) ∧ walk arena root cur false = some (cur, none))

/-- R161, R168: under the invariant DBYTE completes for every byte: the walk of the byte's eight bits, most significant first,
gives the new cursor and the at most eight symbols emitted. -/
def Obligations.DbyteWalksEightBits : Prop :=
  ∀ (s : State) (b : Byte), Inv s → s.phase = .dec → s.err = .none → s.symSink = .accepting →
    ∃ c syms, walkSeq s.node s.root s.cur (byteBits b) = some (c, syms) ∧ syms.length ≤ 8 ∧
      exec (.dbyte b) s = .next { s with rbyte := 0, rcnt := 0, cur := c, symsOut := s.symsOut ++ syms }

/-- R165. -/
def Obligations.DendClosesTheDecode : Prop :=
  ∀ s : State, s.phase = .dec → s.err = .none → exec .dend s = .next { s with phase := .ready }

/-- R166, R167(b): the decode of the encode of a text, in a tree of two leaves at least: the text, then `floor(p/z)` copies of
the symbol `x` of the all-zeros code of length `z`, and the cursor left at depth `p mod z` of the left spine. -/
def Obligations.DecodeOfEncodeHasTheLossyTail : Prop :=
  ∀ s : State, Inv s → s.phase = .ready → s.err = .none → SinksAccept s →
    (∃ r, nodeAt s.node s.root = some r ∧ r.leaf = false) →
    ∃ x z, 1 ≤ z ∧ codeseq (codeAt s x) = List.replicate z false ∧
      ∀ ts : List Sym, (∀ y ∈ ts, (codeAt s y).len ≠ 0) →
        ∃ c, followPath s.node s.root (List.replicate (padBits (textBits s ts).length % z) false) = some c ∧
          Runs (decodeOps (payload (textBits s ts))) s
            { s with cur := c, rbyte := 0, rcnt := 0,
                     symsOut := s.symsOut ++ ts ++ List.replicate (padBits (textBits s ts).length / z) x,
                     responses := s.responses ++
                       List.replicate ((payload (textBits s ts)).length + 2) (.write .okay) }

/-- R167(a): with a lone leaf the round trip is exact. -/
def Obligations.LoneLeafRoundTripIsExact : Prop :=
  ∀ (s : State) (ts : List Sym), Inv s → s.phase = .ready → s.err = .none → SinksAccept s →
    (∃ r, nodeAt s.node s.root = some r ∧ r.leaf = true) → (∀ y ∈ ts, (codeAt s y).len ≠ 0) →
    Runs (decodeOps (payload (textBits s ts))) s
      { s with cur := s.root, rbyte := 0, rcnt := 0, symsOut := s.symsOut ++ ts,
               responses := s.responses ++ List.replicate ((payload (textBits s ts)).length + 2) (.write .okay) }

/-! ## The whole machine -/

/-- The invariants of R45 (and R26, R27, R31) hold after reset. -/
def Obligations.InvariantHoldsAtReset : Prop := Inv State.reset

/-- The invariants of R45 (and R26, R27, R31) are kept by every step, from any state that has them. -/
def Obligations.EveryStepKeepsTheInvariant : Prop := ∀ s t : State, Inv s → step s = .next t → Inv t

/-- R42: the phase changes only by the events of its table. -/
def Obligations.PhaseChangesOnlyAsListed : Prop :=
  ∀ (s t : State) (op : HostOp) (rest : List HostOp), s.hostQueue = op :: rest → step s = .next t →
    t.phase = s.phase ∨
    (t.phase = .empty ∧ (op = .rst ∨ op = .write 0 32 0x01000000)) ∨
    (s.phase = .empty ∧ t.phase = .ready ∧ t.err = .none ∧
      (op = .write 0 32 0x11000000 ∨ op = .write 0 32 0x12000000)) ∨
    (s.phase = .ready ∧ t.phase = .enc ∧ op = .write 0 32 0x20000000) ∨
    (s.phase = .ready ∧ t.phase = .dec ∧ op = .write 0 32 0x30000000) ∨
    (s.phase = .enc ∧ t.phase = .ready ∧ t.err = .unknownSymbol ∧
      ∃ x : Sym, op = .write 0 32 (0x21000000 ||| x.setWidth 32)) ∨
    (s.phase = .enc ∧ t.phase = .ready ∧ op = .write 0 32 0x22000000) ∨
    (s.phase = .dec ∧ t.phase = .ready ∧ op = .write 0 32 0x32000000)

/-- R45(b): outside EMPTY the tables do not change until the next reset or SRESET. -/
def Obligations.TreeIsImmutableOutsideEmpty : Prop :=
  ∀ s t : State, s.phase ≠ .empty → step s = .next t →
    (t.freq = s.freq ∧ t.node = s.node ∧ t.nnodes = s.nnodes ∧ t.root = s.root ∧ t.code = s.code) ∨
    ∃ rest, s.hostQueue = .rst :: rest ∨ s.hostQueue = .write 0 32 0x01000000 :: rest

/-- R76: what an output port carried stays carried, in order, whatever the step; and every access but the reset input is
answered exactly once (R61; that a step with no access waiting gives no response is the model's, log 1). -/
def Obligations.OutputsOnlyGrow : Prop :=
  ∀ s t : State, step s = .next t →
    s.bytesOut <+: t.bytesOut ∧ s.symsOut <+: t.symsOut ∧
    (match s.hostQueue with
     | [] => t.responses = s.responses
     | .rst :: _ => t.responses = s.responses
     | .read _ _ :: _ => ∃ p v, t.responses = s.responses ++ [.read p v]
     | .write _ _ _ :: _ => ∃ p, t.responses = s.responses ++ [.write p])

/-- R45, R77, R232: under the invariant and with consumers that accept, every step completes. -/
def Obligations.InvariantStatesNeverStop : Prop := ∀ s : State, Inv s → SinksAccept s → Safe (step s)

/-- R76, R226, as the model treats them (log 4): a consumer that will accept `n` more bytes lets ESYM and EEND complete when
they emit no more than that, and hangs them otherwise. -/
def Obligations.ByteConsumerThatStopsHangsTheCommand : Prop :=
  ∀ (s : State) (n : Nat), s.phase = .enc → s.err = .none → s.byteSink = .stopsAfter n →
    (∀ x : Sym, (codeAt s x).len ≠ 0 →
      if (s.wcnt.toNat + (codeAt s x).len.toNat) / 8 ≤ n then
        ∃ t, exec (.esym x) s = .next t ∧ t.phase = .enc ∧
          t.byteSink = .stopsAfter (n - (s.wcnt.toNat + (codeAt s x).len.toNat) / 8)
      else exec (.esym x) s = .fault .byteOutHangs) ∧
    (s.wcnt = 0 → exec .eend s = .next { s with wacc := 0, phase := .ready }) ∧
    (s.wcnt ≠ 0 → exec .eend s =
      if 1 ≤ n then
        .next { s with wacc := 0, wcnt := 0, phase := .ready, bytesOut := s.bytesOut ++ [s.wacc],
                       byteSink := .stopsAfter (n - 1) }
      else .fault .byteOutHangs)

/-- R161, and R76, R77 as the model treats them (log 4, 8): what DBYTE does in every state it is legal in. The walk that follows a
handle without an entry stops by name; so does a symbol the consumer never accepts; else the command completes. -/
def Obligations.DbyteCompletesOrStopsByName : Prop :=
  ∀ (s : State) (b : Byte), s.phase = .dec → s.err = .none →
    (walkSeq s.node s.root s.cur (byteBits b) = none → exec (.dbyte b) s = .fault .noSuchNode) ∧
    ∀ c syms, walkSeq s.node s.root s.cur (byteBits b) = some (c, syms) →
      (s.symSink = .accepting →
        exec (.dbyte b) s = .next { s with rbyte := 0, rcnt := 0, cur := c, symsOut := s.symsOut ++ syms }) ∧
      ∀ n, s.symSink = .stopsAfter n →
        exec (.dbyte b) s =
          if syms.length ≤ n then
            .next { s with rbyte := 0, rcnt := 0, cur := c, symsOut := s.symsOut ++ syms,
                           symSink := .stopsAfter (n - syms.length) }
          else .fault .symOutHangs
end

