-- ==== Sys2Proof/Laws/Bits.lean ====
section
/-! SUPPORT. Bits: writing one bit, a code ROM entry and its bit sequence, the bits of a byte, what the packer does with a bit
sequence, and the payload of a bit sequence. -/

namespace Sys2Proof.Machine

/-- `writeBit` changes the one bit. -/
theorem getLsbD_writeBit (v : Byte) (i j : Nat) (b : Bool) (hi : i < 8) (hj : j < 8) :
    (writeBit v i b).getLsbD j = if j = i then b else v.getLsbD j := by
  unfold writeBit
  by_cases h : j = i
  · subst h
    cases b <;> simp [hj]
  · cases b
    · simp [hj, h]
      intro _
      omega
    · simp [hj, h]
      omega

/-! ## Code ROM entries (R26, R121) -/

/-- The bits of a left-aligned sequence: `p[i]` at `pos - 1 - i`, 0 elsewhere. -/
theorem getLsbD_alignBits (pos : Nat) (p : List Bool) (hpos : pos ≤ 256) (hp : p.length ≤ pos) (j : Nat) :
    (alignBits pos p).getLsbD j = if j < pos then p.getD (pos - 1 - j) false else false := by
  induction p generalizing pos with
  | nil => simp [alignBits]
  | cons b p ih =>
    obtain ⟨pos, rfl⟩ : ∃ k, pos = k + 1 := ⟨pos - 1, by simp at hp; omega⟩
    simp only [List.length_cons] at hp
    have ih := ih pos (by omega) (by omega)
    simp only [alignBits, BitVec.getLsbD_or, ih]
    have h1 : (if b then (1 : CodeBits) <<< pos else 0).getLsbD j = (b && decide (j = pos)) := by
      cases b
      · simp
      · simp
        by_cases h : j = pos
        · subst h
          simp
          omega
        · simp [h]
          omega
    rw [h1]
    by_cases h : j = pos
    · subst h
      simp
    · by_cases h2 : j < pos
      · rw [if_pos h2, if_pos (by omega)]
        obtain ⟨k, hk⟩ : ∃ k, pos + 1 - 1 - j = k + 1 := ⟨pos - 1 - j, by omega⟩
        rw [hk, List.getD_cons_succ, show pos - 1 - j = k by omega]
        simp [h]
      · rw [if_neg h2, if_neg (by omega)]
        simp [h]

theorem entryOf_len {p : List Bool} (h : p.length ≤ 255) : (entryOf p).len.toNat = p.length := by
  simp [entryOf]
  omega

/-- The sequence of an entry is the path it was made from (R26, R121). -/
theorem codeseq_entryOf {p : List Bool} (h : p.length ≤ 255) : codeseq (entryOf p) = p := by
  unfold codeseq
  rw [entryOf_len h]
  apply List.ext_getElem
  · simp
  · intro i h1 h2
    simp only [List.getElem_map, List.getElem_range, entryOf]
    rw [getLsbD_alignBits 256 p (le_refl _) (by omega), if_pos (by omega), show 256 - 1 - (255 - i) = i by omega]
    simp [h2]

/-- An entry's bits below its code are 0 (R26). -/
theorem entryOf_aligned {p : List Bool} (h : p.length ≤ 255) {j : Nat} (hj : j < 256 - (entryOf p).len.toNat) :
    (entryOf p).bits.getLsbD j = false := by
  rw [entryOf_len h] at hj
  simp only [entryOf]
  rw [getLsbD_alignBits 256 p (le_refl _) (by omega), if_pos (by omega)]
  rw [List.getD_eq_getElem?_getD, List.getElem?_eq_none (by omega)]
  rfl

theorem codeseq_length (e : CodeEntry) : (codeseq e).length = e.len.toNat := by simp [codeseq]

theorem codeseq_eq_nil_iff (e : CodeEntry) : codeseq e = [] ↔ e.len = 0 := by
  rw [← List.length_eq_zero_iff, codeseq_length]
  constructor
  · intro h
    exact BitVec.eq_of_toNat_eq h
  · rintro h
    simp [h]

/-! ## Bytes as bit sequences (R70) -/

@[simp] theorem byteBits_length (b : Byte) : (byteBits b).length = 8 := by simp [byteBits]

theorem getElem_byteBits (b : Byte) (i : Nat) (h : i < (byteBits b).length) : (byteBits b)[i] = b.getLsbD (7 - i) := by
  simp [byteBits]

/-- A byte is its bits. -/
theorem byteBits_injective {a b : Byte} (h : byteBits a = byteBits b) : a = b := by
  apply BitVec.eq_of_getLsbD_eq
  intro i hi
  have h1 := congrArg (fun l => l[7 - i]?) h
  simp only [List.getElem?_eq_getElem (show 7 - i < (byteBits a).length by simp; omega),
    List.getElem?_eq_getElem (show 7 - i < (byteBits b).length by simp; omega), getElem_byteBits,
    show 7 - (7 - i) = i by omega, Option.some.injEq] at h1
  exact h1

/-- Byte sequences are their bits. -/
theorem flatMap_byteBits_injective {a b : List Byte} (h : a.flatMap byteBits = b.flatMap byteBits) : a = b := by
  induction a generalizing b with
  | nil =>
    cases b with
    | nil => rfl
    | cons x b =>
      have := congrArg List.length h
      simp at this
      omega
  | cons x a ih =>
    cases b with
    | nil =>
      have := congrArg List.length h
      simp at this
    | cons y b =>
      simp only [List.flatMap_cons] at h
      obtain ⟨h1, h2⟩ := List.append_inj h (by simp)
      rw [byteBits_injective h1, ih h2]

@[simp] theorem flatMap_byteBits_length (bs : List Byte) : (bs.flatMap byteBits).length = 8 * bs.length := by
  induction bs with
  | nil => rfl
  | cons b bs ih =>
    simp only [List.flatMap_cons, List.length_append, byteBits_length, ih, List.length_cons]
    omega

/-! ## The packer (R143) -/

/-- The bits a packer holds: `wcnt` of them, the first highest (R27). -/
def pending (p : Packer) : List Bool := (byteBits p.acc).take p.cnt.toNat

/-- R27: the low bits of a partial byte are 0. -/
def lowZero (p : Packer) : Prop := ∀ j, j < 8 - p.cnt.toNat → p.acc.getLsbD j = false

theorem pending_zero : pending Packer.zero = [] := rfl

theorem lowZero_zero : lowZero Packer.zero := by
  intro j _
  simp [Packer.zero]

theorem pending_length (p : Packer) : (pending p).length = p.cnt.toNat := by
  have := p.cnt.isLt
  simp [pending]
  omega

/-- One WBIT: no bit is lost, none is added. -/
theorem wbit_bits (p : Packer) (b : Bool) :
    pending p ++ [b] = (wbit p b).2.toList.flatMap byteBits ++ pending (wbit p b).1 := by
  have hlt := p.cnt.isLt
  have hacc : ∀ k, k ≤ p.cnt.toNat →
      (byteBits (writeBit p.acc (7 - p.cnt.toNat) b))[k]? =
        some (if k = p.cnt.toNat then b else p.acc.getLsbD (7 - k)) := by
    intro k hk
    rw [List.getElem?_eq_getElem (by simp; omega), getElem_byteBits, getLsbD_writeBit _ _ _ _ (by omega) (by omega)]
    by_cases h : k = p.cnt.toNat
    · simp [h]
    · rw [if_neg (by omega), if_neg h]
  have key : pending p ++ [b] = (byteBits (writeBit p.acc (7 - p.cnt.toNat) b)).take (p.cnt.toNat + 1) := by
    apply List.ext_getElem?
    intro k
    rw [List.getElem?_take]
    rcases Nat.lt_trichotomy k p.cnt.toNat with h | h | h
    · rw [List.getElem?_append_left (by rw [pending_length]; exact h), if_pos (by omega), hacc k (by omega),
        if_neg (by omega)]
      unfold pending
      rw [List.getElem?_take, if_pos h, List.getElem?_eq_getElem (by simp; omega), getElem_byteBits]
    · subst h
      rw [List.getElem?_append_right (by rw [pending_length]), if_pos (by omega), hacc _ (le_refl _), pending_length]
      simp
    · rw [List.getElem?_eq_none (by simp [pending_length]; omega), if_neg (by omega)]
  rw [key]
  unfold wbit
  by_cases h : p.cnt = 7
  · simp only [if_pos h]
    have : p.cnt.toNat = 7 := by simp [h]
    rw [this, List.take_of_length_le (by simp), pending_zero]
    simp
  · simp only [if_neg h]
    have h7 : p.cnt.toNat ≠ 7 := fun e => h (BitVec.eq_of_toNat_eq (by simpa using e))
    have : (p.cnt + 1).toNat = p.cnt.toNat + 1 := by
      rw [BitVec.toNat_add]
      simp
      omega
    simp only [pending, this]
    rfl

/-- One WBIT keeps the low bits 0. -/
theorem wbit_lowZero {p : Packer} (h : lowZero p) (b : Bool) : lowZero (wbit p b).1 := by
  have hlt := p.cnt.isLt
  unfold wbit
  by_cases h7 : p.cnt = 7
  · simp only [if_pos h7]
    exact lowZero_zero
  · simp only [if_neg h7]
    have hne : p.cnt.toNat ≠ 7 := fun e => h7 (BitVec.eq_of_toNat_eq (by simpa using e))
    have hs : (p.cnt + 1).toNat = p.cnt.toNat + 1 := by
      rw [BitVec.toNat_add]
      simp
      omega
    intro j hj
    simp only [hs] at hj
    rw [getLsbD_writeBit _ _ _ _ (by omega) (by omega), if_neg (by omega)]
    exact h j (by omega)

/-- A bit sequence through the packer: no bit is lost, none is added, and the order is kept. -/
theorem packBits_bits (p : Packer) (q : List Bool) :
    pending p ++ q = (packBits p q).2.flatMap byteBits ++ pending (packBits p q).1 := by
  induction q generalizing p with
  | nil => simp [packBits]
  | cons b q ih =>
    have h := wbit_bits p b
    have := ih (wbit p b).1
    simp only [packBits, List.flatMap_append, List.append_assoc]
    rw [← this, ← List.append_assoc, ← h]
    simp

theorem packBits_lowZero {p : Packer} (h : lowZero p) (q : List Bool) : lowZero (packBits p q).1 := by
  induction q generalizing p with
  | nil => exact h
  | cons b q ih => exact ih (wbit_lowZero h b)

/-- The numbers of bytes emitted and of bits left (R146). -/
theorem packBits_count (p : Packer) (q : List Bool) :
    (packBits p q).2.length = (p.cnt.toNat + q.length) / 8 ∧
    (packBits p q).1.cnt.toNat = (p.cnt.toNat + q.length) % 8 := by
  have h := congrArg List.length (packBits_bits p q)
  simp only [List.length_append, pending_length, flatMap_byteBits_length] at h
  have := (packBits p q).1.cnt.isLt
  omega

theorem packBits_append (p : Packer) (q r : List Bool) :
    packBits p (q ++ r) =
      ((packBits (packBits p q).1 r).1, (packBits p q).2 ++ (packBits (packBits p q).1 r).2) := by
  induction q generalizing p with
  | nil => simp [packBits]
  | cons b q ih => simp [packBits, ih]

/-! ## The payload (R98) -/

theorem getLsbD_byteOfBits (f : Nat → Bool) {j : Nat} (hj : j < 8) : (byteOfBits f).getLsbD (7 - j) = f j := by
  simp only [byteOfBits, List.range, List.range.loop, List.foldl]
  interval_cases j <;> simp (disch := omega) only [getLsbD_writeBit] <;> simp

theorem byteBits_byteOfBits (f : Nat → Bool) : byteBits (byteOfBits f) = (List.range 8).map f := by
  unfold byteBits
  apply List.map_congr_left
  intro j hj
  exact getLsbD_byteOfBits f (List.mem_range.1 hj)

/-- The bits of the payload are the bits of the sequence and then the padding zeros (R98, R146). -/
theorem payload_bits (q : List Bool) :
    (payload q).flatMap byteBits = q ++ List.replicate (padBits q.length) false := by
  have hb : (payload q).flatMap byteBits =
      (List.range ((q.length + 7) / 8)).flatMap fun k => (List.range 8).map fun j => q.getD (8 * k + j) false := by
    simp only [payload, List.flatMap_map, byteBits_byteOfBits]
  have hr : ∀ (n : Nat) (g : Nat → Bool),
      ((List.range n).flatMap fun k => (List.range 8).map fun j => g (8 * k + j)) = (List.range (8 * n)).map g := by
    intro n g
    induction n with
    | zero => rfl
    | succ n ih =>
      rw [List.range_succ (n := n), List.flatMap_append, ih, show 8 * (n + 1) = 8 * n + 8 by omega, List.range_add,
        List.map_append]
      simp [List.map_map, Function.comp_def]
  rw [hb, hr _ (fun i => q.getD i false)]
  apply List.ext_getElem
  · simp [padBits]
    omega
  · intro i h1 h2
    simp only [List.getElem_map, List.getElem_range]
    by_cases h : i < q.length
    · simp [List.getElem_append_left, h]
    · rw [List.getElem_append_right (by omega)]
      simp [List.getD_eq_getElem?_getD, h]

/-- A byte with a pending prefix and zeros below is the prefix padded with zeros (R144). -/
theorem byteBits_of_lowZero {p : Packer} (h : lowZero p) :
    byteBits p.acc = pending p ++ List.replicate (8 - p.cnt.toNat) false := by
  have hlt := p.cnt.isLt
  apply List.ext_getElem
  · simp [pending_length]
    omega
  · intro i h1 h2
    rw [getElem_byteBits]
    simp only [byteBits_length] at h1
    by_cases hi : i < p.cnt.toNat
    · rw [List.getElem_append_left (by rw [pending_length]; exact hi)]
      simp only [pending, List.getElem_take, getElem_byteBits]
    · rw [List.getElem_append_right (by rw [pending_length]; omega)]
      simp only [List.getElem_replicate]
      exact h _ (by omega)

/-- Packing a whole sequence from an empty packer and flushing gives the payload (R98, R144). -/
theorem packBits_flush (q : List Bool) :
    (packBits Packer.zero q).2 ++ flushBytes (packBits Packer.zero q).1 = payload q := by
  apply flatMap_byteBits_injective
  rw [payload_bits, List.flatMap_append]
  have hb := packBits_bits Packer.zero q
  have hc := packBits_count Packer.zero q
  rw [pending_zero, List.nil_append] at hb
  have hz := packBits_lowZero lowZero_zero q
  generalize packBits Packer.zero q = r at *
  have hcnt : r.1.cnt.toNat = q.length % 8 := by simpa [Packer.zero] using hc.2
  have hpad : padBits q.length = if r.1.cnt.toNat = 0 then 0 else 8 - r.1.cnt.toNat := by
    rw [hcnt]
    unfold padBits
    split <;> omega
  unfold flushBytes
  by_cases h0 : r.1.cnt = 0
  · have : r.1.cnt.toNat = 0 := by simp [h0]
    rw [if_pos h0, hpad, if_pos this]
    have hp : pending r.1 = [] := List.length_eq_zero_iff.1 (by rw [pending_length, this])
    rw [hp, List.append_nil] at hb
    simp [← hb]
  · have : r.1.cnt.toNat ≠ 0 := fun e => h0 (BitVec.eq_of_toNat_eq (by simpa using e))
    rw [if_neg h0, hpad, if_neg this, hb, List.append_assoc, ← byteBits_of_lowZero hz]
    simp

end Sys2Proof.Machine
end

