-- ==== Sys2Proof/Laws/State.lean ====
section
/-! SUPPORT. What each update of the state leaves in each field: one lemma a field and update, so that no later proof unfolds a
record update. -/

namespace Sys2Proof.Machine


/-! ## clearErr -/

@[simp] theorem clearErr_phase (s : State) : (clearErr s).phase = s.phase := rfl
@[simp] theorem clearErr_err (s : State) : (clearErr s).err = .none := rfl
@[simp] theorem clearErr_errinfo (s : State) : (clearErr s).errinfo = 0 := rfl
@[simp] theorem clearErr_freq (s : State) : (clearErr s).freq = s.freq := rfl
@[simp] theorem clearErr_node (s : State) : (clearErr s).node = s.node := rfl
@[simp] theorem clearErr_nnodes (s : State) : (clearErr s).nnodes = s.nnodes := rfl
@[simp] theorem clearErr_root (s : State) : (clearErr s).root = s.root := rfl
@[simp] theorem clearErr_code (s : State) : (clearErr s).code = s.code := rfl
@[simp] theorem clearErr_wacc (s : State) : (clearErr s).wacc = s.wacc := rfl
@[simp] theorem clearErr_wcnt (s : State) : (clearErr s).wcnt = s.wcnt := rfl
@[simp] theorem clearErr_rbyte (s : State) : (clearErr s).rbyte = s.rbyte := rfl
@[simp] theorem clearErr_rcnt (s : State) : (clearErr s).rcnt = s.rcnt := rfl
@[simp] theorem clearErr_cur (s : State) : (clearErr s).cur = s.cur := rfl
@[simp] theorem clearErr_pq (s : State) : (clearErr s).pq = s.pq := rfl
@[simp] theorem clearErr_seq (s : State) : (clearErr s).seq = s.seq := rfl
@[simp] theorem clearErr_tstack (s : State) : (clearErr s).tstack = s.tstack := rfl
@[simp] theorem clearErr_tpath (s : State) : (clearErr s).tpath = s.tpath := rfl
@[simp] theorem clearErr_bytesOut (s : State) : (clearErr s).bytesOut = s.bytesOut := rfl
@[simp] theorem clearErr_symsOut (s : State) : (clearErr s).symsOut = s.symsOut := rfl
@[simp] theorem clearErr_hostQueue (s : State) : (clearErr s).hostQueue = s.hostQueue := rfl
@[simp] theorem clearErr_responses (s : State) : (clearErr s).responses = s.responses := rfl
@[simp] theorem clearErr_byteSink (s : State) : (clearErr s).byteSink = s.byteSink := rfl
@[simp] theorem clearErr_symSink (s : State) : (clearErr s).symSink = s.symSink := rfl

/-! ## setFreq -/

@[simp] theorem setFreq_phase (s : State) (x : Sym) (v : Word) : (setFreq s x v).phase = s.phase := rfl
@[simp] theorem setFreq_err (s : State) (x : Sym) (v : Word) : (setFreq s x v).err = s.err := rfl
@[simp] theorem setFreq_errinfo (s : State) (x : Sym) (v : Word) : (setFreq s x v).errinfo = s.errinfo := rfl
@[simp] theorem setFreq_freq (s : State) (x : Sym) (v : Word) : (setFreq s x v).freq = s.freq.set x.toNat v x.isLt := rfl
@[simp] theorem setFreq_node (s : State) (x : Sym) (v : Word) : (setFreq s x v).node = s.node := rfl
@[simp] theorem setFreq_nnodes (s : State) (x : Sym) (v : Word) : (setFreq s x v).nnodes = s.nnodes := rfl
@[simp] theorem setFreq_root (s : State) (x : Sym) (v : Word) : (setFreq s x v).root = s.root := rfl
@[simp] theorem setFreq_code (s : State) (x : Sym) (v : Word) : (setFreq s x v).code = s.code := rfl
@[simp] theorem setFreq_wacc (s : State) (x : Sym) (v : Word) : (setFreq s x v).wacc = s.wacc := rfl
@[simp] theorem setFreq_wcnt (s : State) (x : Sym) (v : Word) : (setFreq s x v).wcnt = s.wcnt := rfl
@[simp] theorem setFreq_rbyte (s : State) (x : Sym) (v : Word) : (setFreq s x v).rbyte = s.rbyte := rfl
@[simp] theorem setFreq_rcnt (s : State) (x : Sym) (v : Word) : (setFreq s x v).rcnt = s.rcnt := rfl
@[simp] theorem setFreq_cur (s : State) (x : Sym) (v : Word) : (setFreq s x v).cur = s.cur := rfl
@[simp] theorem setFreq_pq (s : State) (x : Sym) (v : Word) : (setFreq s x v).pq = s.pq := rfl
@[simp] theorem setFreq_seq (s : State) (x : Sym) (v : Word) : (setFreq s x v).seq = s.seq := rfl
@[simp] theorem setFreq_tstack (s : State) (x : Sym) (v : Word) : (setFreq s x v).tstack = s.tstack := rfl
@[simp] theorem setFreq_tpath (s : State) (x : Sym) (v : Word) : (setFreq s x v).tpath = s.tpath := rfl
@[simp] theorem setFreq_bytesOut (s : State) (x : Sym) (v : Word) : (setFreq s x v).bytesOut = s.bytesOut := rfl
@[simp] theorem setFreq_symsOut (s : State) (x : Sym) (v : Word) : (setFreq s x v).symsOut = s.symsOut := rfl
@[simp] theorem setFreq_hostQueue (s : State) (x : Sym) (v : Word) : (setFreq s x v).hostQueue = s.hostQueue := rfl
@[simp] theorem setFreq_responses (s : State) (x : Sym) (v : Word) : (setFreq s x v).responses = s.responses := rfl
@[simp] theorem setFreq_byteSink (s : State) (x : Sym) (v : Word) : (setFreq s x v).byteSink = s.byteSink := rfl
@[simp] theorem setFreq_symSink (s : State) (x : Sym) (v : Word) : (setFreq s x v).symSink = s.symSink := rfl

/-! ## setNode -/

@[simp] theorem setNode_phase (s : State) (i : Nat) (n : TreeNode) : (setNode s i n).phase = s.phase := rfl
@[simp] theorem setNode_err (s : State) (i : Nat) (n : TreeNode) : (setNode s i n).err = s.err := rfl
@[simp] theorem setNode_errinfo (s : State) (i : Nat) (n : TreeNode) : (setNode s i n).errinfo = s.errinfo := rfl
@[simp] theorem setNode_freq (s : State) (i : Nat) (n : TreeNode) : (setNode s i n).freq = s.freq := rfl
@[simp] theorem setNode_node (s : State) (i : Nat) (n : TreeNode) : (setNode s i n).node = s.node.setIfInBounds i n := rfl
@[simp] theorem setNode_nnodes (s : State) (i : Nat) (n : TreeNode) : (setNode s i n).nnodes = s.nnodes := rfl
@[simp] theorem setNode_root (s : State) (i : Nat) (n : TreeNode) : (setNode s i n).root = s.root := rfl
@[simp] theorem setNode_code (s : State) (i : Nat) (n : TreeNode) : (setNode s i n).code = s.code := rfl
@[simp] theorem setNode_wacc (s : State) (i : Nat) (n : TreeNode) : (setNode s i n).wacc = s.wacc := rfl
@[simp] theorem setNode_wcnt (s : State) (i : Nat) (n : TreeNode) : (setNode s i n).wcnt = s.wcnt := rfl
@[simp] theorem setNode_rbyte (s : State) (i : Nat) (n : TreeNode) : (setNode s i n).rbyte = s.rbyte := rfl
@[simp] theorem setNode_rcnt (s : State) (i : Nat) (n : TreeNode) : (setNode s i n).rcnt = s.rcnt := rfl
@[simp] theorem setNode_cur (s : State) (i : Nat) (n : TreeNode) : (setNode s i n).cur = s.cur := rfl
@[simp] theorem setNode_pq (s : State) (i : Nat) (n : TreeNode) : (setNode s i n).pq = s.pq := rfl
@[simp] theorem setNode_seq (s : State) (i : Nat) (n : TreeNode) : (setNode s i n).seq = s.seq := rfl
@[simp] theorem setNode_tstack (s : State) (i : Nat) (n : TreeNode) : (setNode s i n).tstack = s.tstack := rfl
@[simp] theorem setNode_tpath (s : State) (i : Nat) (n : TreeNode) : (setNode s i n).tpath = s.tpath := rfl
@[simp] theorem setNode_bytesOut (s : State) (i : Nat) (n : TreeNode) : (setNode s i n).bytesOut = s.bytesOut := rfl
@[simp] theorem setNode_symsOut (s : State) (i : Nat) (n : TreeNode) : (setNode s i n).symsOut = s.symsOut := rfl
@[simp] theorem setNode_hostQueue (s : State) (i : Nat) (n : TreeNode) : (setNode s i n).hostQueue = s.hostQueue := rfl
@[simp] theorem setNode_responses (s : State) (i : Nat) (n : TreeNode) : (setNode s i n).responses = s.responses := rfl
@[simp] theorem setNode_byteSink (s : State) (i : Nat) (n : TreeNode) : (setNode s i n).byteSink = s.byteSink := rfl
@[simp] theorem setNode_symSink (s : State) (i : Nat) (n : TreeNode) : (setNode s i n).symSink = s.symSink := rfl

/-! ## putNode -/

@[simp] theorem putNode_phase (s : State) (h : Fin 511) (n : TreeNode) : (putNode s h n).phase = s.phase := rfl
@[simp] theorem putNode_err (s : State) (h : Fin 511) (n : TreeNode) : (putNode s h n).err = s.err := rfl
@[simp] theorem putNode_errinfo (s : State) (h : Fin 511) (n : TreeNode) : (putNode s h n).errinfo = s.errinfo := rfl
@[simp] theorem putNode_freq (s : State) (h : Fin 511) (n : TreeNode) : (putNode s h n).freq = s.freq := rfl
@[simp] theorem putNode_node (s : State) (h : Fin 511) (n : TreeNode) : (putNode s h n).node = s.node.set h.val n h.isLt := rfl
@[simp] theorem putNode_nnodes (s : State) (h : Fin 511) (n : TreeNode) : (putNode s h n).nnodes = s.nnodes := rfl
@[simp] theorem putNode_root (s : State) (h : Fin 511) (n : TreeNode) : (putNode s h n).root = s.root := rfl
@[simp] theorem putNode_code (s : State) (h : Fin 511) (n : TreeNode) : (putNode s h n).code = s.code := rfl
@[simp] theorem putNode_wacc (s : State) (h : Fin 511) (n : TreeNode) : (putNode s h n).wacc = s.wacc := rfl
@[simp] theorem putNode_wcnt (s : State) (h : Fin 511) (n : TreeNode) : (putNode s h n).wcnt = s.wcnt := rfl
@[simp] theorem putNode_rbyte (s : State) (h : Fin 511) (n : TreeNode) : (putNode s h n).rbyte = s.rbyte := rfl
@[simp] theorem putNode_rcnt (s : State) (h : Fin 511) (n : TreeNode) : (putNode s h n).rcnt = s.rcnt := rfl
@[simp] theorem putNode_cur (s : State) (h : Fin 511) (n : TreeNode) : (putNode s h n).cur = s.cur := rfl
@[simp] theorem putNode_pq (s : State) (h : Fin 511) (n : TreeNode) : (putNode s h n).pq = s.pq := rfl
@[simp] theorem putNode_seq (s : State) (h : Fin 511) (n : TreeNode) : (putNode s h n).seq = s.seq := rfl
@[simp] theorem putNode_tstack (s : State) (h : Fin 511) (n : TreeNode) : (putNode s h n).tstack = s.tstack := rfl
@[simp] theorem putNode_tpath (s : State) (h : Fin 511) (n : TreeNode) : (putNode s h n).tpath = s.tpath := rfl
@[simp] theorem putNode_bytesOut (s : State) (h : Fin 511) (n : TreeNode) : (putNode s h n).bytesOut = s.bytesOut := rfl
@[simp] theorem putNode_symsOut (s : State) (h : Fin 511) (n : TreeNode) : (putNode s h n).symsOut = s.symsOut := rfl
@[simp] theorem putNode_hostQueue (s : State) (h : Fin 511) (n : TreeNode) : (putNode s h n).hostQueue = s.hostQueue := rfl
@[simp] theorem putNode_responses (s : State) (h : Fin 511) (n : TreeNode) : (putNode s h n).responses = s.responses := rfl
@[simp] theorem putNode_byteSink (s : State) (h : Fin 511) (n : TreeNode) : (putNode s h n).byteSink = s.byteSink := rfl
@[simp] theorem putNode_symSink (s : State) (h : Fin 511) (n : TreeNode) : (putNode s h n).symSink = s.symSink := rfl

/-! ## setPacker -/

@[simp] theorem setPacker_phase (s : State) (p : Packer) : (setPacker s p).phase = s.phase := rfl
@[simp] theorem setPacker_err (s : State) (p : Packer) : (setPacker s p).err = s.err := rfl
@[simp] theorem setPacker_errinfo (s : State) (p : Packer) : (setPacker s p).errinfo = s.errinfo := rfl
@[simp] theorem setPacker_freq (s : State) (p : Packer) : (setPacker s p).freq = s.freq := rfl
@[simp] theorem setPacker_node (s : State) (p : Packer) : (setPacker s p).node = s.node := rfl
@[simp] theorem setPacker_nnodes (s : State) (p : Packer) : (setPacker s p).nnodes = s.nnodes := rfl
@[simp] theorem setPacker_root (s : State) (p : Packer) : (setPacker s p).root = s.root := rfl
@[simp] theorem setPacker_code (s : State) (p : Packer) : (setPacker s p).code = s.code := rfl
@[simp] theorem setPacker_wacc (s : State) (p : Packer) : (setPacker s p).wacc = p.acc := rfl
@[simp] theorem setPacker_wcnt (s : State) (p : Packer) : (setPacker s p).wcnt = p.cnt := rfl
@[simp] theorem setPacker_rbyte (s : State) (p : Packer) : (setPacker s p).rbyte = s.rbyte := rfl
@[simp] theorem setPacker_rcnt (s : State) (p : Packer) : (setPacker s p).rcnt = s.rcnt := rfl
@[simp] theorem setPacker_cur (s : State) (p : Packer) : (setPacker s p).cur = s.cur := rfl
@[simp] theorem setPacker_pq (s : State) (p : Packer) : (setPacker s p).pq = s.pq := rfl
@[simp] theorem setPacker_seq (s : State) (p : Packer) : (setPacker s p).seq = s.seq := rfl
@[simp] theorem setPacker_tstack (s : State) (p : Packer) : (setPacker s p).tstack = s.tstack := rfl
@[simp] theorem setPacker_tpath (s : State) (p : Packer) : (setPacker s p).tpath = s.tpath := rfl
@[simp] theorem setPacker_bytesOut (s : State) (p : Packer) : (setPacker s p).bytesOut = s.bytesOut := rfl
@[simp] theorem setPacker_symsOut (s : State) (p : Packer) : (setPacker s p).symsOut = s.symsOut := rfl
@[simp] theorem setPacker_hostQueue (s : State) (p : Packer) : (setPacker s p).hostQueue = s.hostQueue := rfl
@[simp] theorem setPacker_responses (s : State) (p : Packer) : (setPacker s p).responses = s.responses := rfl
@[simp] theorem setPacker_byteSink (s : State) (p : Packer) : (setPacker s p).byteSink = s.byteSink := rfl
@[simp] theorem setPacker_symSink (s : State) (p : Packer) : (setPacker s p).symSink = s.symSink := rfl

/-! ## setReader -/

@[simp] theorem setReader_phase (s : State) (r : Reader) : (setReader s r).phase = s.phase := rfl
@[simp] theorem setReader_err (s : State) (r : Reader) : (setReader s r).err = s.err := rfl
@[simp] theorem setReader_errinfo (s : State) (r : Reader) : (setReader s r).errinfo = s.errinfo := rfl
@[simp] theorem setReader_freq (s : State) (r : Reader) : (setReader s r).freq = s.freq := rfl
@[simp] theorem setReader_node (s : State) (r : Reader) : (setReader s r).node = s.node := rfl
@[simp] theorem setReader_nnodes (s : State) (r : Reader) : (setReader s r).nnodes = s.nnodes := rfl
@[simp] theorem setReader_root (s : State) (r : Reader) : (setReader s r).root = s.root := rfl
@[simp] theorem setReader_code (s : State) (r : Reader) : (setReader s r).code = s.code := rfl
@[simp] theorem setReader_wacc (s : State) (r : Reader) : (setReader s r).wacc = s.wacc := rfl
@[simp] theorem setReader_wcnt (s : State) (r : Reader) : (setReader s r).wcnt = s.wcnt := rfl
@[simp] theorem setReader_rbyte (s : State) (r : Reader) : (setReader s r).rbyte = r.byte := rfl
@[simp] theorem setReader_rcnt (s : State) (r : Reader) : (setReader s r).rcnt = r.cnt := rfl
@[simp] theorem setReader_cur (s : State) (r : Reader) : (setReader s r).cur = r.cur := rfl
@[simp] theorem setReader_pq (s : State) (r : Reader) : (setReader s r).pq = s.pq := rfl
@[simp] theorem setReader_seq (s : State) (r : Reader) : (setReader s r).seq = s.seq := rfl
@[simp] theorem setReader_tstack (s : State) (r : Reader) : (setReader s r).tstack = s.tstack := rfl
@[simp] theorem setReader_tpath (s : State) (r : Reader) : (setReader s r).tpath = s.tpath := rfl
@[simp] theorem setReader_bytesOut (s : State) (r : Reader) : (setReader s r).bytesOut = s.bytesOut := rfl
@[simp] theorem setReader_symsOut (s : State) (r : Reader) : (setReader s r).symsOut = s.symsOut := rfl
@[simp] theorem setReader_hostQueue (s : State) (r : Reader) : (setReader s r).hostQueue = s.hostQueue := rfl
@[simp] theorem setReader_responses (s : State) (r : Reader) : (setReader s r).responses = s.responses := rfl
@[simp] theorem setReader_byteSink (s : State) (r : Reader) : (setReader s r).byteSink = s.byteSink := rfl
@[simp] theorem setReader_symSink (s : State) (r : Reader) : (setReader s r).symSink = s.symSink := rfl

/-! ## buildStart -/

@[simp] theorem buildStart_phase (s : State) : (buildStart s).phase = s.phase := rfl
@[simp] theorem buildStart_err (s : State) : (buildStart s).err = s.err := rfl
@[simp] theorem buildStart_errinfo (s : State) : (buildStart s).errinfo = s.errinfo := rfl
@[simp] theorem buildStart_freq (s : State) : (buildStart s).freq = s.freq := rfl
@[simp] theorem buildStart_node (s : State) : (buildStart s).node = s.node := rfl
@[simp] theorem buildStart_nnodes (s : State) : (buildStart s).nnodes = 0 := rfl
@[simp] theorem buildStart_root (s : State) : (buildStart s).root = s.root := rfl
@[simp] theorem buildStart_code (s : State) : (buildStart s).code = s.code := rfl
@[simp] theorem buildStart_wacc (s : State) : (buildStart s).wacc = s.wacc := rfl
@[simp] theorem buildStart_wcnt (s : State) : (buildStart s).wcnt = s.wcnt := rfl
@[simp] theorem buildStart_rbyte (s : State) : (buildStart s).rbyte = s.rbyte := rfl
@[simp] theorem buildStart_rcnt (s : State) : (buildStart s).rcnt = s.rcnt := rfl
@[simp] theorem buildStart_cur (s : State) : (buildStart s).cur = s.cur := rfl
@[simp] theorem buildStart_pq (s : State) : (buildStart s).pq = s.pq.map fun e => { e with valid := false } := rfl
@[simp] theorem buildStart_seq (s : State) : (buildStart s).seq = 0 := rfl
@[simp] theorem buildStart_tstack (s : State) : (buildStart s).tstack = s.tstack := rfl
@[simp] theorem buildStart_tpath (s : State) : (buildStart s).tpath = s.tpath := rfl
@[simp] theorem buildStart_bytesOut (s : State) : (buildStart s).bytesOut = s.bytesOut := rfl
@[simp] theorem buildStart_symsOut (s : State) : (buildStart s).symsOut = s.symsOut := rfl
@[simp] theorem buildStart_hostQueue (s : State) : (buildStart s).hostQueue = s.hostQueue := rfl
@[simp] theorem buildStart_responses (s : State) : (buildStart s).responses = s.responses := rfl
@[simp] theorem buildStart_byteSink (s : State) : (buildStart s).byteSink = s.byteSink := rfl
@[simp] theorem buildStart_symSink (s : State) : (buildStart s).symSink = s.symSink := rfl

/-! ## acceptTree -/

@[simp] theorem acceptTree_phase (s : State) : (acceptTree s).phase = .ready := rfl
@[simp] theorem acceptTree_err (s : State) : (acceptTree s).err = s.err := rfl
@[simp] theorem acceptTree_errinfo (s : State) : (acceptTree s).errinfo = s.errinfo := rfl
@[simp] theorem acceptTree_freq (s : State) : (acceptTree s).freq = s.freq := rfl
@[simp] theorem acceptTree_node (s : State) : (acceptTree s).node = s.node := rfl
@[simp] theorem acceptTree_nnodes (s : State) : (acceptTree s).nnodes = s.nnodes := rfl
@[simp] theorem acceptTree_root (s : State) : (acceptTree s).root = s.root := rfl
@[simp] theorem acceptTree_code (s : State) : (acceptTree s).code = genCodes s.root s.node := rfl
@[simp] theorem acceptTree_wacc (s : State) : (acceptTree s).wacc = s.wacc := rfl
@[simp] theorem acceptTree_wcnt (s : State) : (acceptTree s).wcnt = s.wcnt := rfl
@[simp] theorem acceptTree_rbyte (s : State) : (acceptTree s).rbyte = s.rbyte := rfl
@[simp] theorem acceptTree_rcnt (s : State) : (acceptTree s).rcnt = s.rcnt := rfl
@[simp] theorem acceptTree_cur (s : State) : (acceptTree s).cur = s.cur := rfl
@[simp] theorem acceptTree_pq (s : State) : (acceptTree s).pq = s.pq := rfl
@[simp] theorem acceptTree_seq (s : State) : (acceptTree s).seq = s.seq := rfl
@[simp] theorem acceptTree_tstack (s : State) : (acceptTree s).tstack = [] := rfl
@[simp] theorem acceptTree_tpath (s : State) : (acceptTree s).tpath = [] := rfl
@[simp] theorem acceptTree_bytesOut (s : State) : (acceptTree s).bytesOut = s.bytesOut := rfl
@[simp] theorem acceptTree_symsOut (s : State) : (acceptTree s).symsOut = s.symsOut := rfl
@[simp] theorem acceptTree_hostQueue (s : State) : (acceptTree s).hostQueue = s.hostQueue := rfl
@[simp] theorem acceptTree_responses (s : State) : (acceptTree s).responses = s.responses := rfl
@[simp] theorem acceptTree_byteSink (s : State) : (acceptTree s).byteSink = s.byteSink := rfl
@[simp] theorem acceptTree_symSink (s : State) : (acceptTree s).symSink = s.symSink := rfl

/-! ## respond -/

@[simp] theorem respond_phase (r : BusResponse) (s : State) : (respond r s).phase = s.phase := rfl
@[simp] theorem respond_err (r : BusResponse) (s : State) : (respond r s).err = s.err := rfl
@[simp] theorem respond_errinfo (r : BusResponse) (s : State) : (respond r s).errinfo = s.errinfo := rfl
@[simp] theorem respond_freq (r : BusResponse) (s : State) : (respond r s).freq = s.freq := rfl
@[simp] theorem respond_node (r : BusResponse) (s : State) : (respond r s).node = s.node := rfl
@[simp] theorem respond_nnodes (r : BusResponse) (s : State) : (respond r s).nnodes = s.nnodes := rfl
@[simp] theorem respond_root (r : BusResponse) (s : State) : (respond r s).root = s.root := rfl
@[simp] theorem respond_code (r : BusResponse) (s : State) : (respond r s).code = s.code := rfl
@[simp] theorem respond_wacc (r : BusResponse) (s : State) : (respond r s).wacc = s.wacc := rfl
@[simp] theorem respond_wcnt (r : BusResponse) (s : State) : (respond r s).wcnt = s.wcnt := rfl
@[simp] theorem respond_rbyte (r : BusResponse) (s : State) : (respond r s).rbyte = s.rbyte := rfl
@[simp] theorem respond_rcnt (r : BusResponse) (s : State) : (respond r s).rcnt = s.rcnt := rfl
@[simp] theorem respond_cur (r : BusResponse) (s : State) : (respond r s).cur = s.cur := rfl
@[simp] theorem respond_pq (r : BusResponse) (s : State) : (respond r s).pq = s.pq := rfl
@[simp] theorem respond_seq (r : BusResponse) (s : State) : (respond r s).seq = s.seq := rfl
@[simp] theorem respond_tstack (r : BusResponse) (s : State) : (respond r s).tstack = s.tstack := rfl
@[simp] theorem respond_tpath (r : BusResponse) (s : State) : (respond r s).tpath = s.tpath := rfl
@[simp] theorem respond_bytesOut (r : BusResponse) (s : State) : (respond r s).bytesOut = s.bytesOut := rfl
@[simp] theorem respond_symsOut (r : BusResponse) (s : State) : (respond r s).symsOut = s.symsOut := rfl
@[simp] theorem respond_hostQueue (r : BusResponse) (s : State) : (respond r s).hostQueue = s.hostQueue := rfl
@[simp] theorem respond_responses (r : BusResponse) (s : State) : (respond r s).responses = s.responses ++ [r] := rfl
@[simp] theorem respond_byteSink (r : BusResponse) (s : State) : (respond r s).byteSink = s.byteSink := rfl
@[simp] theorem respond_symSink (r : BusResponse) (s : State) : (respond r s).symSink = s.symSink := rfl

/-! ## enqueueFirst -/

@[simp] theorem enqueueFirst_phase (op : HostOp) (s : State) : (enqueueFirst op s).phase = s.phase := rfl
@[simp] theorem enqueueFirst_err (op : HostOp) (s : State) : (enqueueFirst op s).err = s.err := rfl
@[simp] theorem enqueueFirst_errinfo (op : HostOp) (s : State) : (enqueueFirst op s).errinfo = s.errinfo := rfl
@[simp] theorem enqueueFirst_freq (op : HostOp) (s : State) : (enqueueFirst op s).freq = s.freq := rfl
@[simp] theorem enqueueFirst_node (op : HostOp) (s : State) : (enqueueFirst op s).node = s.node := rfl
@[simp] theorem enqueueFirst_nnodes (op : HostOp) (s : State) : (enqueueFirst op s).nnodes = s.nnodes := rfl
@[simp] theorem enqueueFirst_root (op : HostOp) (s : State) : (enqueueFirst op s).root = s.root := rfl
@[simp] theorem enqueueFirst_code (op : HostOp) (s : State) : (enqueueFirst op s).code = s.code := rfl
@[simp] theorem enqueueFirst_wacc (op : HostOp) (s : State) : (enqueueFirst op s).wacc = s.wacc := rfl
@[simp] theorem enqueueFirst_wcnt (op : HostOp) (s : State) : (enqueueFirst op s).wcnt = s.wcnt := rfl
@[simp] theorem enqueueFirst_rbyte (op : HostOp) (s : State) : (enqueueFirst op s).rbyte = s.rbyte := rfl
@[simp] theorem enqueueFirst_rcnt (op : HostOp) (s : State) : (enqueueFirst op s).rcnt = s.rcnt := rfl
@[simp] theorem enqueueFirst_cur (op : HostOp) (s : State) : (enqueueFirst op s).cur = s.cur := rfl
@[simp] theorem enqueueFirst_pq (op : HostOp) (s : State) : (enqueueFirst op s).pq = s.pq := rfl
@[simp] theorem enqueueFirst_seq (op : HostOp) (s : State) : (enqueueFirst op s).seq = s.seq := rfl
@[simp] theorem enqueueFirst_tstack (op : HostOp) (s : State) : (enqueueFirst op s).tstack = s.tstack := rfl
@[simp] theorem enqueueFirst_tpath (op : HostOp) (s : State) : (enqueueFirst op s).tpath = s.tpath := rfl
@[simp] theorem enqueueFirst_bytesOut (op : HostOp) (s : State) : (enqueueFirst op s).bytesOut = s.bytesOut := rfl
@[simp] theorem enqueueFirst_symsOut (op : HostOp) (s : State) : (enqueueFirst op s).symsOut = s.symsOut := rfl
@[simp] theorem enqueueFirst_hostQueue (op : HostOp) (s : State) : (enqueueFirst op s).hostQueue = op :: s.hostQueue := rfl
@[simp] theorem enqueueFirst_responses (op : HostOp) (s : State) : (enqueueFirst op s).responses = s.responses := rfl
@[simp] theorem enqueueFirst_byteSink (op : HostOp) (s : State) : (enqueueFirst op s).byteSink = s.byteSink := rfl
@[simp] theorem enqueueFirst_symSink (op : HostOp) (s : State) : (enqueueFirst op s).symSink = s.symSink := rfl

/-! ## hardReset -/

@[simp] theorem hardReset_phase (s : State) : (hardReset s).phase = State.reset.phase := rfl
@[simp] theorem hardReset_err (s : State) : (hardReset s).err = State.reset.err := rfl
@[simp] theorem hardReset_errinfo (s : State) : (hardReset s).errinfo = State.reset.errinfo := rfl
@[simp] theorem hardReset_freq (s : State) : (hardReset s).freq = State.reset.freq := rfl
@[simp] theorem hardReset_node (s : State) : (hardReset s).node = State.reset.node := rfl
@[simp] theorem hardReset_nnodes (s : State) : (hardReset s).nnodes = State.reset.nnodes := rfl
@[simp] theorem hardReset_root (s : State) : (hardReset s).root = State.reset.root := rfl
@[simp] theorem hardReset_code (s : State) : (hardReset s).code = State.reset.code := rfl
@[simp] theorem hardReset_wacc (s : State) : (hardReset s).wacc = State.reset.wacc := rfl
@[simp] theorem hardReset_wcnt (s : State) : (hardReset s).wcnt = State.reset.wcnt := rfl
@[simp] theorem hardReset_rbyte (s : State) : (hardReset s).rbyte = State.reset.rbyte := rfl
@[simp] theorem hardReset_rcnt (s : State) : (hardReset s).rcnt = State.reset.rcnt := rfl
@[simp] theorem hardReset_cur (s : State) : (hardReset s).cur = State.reset.cur := rfl
@[simp] theorem hardReset_pq (s : State) : (hardReset s).pq = State.reset.pq := rfl
@[simp] theorem hardReset_seq (s : State) : (hardReset s).seq = State.reset.seq := rfl
@[simp] theorem hardReset_tstack (s : State) : (hardReset s).tstack = State.reset.tstack := rfl
@[simp] theorem hardReset_tpath (s : State) : (hardReset s).tpath = State.reset.tpath := rfl
@[simp] theorem hardReset_bytesOut (s : State) : (hardReset s).bytesOut = s.bytesOut := rfl
@[simp] theorem hardReset_symsOut (s : State) : (hardReset s).symsOut = s.symsOut := rfl
@[simp] theorem hardReset_hostQueue (s : State) : (hardReset s).hostQueue = s.hostQueue := rfl
@[simp] theorem hardReset_responses (s : State) : (hardReset s).responses = s.responses := rfl
@[simp] theorem hardReset_byteSink (s : State) : (hardReset s).byteSink = s.byteSink := rfl
@[simp] theorem hardReset_symSink (s : State) : (hardReset s).symSink = s.symSink := rfl

/-! ## setErr -/

@[simp] theorem setErr_phase (e : Err) (info : Word) (s : State) : (setErr e info s).phase = s.phase := by unfold setErr; split <;> rfl
@[simp] theorem setErr_freq (e : Err) (info : Word) (s : State) : (setErr e info s).freq = s.freq := by unfold setErr; split <;> rfl
@[simp] theorem setErr_node (e : Err) (info : Word) (s : State) : (setErr e info s).node = s.node := by unfold setErr; split <;> rfl
@[simp] theorem setErr_nnodes (e : Err) (info : Word) (s : State) : (setErr e info s).nnodes = s.nnodes := by unfold setErr; split <;> rfl
@[simp] theorem setErr_root (e : Err) (info : Word) (s : State) : (setErr e info s).root = s.root := by unfold setErr; split <;> rfl
@[simp] theorem setErr_code (e : Err) (info : Word) (s : State) : (setErr e info s).code = s.code := by unfold setErr; split <;> rfl
@[simp] theorem setErr_wacc (e : Err) (info : Word) (s : State) : (setErr e info s).wacc = s.wacc := by unfold setErr; split <;> rfl
@[simp] theorem setErr_wcnt (e : Err) (info : Word) (s : State) : (setErr e info s).wcnt = s.wcnt := by unfold setErr; split <;> rfl
@[simp] theorem setErr_rbyte (e : Err) (info : Word) (s : State) : (setErr e info s).rbyte = s.rbyte := by unfold setErr; split <;> rfl
@[simp] theorem setErr_rcnt (e : Err) (info : Word) (s : State) : (setErr e info s).rcnt = s.rcnt := by unfold setErr; split <;> rfl
@[simp] theorem setErr_cur (e : Err) (info : Word) (s : State) : (setErr e info s).cur = s.cur := by unfold setErr; split <;> rfl
@[simp] theorem setErr_pq (e : Err) (info : Word) (s : State) : (setErr e info s).pq = s.pq := by unfold setErr; split <;> rfl
@[simp] theorem setErr_seq (e : Err) (info : Word) (s : State) : (setErr e info s).seq = s.seq := by unfold setErr; split <;> rfl
@[simp] theorem setErr_tstack (e : Err) (info : Word) (s : State) : (setErr e info s).tstack = s.tstack := by unfold setErr; split <;> rfl
@[simp] theorem setErr_tpath (e : Err) (info : Word) (s : State) : (setErr e info s).tpath = s.tpath := by unfold setErr; split <;> rfl
@[simp] theorem setErr_bytesOut (e : Err) (info : Word) (s : State) : (setErr e info s).bytesOut = s.bytesOut := by unfold setErr; split <;> rfl
@[simp] theorem setErr_symsOut (e : Err) (info : Word) (s : State) : (setErr e info s).symsOut = s.symsOut := by unfold setErr; split <;> rfl
@[simp] theorem setErr_hostQueue (e : Err) (info : Word) (s : State) : (setErr e info s).hostQueue = s.hostQueue := by unfold setErr; split <;> rfl
@[simp] theorem setErr_responses (e : Err) (info : Word) (s : State) : (setErr e info s).responses = s.responses := by unfold setErr; split <;> rfl
@[simp] theorem setErr_byteSink (e : Err) (info : Word) (s : State) : (setErr e info s).byteSink = s.byteSink := by unfold setErr; split <;> rfl
@[simp] theorem setErr_symSink (e : Err) (info : Word) (s : State) : (setErr e info s).symSink = s.symSink := by unfold setErr; split <;> rfl

/-! ## pqInsert -/

@[simp] theorem pqInsert_phase (h : Handle) (w : Word) (s : State) : (pqInsert h w s).phase = s.phase := by unfold pqInsert; split <;> rfl
@[simp] theorem pqInsert_err (h : Handle) (w : Word) (s : State) : (pqInsert h w s).err = s.err := by unfold pqInsert; split <;> rfl
@[simp] theorem pqInsert_errinfo (h : Handle) (w : Word) (s : State) : (pqInsert h w s).errinfo = s.errinfo := by unfold pqInsert; split <;> rfl
@[simp] theorem pqInsert_freq (h : Handle) (w : Word) (s : State) : (pqInsert h w s).freq = s.freq := by unfold pqInsert; split <;> rfl
@[simp] theorem pqInsert_node (h : Handle) (w : Word) (s : State) : (pqInsert h w s).node = s.node := by unfold pqInsert; split <;> rfl
@[simp] theorem pqInsert_nnodes (h : Handle) (w : Word) (s : State) : (pqInsert h w s).nnodes = s.nnodes := by unfold pqInsert; split <;> rfl
@[simp] theorem pqInsert_root (h : Handle) (w : Word) (s : State) : (pqInsert h w s).root = s.root := by unfold pqInsert; split <;> rfl
@[simp] theorem pqInsert_code (h : Handle) (w : Word) (s : State) : (pqInsert h w s).code = s.code := by unfold pqInsert; split <;> rfl
@[simp] theorem pqInsert_wacc (h : Handle) (w : Word) (s : State) : (pqInsert h w s).wacc = s.wacc := by unfold pqInsert; split <;> rfl
@[simp] theorem pqInsert_wcnt (h : Handle) (w : Word) (s : State) : (pqInsert h w s).wcnt = s.wcnt := by unfold pqInsert; split <;> rfl
@[simp] theorem pqInsert_rbyte (h : Handle) (w : Word) (s : State) : (pqInsert h w s).rbyte = s.rbyte := by unfold pqInsert; split <;> rfl
@[simp] theorem pqInsert_rcnt (h : Handle) (w : Word) (s : State) : (pqInsert h w s).rcnt = s.rcnt := by unfold pqInsert; split <;> rfl
@[simp] theorem pqInsert_cur (h : Handle) (w : Word) (s : State) : (pqInsert h w s).cur = s.cur := by unfold pqInsert; split <;> rfl
@[simp] theorem pqInsert_tstack (h : Handle) (w : Word) (s : State) : (pqInsert h w s).tstack = s.tstack := by unfold pqInsert; split <;> rfl
@[simp] theorem pqInsert_tpath (h : Handle) (w : Word) (s : State) : (pqInsert h w s).tpath = s.tpath := by unfold pqInsert; split <;> rfl
@[simp] theorem pqInsert_bytesOut (h : Handle) (w : Word) (s : State) : (pqInsert h w s).bytesOut = s.bytesOut := by unfold pqInsert; split <;> rfl
@[simp] theorem pqInsert_symsOut (h : Handle) (w : Word) (s : State) : (pqInsert h w s).symsOut = s.symsOut := by unfold pqInsert; split <;> rfl
@[simp] theorem pqInsert_hostQueue (h : Handle) (w : Word) (s : State) : (pqInsert h w s).hostQueue = s.hostQueue := by unfold pqInsert; split <;> rfl
@[simp] theorem pqInsert_responses (h : Handle) (w : Word) (s : State) : (pqInsert h w s).responses = s.responses := by unfold pqInsert; split <;> rfl
@[simp] theorem pqInsert_byteSink (h : Handle) (w : Word) (s : State) : (pqInsert h w s).byteSink = s.byteSink := by unfold pqInsert; split <;> rfl
@[simp] theorem pqInsert_symSink (h : Handle) (w : Word) (s : State) : (pqInsert h w s).symSink = s.symSink := by unfold pqInsert; split <;> rfl

/-! ## pqRemoveMin -/

@[simp] theorem pqRemoveMin_phase (s : State) : (pqRemoveMin s).2.phase = s.phase := by unfold pqRemoveMin; split <;> rfl
@[simp] theorem pqRemoveMin_err (s : State) : (pqRemoveMin s).2.err = s.err := by unfold pqRemoveMin; split <;> rfl
@[simp] theorem pqRemoveMin_errinfo (s : State) : (pqRemoveMin s).2.errinfo = s.errinfo := by unfold pqRemoveMin; split <;> rfl
@[simp] theorem pqRemoveMin_freq (s : State) : (pqRemoveMin s).2.freq = s.freq := by unfold pqRemoveMin; split <;> rfl
@[simp] theorem pqRemoveMin_node (s : State) : (pqRemoveMin s).2.node = s.node := by unfold pqRemoveMin; split <;> rfl
@[simp] theorem pqRemoveMin_nnodes (s : State) : (pqRemoveMin s).2.nnodes = s.nnodes := by unfold pqRemoveMin; split <;> rfl
@[simp] theorem pqRemoveMin_root (s : State) : (pqRemoveMin s).2.root = s.root := by unfold pqRemoveMin; split <;> rfl
@[simp] theorem pqRemoveMin_code (s : State) : (pqRemoveMin s).2.code = s.code := by unfold pqRemoveMin; split <;> rfl
@[simp] theorem pqRemoveMin_wacc (s : State) : (pqRemoveMin s).2.wacc = s.wacc := by unfold pqRemoveMin; split <;> rfl
@[simp] theorem pqRemoveMin_wcnt (s : State) : (pqRemoveMin s).2.wcnt = s.wcnt := by unfold pqRemoveMin; split <;> rfl
@[simp] theorem pqRemoveMin_rbyte (s : State) : (pqRemoveMin s).2.rbyte = s.rbyte := by unfold pqRemoveMin; split <;> rfl
@[simp] theorem pqRemoveMin_rcnt (s : State) : (pqRemoveMin s).2.rcnt = s.rcnt := by unfold pqRemoveMin; split <;> rfl
@[simp] theorem pqRemoveMin_cur (s : State) : (pqRemoveMin s).2.cur = s.cur := by unfold pqRemoveMin; split <;> rfl
@[simp] theorem pqRemoveMin_seq (s : State) : (pqRemoveMin s).2.seq = s.seq := by unfold pqRemoveMin; split <;> rfl
@[simp] theorem pqRemoveMin_tstack (s : State) : (pqRemoveMin s).2.tstack = s.tstack := by unfold pqRemoveMin; split <;> rfl
@[simp] theorem pqRemoveMin_tpath (s : State) : (pqRemoveMin s).2.tpath = s.tpath := by unfold pqRemoveMin; split <;> rfl
@[simp] theorem pqRemoveMin_bytesOut (s : State) : (pqRemoveMin s).2.bytesOut = s.bytesOut := by unfold pqRemoveMin; split <;> rfl
@[simp] theorem pqRemoveMin_symsOut (s : State) : (pqRemoveMin s).2.symsOut = s.symsOut := by unfold pqRemoveMin; split <;> rfl
@[simp] theorem pqRemoveMin_hostQueue (s : State) : (pqRemoveMin s).2.hostQueue = s.hostQueue := by unfold pqRemoveMin; split <;> rfl
@[simp] theorem pqRemoveMin_responses (s : State) : (pqRemoveMin s).2.responses = s.responses := by unfold pqRemoveMin; split <;> rfl
@[simp] theorem pqRemoveMin_byteSink (s : State) : (pqRemoveMin s).2.byteSink = s.byteSink := by unfold pqRemoveMin; split <;> rfl
@[simp] theorem pqRemoveMin_symSink (s : State) : (pqRemoveMin s).2.symSink = s.symSink := by unfold pqRemoveMin; split <;> rfl

/-! ## addNode -/

@[simp] theorem addNode_phase (n : TreeNode) (s : State) : (addNode n s).phase = s.phase := by simp [addNode]
@[simp] theorem addNode_err (n : TreeNode) (s : State) : (addNode n s).err = s.err := by simp [addNode]
@[simp] theorem addNode_errinfo (n : TreeNode) (s : State) : (addNode n s).errinfo = s.errinfo := by simp [addNode]
@[simp] theorem addNode_freq (n : TreeNode) (s : State) : (addNode n s).freq = s.freq := by simp [addNode]
@[simp] theorem addNode_root (n : TreeNode) (s : State) : (addNode n s).root = s.root := by simp [addNode]
@[simp] theorem addNode_code (n : TreeNode) (s : State) : (addNode n s).code = s.code := by simp [addNode]
@[simp] theorem addNode_wacc (n : TreeNode) (s : State) : (addNode n s).wacc = s.wacc := by simp [addNode]
@[simp] theorem addNode_wcnt (n : TreeNode) (s : State) : (addNode n s).wcnt = s.wcnt := by simp [addNode]
@[simp] theorem addNode_rbyte (n : TreeNode) (s : State) : (addNode n s).rbyte = s.rbyte := by simp [addNode]
@[simp] theorem addNode_rcnt (n : TreeNode) (s : State) : (addNode n s).rcnt = s.rcnt := by simp [addNode]
@[simp] theorem addNode_cur (n : TreeNode) (s : State) : (addNode n s).cur = s.cur := by simp [addNode]
@[simp] theorem addNode_tstack (n : TreeNode) (s : State) : (addNode n s).tstack = s.tstack := by simp [addNode]
@[simp] theorem addNode_tpath (n : TreeNode) (s : State) : (addNode n s).tpath = s.tpath := by simp [addNode]
@[simp] theorem addNode_bytesOut (n : TreeNode) (s : State) : (addNode n s).bytesOut = s.bytesOut := by simp [addNode]
@[simp] theorem addNode_symsOut (n : TreeNode) (s : State) : (addNode n s).symsOut = s.symsOut := by simp [addNode]
@[simp] theorem addNode_hostQueue (n : TreeNode) (s : State) : (addNode n s).hostQueue = s.hostQueue := by simp [addNode]
@[simp] theorem addNode_responses (n : TreeNode) (s : State) : (addNode n s).responses = s.responses := by simp [addNode]
@[simp] theorem addNode_byteSink (n : TreeNode) (s : State) : (addNode n s).byteSink = s.byteSink := by simp [addNode]
@[simp] theorem addNode_symSink (n : TreeNode) (s : State) : (addNode n s).symSink = s.symSink := by simp [addNode]

end Sys2Proof.Machine
end

