-- ==== Sys2Proof/Laws/Ops.lean ====
section
/-! SUPPORT. One lemma a shared operation that says once everything it can do: the checks before a command's own rule, taking an
error, the output ports; and the first laws of the tables. -/

namespace Sys2Proof.Machine

/-! ## Taking an error -/

/-- With a clear latch `raise` latches the error and makes R199's phase change, and that is all. -/
theorem raise_of_clear {e : Err} {info : Word} {s : State} (h : s.err = .none) :
    raise e info s = .next { s with err := e, errinfo := info, phase := phaseAfter e s.phase } := by
  simp [raise, setErr, h]

/-- With an error latched `raise` keeps it (R198). -/
theorem raise_of_latched {e : Err} {info : Word} {s : State} (h : s.err ≠ .none) :
    raise e info s = .next { s with phase := phaseAfter e s.phase } := by
  simp [raise, setErr, h]

theorem phaseAfter_of_ne {e : Err} (h : e ≠ .unknownSymbol) (p : Phase) : phaseAfter e p = p := by
  cases e <;> simp_all [phaseAfter]

/-- `raise` always goes on. -/
theorem raise_next (e : Err) (info : Word) (s : State) : ∃ t, raise e info s = .next t := ⟨_, rfl⟩

/-! ## The checks before a command's own rule (R103) -/

/-- Everything `dispatchChecks` can do: reject, raise ILLEGAL_CMD, or run the command's own rule with the checks passed. -/
theorem dispatchChecks_cases (i : Instr) (s : State) (own : State → Answer) :
    (s.err ≠ .none ∧ passesLatch i.opcode = false ∧ dispatchChecks i s own = .next s) ∨
    ((s.err = .none ∨ passesLatch i.opcode = true) ∧ legalIn i s.phase = false ∧
      dispatchChecks i s own = raise .illegalCmd (encode i) s) ∨
    ((s.err = .none ∨ passesLatch i.opcode = true) ∧ legalIn i s.phase = true ∧ dispatchChecks i s own = own s) := by
  unfold dispatchChecks
  split
  · rename_i h
    exact .inl ⟨h.1, h.2, rfl⟩
  · rename_i h
    have h' : s.err = .none ∨ passesLatch i.opcode = true := by
      by_cases he : s.err = .none
      · exact .inl he
      · exact .inr (by simpa [he] using h)
    split
    · exact .inr (.inr ⟨h', ‹_›, rfl⟩)
    · rename_i hl
      exact .inr (.inl ⟨h', by simpa using hl, rfl⟩)

/-- With a clear latch and in a legal phase the command's own rule runs. -/
theorem dispatchChecks_own {i : Instr} {s : State} {own : State → Answer} (he : s.err = .none)
    (hp : legalIn i s.phase = true) : dispatchChecks i s own = own s := by
  simp [dispatchChecks, he, hp]

/-- With a clear latch and in an illegal phase ILLEGAL_CMD is latched, and nothing else changes (R97). -/
theorem dispatchChecks_illegal {i : Instr} {s : State} {own : State → Answer} (he : s.err = .none)
    (hp : legalIn i s.phase = false) :
    dispatchChecks i s own = .next { s with err := .illegalCmd, errinfo := encode i } := by
  simp [dispatchChecks, he, hp, raise_of_clear he, phaseAfter]

/-- With an error latched every command but SRESET and CLRERR is rejected (R200). -/
theorem dispatchChecks_rejected {i : Instr} {s : State} {own : State → Answer} (he : s.err ≠ .none)
    (hp : passesLatch i.opcode = false) : dispatchChecks i s own = .next s := by
  simp [dispatchChecks, he, hp]

/-! ## Output ports -/

@[simp] theorem accept_accepting (n : Nat) : Sink.accept n .accepting = some .accepting := rfl

/-- Everything `emitBytes` can do. -/
theorem emitBytes_cases (bs : List Byte) (s : State) :
    (∃ k, s.byteSink.accept bs.length = some k ∧
      emitBytes bs s = .next { s with bytesOut := s.bytesOut ++ bs, byteSink := k }) ∨
    (s.byteSink.accept bs.length = none ∧ emitBytes bs s = .fault .byteOutHangs) := by
  unfold emitBytes
  cases h : s.byteSink.accept bs.length with
  | none => exact .inr ⟨rfl, rfl⟩
  | some k => exact .inl ⟨k, rfl, rfl⟩

/-- Everything `emitSyms` can do. -/
theorem emitSyms_cases (xs : List Sym) (s : State) :
    (∃ k, s.symSink.accept xs.length = some k ∧
      emitSyms xs s = .next { s with symsOut := s.symsOut ++ xs, symSink := k }) ∨
    (s.symSink.accept xs.length = none ∧ emitSyms xs s = .fault .symOutHangs) := by
  unfold emitSyms
  cases h : s.symSink.accept xs.length with
  | none => exact .inr ⟨rfl, rfl⟩
  | some k => exact .inl ⟨k, rfl, rfl⟩

/-- A consumer that accepts takes every byte. -/
theorem emitBytes_accepting {bs : List Byte} {s : State} (h : s.byteSink = .accepting) :
    emitBytes bs s = .next { s with bytesOut := s.bytesOut ++ bs } := by
  cases s
  simp_all [emitBytes]

/-- A consumer that accepts takes every symbol. -/
theorem emitSyms_accepting {xs : List Sym} {s : State} (h : s.symSink = .accepting) :
    emitSyms xs s = .next { s with symsOut := s.symsOut ++ xs } := by
  cases s
  simp_all [emitSyms]

/-! ## Tables: read after write -/

@[simp] theorem freqAt_setFreq_same (s : State) (x : Sym) (v : Word) : freqAt (setFreq s x v) x = v := by
  simp [freqAt, setFreq]

theorem freqAt_setFreq_other (s : State) {x y : Sym} (v : Word) (h : x ≠ y) :
    freqAt (setFreq s x v) y = freqAt s y := by
  have : x.toNat ≠ y.toNat := fun e => h (BitVec.eq_of_toNat_eq e)
  simp [freqAt, setFreq, this]

theorem node_setNode_same (s : State) {i : Nat} (n : TreeNode) (h : i < 511) : (setNode s i n).node[i]? = some n := by
  simp [setNode, h]

theorem node_setNode_other (s : State) {i j : Nat} (n : TreeNode) (h : i ≠ j) :
    (setNode s i n).node[j]? = s.node[j]? := by
  simp [setNode, h]

theorem mem_allSyms (x : Sym) : x ∈ allSyms := by
  simp only [allSyms, List.mem_map, List.mem_range]
  exact ⟨x.toNat, x.isLt, by simp⟩

end Sys2Proof.Machine
end

