-- ==== Sys2Proof/Laws/Bus.lean ====
section
/-! SUPPORT. The address map: which offset is which word, and which is none; the fields of the register and table words; one
step that performs a read or a write. -/

namespace Sys2Proof.Machine

open Sys2Proof.Safety

/-! ## Offsets -/

theorem toNat_offset {n : Nat} (h : n < 2 ^ 15) : (BitVec.ofNat 15 n).toNat = n := by
  simpa using Nat.mod_eq_of_lt h

theorem busWordAt_freq (x : Nat) (h : x < 256) :
    busWordAt (BitVec.ofNat 15 (0x0400 + 4 * x)) = some (.freq (BitVec.ofNat 8 x)) := by
  simp only [busWordAt, toNat_offset (show 0x0400 + 4 * x < 2 ^ 15 by omega)]
  rw [if_neg (by omega), if_neg (by omega), if_pos (by omega)]
  congr 3
  omega

theorem busWordAt_node (h k : Nat) (hh : h < 511) (hk : k < 4) :
    busWordAt (BitVec.ofNat 15 (0x2000 + 4 * k + 16 * h)) = nodeWordAt h k := by
  simp only [busWordAt, toNat_offset (show 0x2000 + 4 * k + 16 * h < 2 ^ 15 by omega)]
  rw [if_neg (by omega), if_neg (by omega), if_neg (by omega), if_neg (by omega), if_pos (by omega)]
  congr 1 <;> omega

theorem busWordAt_code (x k : Nat) (h : x < 256) (hk : k < 16) :
    busWordAt (BitVec.ofNat 15 (0x4000 + 64 * x + 4 * k)) = codeWordAt (BitVec.ofNat 8 x) k := by
  simp only [busWordAt, toNat_offset (show 0x4000 + 64 * x + 4 * k < 2 ^ 15 by omega)]
  rw [if_neg (by omega), if_neg (by omega), if_neg (by omega), if_neg (by omega), if_neg (by omega)]
  congr 1
  · congr 1
    omega
  · omega

/-- The offsets without a word are the unmapped and the misaligned ones (R62, R68). -/
theorem busWordAt_eq_none_iff (off : Offset) : busWordAt off = none ↔ Unmapped off ∨ off.toNat % 4 ≠ 0 := by
  have hlt := off.isLt
  unfold busWordAt Unmapped
  simp only
  split
  · simp [*]
  · rename_i h4
    simp only [h4, or_false]
    split
    · have : registerAt (off.toNat / 4) = none ↔ 7 ≤ off.toNat / 4 := by
        unfold registerAt
        split <;> simp_all <;> omega
      rw [this]
      omega
    · split
      · simp
        omega
      · split
        · simp
          omega
        · split
          · have : nodeWordAt ((off.toNat - 8192) / 16) (off.toNat % 16 / 4) = none ↔
                511 ≤ (off.toNat - 8192) / 16 ∨ 3 ≤ off.toNat % 16 / 4 := by
              unfold nodeWordAt
              split
              · split <;> simp_all <;> omega
              · simp
                omega
            rw [this]
            omega
          · have : codeWordAt (BitVec.ofNat 8 ((off.toNat - 16384) / 64)) (off.toNat % 64 / 4) = none ↔
                9 ≤ off.toNat % 64 / 4 := by
              unfold codeWordAt
              split
              · simp
                omega
              · rename_i k hk
                split <;> simp <;> omega
            rw [this]
            omega

/-! ## Fields of the words -/

theorem statusWord_fields (s : State) :
    (statusWord s).extractLsb' 0 2 = phaseCode s.phase ∧ (statusWord s).extractLsb' 2 2 = 0 ∧
    (statusWord s).extractLsb' 4 4 = errCode s.err ∧ (statusWord s).extractLsb' 8 24 = 0 := by
  unfold statusWord
  cases s.phase <;> cases s.err <;> decide

/-- A 9-bit field at the bottom of a word (R37, R39). -/
theorem low9_fields (v : BitVec 9) :
    ((0 : BitVec 23) ++ v : Word).extractLsb' 0 9 = v ∧ ((0 : BitVec 23) ++ v : Word).extractLsb' 9 23 = 0 := by
  revert v
  decide +kernel

/-- A 10-bit field at the bottom of a word (R38). -/
theorem low10_fields (v : BitVec 10) :
    ((0 : BitVec 22) ++ v : Word).extractLsb' 0 10 = v ∧ ((0 : BitVec 22) ++ v : Word).extractLsb' 10 22 = 0 := by
  revert v
  decide +kernel

/-- BWSTATE's fields (R40). -/
theorem bwstate_fields (cnt : BitVec 3) (acc : Byte) :
    ((0 : BitVec 21) ++ cnt ++ acc : Word).extractLsb' 0 8 = acc ∧
    ((0 : BitVec 21) ++ cnt ++ acc : Word).extractLsb' 8 3 = cnt ∧
    ((0 : BitVec 21) ++ cnt ++ acc : Word).extractLsb' 11 21 = 0 := by
  revert cnt acc
  decide +kernel

/-- LEN's fields (R65). -/
theorem codeLenWord_fields (len : BitVec 8) :
    ((0 : BitVec 24) ++ len : Word).extractLsb' 0 8 = len ∧ ((0 : BitVec 24) ++ len : Word).extractLsb' 8 24 = 0 := by
  revert len
  decide +kernel

/-- INFO's fields (R64). -/
theorem infoWord_fields (n : TreeNode) :
    (infoWord n).getLsbD 0 = n.leaf ∧ (infoWord n).extractLsb' 1 7 = 0 ∧ (infoWord n).extractLsb' 8 8 = n.sym ∧
    (infoWord n).extractLsb' 16 16 = 0 := by
  unfold infoWord
  generalize n.leaf = l
  generalize n.sym = x
  revert l x
  decide +kernel

/-- The bits of CHILD (R64). -/
theorem getLsbD_childWord (n : TreeNode) (i : Nat) :
    (childWord n).getLsbD i =
      if i < 9 then n.left.getLsbD i else if i < 16 then false else if i < 25 then n.right.getLsbD (i - 16) else false := by
  show BitVec.getLsbD (w := 7 + 9 + 7 + 9) ((0 : BitVec 7) ++ n.right ++ (0 : BitVec 7) ++ n.left) i = _
  simp only [BitVec.getLsbD_append]
  split_ifs <;> first
    | rfl
    | omega
    | exact BitVec.getLsbD_zero

/-- CHILD's fields (R64). -/
theorem childWord_fields (n : TreeNode) :
    (childWord n).extractLsb' 0 9 = n.left ∧ (childWord n).extractLsb' 9 7 = 0 ∧
    (childWord n).extractLsb' 16 9 = n.right ∧ (childWord n).extractLsb' 25 7 = 0 := by
  refine ⟨?_, ?_, ?_, ?_⟩ <;> apply BitVec.eq_of_getLsbD_eq <;> intro i hi <;>
    simp only [BitVec.getLsbD_extractLsb', getLsbD_childWord, hi, decide_true, Bool.true_and]
  · simp [hi]
  · simp [show ¬ 9 + i < 9 by omega, show 9 + i < 16 by omega]
  · simp [show ¬ 16 + i < 9 by omega, show 16 + i < 25 by omega]
  · simp [show ¬ 25 + i < 9 by omega, show ¬ 25 + i < 16 by omega, show ¬ 25 + i < 25 by omega]

/-! ## One access -/

/-- The step that performs the next access. -/
theorem step_cons {s : State} {op : HostOp} {rest : List HostOp} (h : s.hostQueue = op :: rest) :
    step s = performOp op { s with hostQueue := rest } := by
  simp [step, performNext, h]

@[simp] theorem step_enqueued (s : State) (op : HostOp) (rest : List HostOp) :
    step { s with hostQueue := op :: rest } = performOp op { s with hostQueue := rest } := rfl

/-- A word's value does not depend on the queue of accesses. -/
@[simp] theorem wordValue_hostQueue (s : State) (q : List HostOp) (w : BusWord) :
    wordValue { s with hostQueue := q } w = wordValue s w := by
  cases w <;> rfl

/-- A read of a mapped word (R66). -/
theorem readAnswers_of_word {s : State} {off : Offset} {w : BusWord} (h : busWordAt off = some w) :
    ReadAnswers s off .okay (wordValue s w) := by
  intro rest
  simp [performOp, busRead, h, respond]

/-- A read of an offset without a word (R68). -/
theorem readAnswers_of_none {s : State} {off : Offset} (h : busWordAt off = none) : ReadAnswers s off .slverr 0 := by
  intro rest
  simp [performOp, busRead, h, respond]

/-- A write to an offset without a word (R68). -/
theorem writeAnswers_of_none {s : State} {off : Offset} (data : Word) (h : busWordAt off = none) :
    WriteAnswers s off data .slverr s := by
  intro rest
  simp [performOp, h, respond]

/-- A write to a word that is never writable (R67). -/
theorem writeAnswers_of_readOnly {s : State} {off : Offset} {w : BusWord} (data : Word) (h : busWordAt off = some w)
    (hc : w ≠ .cmd) (hs : ∀ t : State, storeWord t data w = none) : WriteAnswers s off data .slverr s := by
  intro rest
  simp [performOp, h, writeWord, hc, busStore, hs, respond]

/-- A write outside EMPTY to any word but CMD (R67). -/
theorem writeAnswers_of_protected {s : State} {off : Offset} {w : BusWord} (data : Word) (h : busWordAt off = some w)
    (hc : w ≠ .cmd) (hp : s.phase ≠ .empty) : WriteAnswers s off data .slverr s := by
  intro rest
  have hb : ∀ u : State, u.phase = s.phase → busStore u w data = (.slverr, u) := by
    intro u hu
    unfold busStore
    split <;> simp [hu, hp]
  simp [performOp, h, writeWord, hc, hb, respond]

/-- An accepted write in EMPTY (R67). -/
theorem writeAnswers_of_store {s t : State} {off : Offset} {w : BusWord} (data : Word) (h : busWordAt off = some w)
    (hc : w ≠ .cmd) (hp : s.phase = .empty)
    (hs : ∀ q, storeWord { s with hostQueue := q } data w = some { t with hostQueue := q })
    (hr : t.responses = s.responses) : WriteAnswers s off data .okay t := by
  intro rest
  have hb : busStore { s with hostQueue := rest } w data = (.okay, { t with hostQueue := rest }) := by
    unfold busStore
    rw [hs]
    exact if_pos hp
  rw [step_enqueued]
  simp only [performOp, h, writeWord, if_neg hc, hb, respond, hr]
  rfl

/-! ## CMD writes -/

/-- A 32-bit write to CMD executes its word and is answered OKAY when that completes (R34, R67). -/
theorem performOp_cmd (w : Word) (s : State) :
    performOp (.write 0x0000 32 w) s = answerWith (.write .okay) (runCommandWord w s) := rfl

/-- What the host sees of a command that completes, whatever accesses wait after it, with no response of its own. -/
theorem writeAnswers_of_command {s t : State} {w : Word} (hr : t.responses = s.responses)
    (h : ∀ rest, runCommandWord w { s with hostQueue := rest } = .next { t with hostQueue := rest }) :
    WriteAnswers s 0x0000 w .okay t := by
  intro rest
  rw [step_enqueued, performOp_cmd, h rest]
  simp only [answerWith, respond, hr]

/-- A word the decoder rejects, with no error latched (R95, R96). -/
theorem runCommandWord_of_reject {s : State} {w : Word} {e : DecodeError} (hd : decode w = .reject e) (he : s.err = .none) :
    runCommandWord w s = .next { s with err := .illegalCmd, errinfo := w } := by
  simp [runCommandWord, hd, he, raise, setErr, phaseAfter]

/-- A word the decoder rejects, with an error latched: no effect (R103, R198). -/
theorem runCommandWord_of_reject_latched {s : State} {w : Word} {e : DecodeError} (hd : decode w = .reject e)
    (he : s.err ≠ .none) : runCommandWord w s = .next s := by
  simp [runCommandWord, hd, he, raise, setErr, phaseAfter]

end Sys2Proof.Machine
end

