-- ==== Sys2Proof/Laws/Tree.lean ====
section
/-! SUPPORT. What ValidTree says, without its recursion: the arena below `nnodes` is exactly the nodes of one tree with distinct
handles, distinct leaf symbols and right weights (40_build.md R126). -/

namespace Sys2Proof.Machine

/-- The tree at `h`, with its handles in pre-order and its leaf symbols from left to right; leaf weights are at least 1 and
Internal weights the exact sums (R126). -/
inductive IsTree (arena : Arena) : Handle → List Handle → List Sym → Prop where
  | leaf {h : Handle} {n : TreeNode} (hn : nodeAt arena h = some n) (hl : n.leaf = true) (hw : n.weight ≠ 0) :
      IsTree arena h [h] [n.sym]
  | internal {h : Handle} {n l r : TreeNode} {hs1 hs2 : List Handle} {xs1 xs2 : List Sym}
      (hn : nodeAt arena h = some n) (hl : n.leaf = false)
      (ht1 : IsTree arena n.left hs1 xs1) (ht2 : IsTree arena n.right hs2 xs2)
      (hn1 : nodeAt arena n.left = some l) (hn2 : nodeAt arena n.right = some r)
      (hw : n.weight.toNat = l.weight.toNat + r.weight.toNat) :
      IsTree arena h (h :: (hs1 ++ hs2)) (xs1 ++ xs2)

theorem IsTree.root_mem {arena : Arena} {h : Handle} {hs : List Handle} {xs : List Sym} (t : IsTree arena h hs xs) :
    h ∈ hs := by
  cases t <;> simp

theorem IsTree.length_pos {arena : Arena} {h : Handle} {hs : List Handle} {xs : List Sym} (t : IsTree arena h hs xs) :
    0 < hs.length := List.length_pos_of_mem t.root_mem

theorem IsTree.node {arena : Arena} {h : Handle} {hs : List Handle} {xs : List Sym} (t : IsTree arena h hs xs) :
    ∃ n, nodeAt arena h = some n := by
  cases t with
  | leaf hn _ _ => exact ⟨_, hn⟩
  | internal hn _ _ _ _ _ _ => exact ⟨_, hn⟩

/-- A tree has one more leaf than Internal nodes. -/
theorem IsTree.length {arena : Arena} {h : Handle} {hs : List Handle} {xs : List Sym} (t : IsTree arena h hs xs) :
    hs.length + 1 = 2 * xs.length := by
  induction t with
  | leaf => simp
  | internal _ _ _ _ _ _ _ ih1 ih2 =>
    simp only [List.length_cons, List.length_append]
    omega

/-- The tree at a handle is determined by the arena. -/
theorem IsTree.unique {arena : Arena} {h : Handle} {hs hs' : List Handle} {xs xs' : List Sym}
    (t : IsTree arena h hs xs) (t' : IsTree arena h hs' xs') : hs = hs' ∧ xs = xs' := by
  induction t generalizing hs' xs' with
  | leaf hn hl hw =>
    cases t' with
    | leaf hn' hl' hw' =>
      rw [hn] at hn'
      cases hn'
      exact ⟨rfl, rfl⟩
    | internal hn' hl' _ _ _ _ _ =>
      rw [hn] at hn'
      cases hn'
      simp [hl] at hl'
  | internal hn hl _ _ _ _ _ ih1 ih2 =>
    cases t' with
    | leaf hn' hl' hw' =>
      rw [hn] at hn'
      cases hn'
      simp [hl] at hl'
    | internal hn' hl' t1' t2' _ _ _ =>
      rw [hn] at hn'
      cases hn'
      obtain ⟨rfl, rfl⟩ := ih1 t1'
      obtain ⟨rfl, rfl⟩ := ih2 t2'
      exact ⟨rfl, rfl⟩

theorem weightOf_of_node {arena : Arena} {h : Handle} {n : TreeNode} (hn : nodeAt arena h = some n) :
    weightOf arena h = some n.weight.toNat := by
  simp [weightOf, hn]

/-- A successful `Check(h)` has walked a tree at `h`, new to the sets and below `nnodes`. -/
theorem checkNode_sound {arena : Arena} {nn : Nat} (fuel : Nat) (h : Handle) (v v' : Visited)
    (hc : checkNode arena nn fuel h v = some v') :
    ∃ hs xs, IsTree arena h hs xs ∧ v'.handles.Perm (hs ++ v.handles) ∧ v'.symbols.Perm (xs ++ v.symbols) ∧
      (∀ x ∈ hs, x.toNat < nn) ∧ (v.handles.Nodup → v'.handles.Nodup) ∧ (v.symbols.Nodup → v'.symbols.Nodup) := by
  induction fuel generalizing h v v' with
  | zero => cases hc
  | succ fuel ih =>
    unfold checkNode at hc
    split at hc
    case isFalse => cases hc
    rename_i hlt
    split at hc
    · cases hc
    rename_i n hn
    split at hc
    · rename_i hl
      split at hc
      case isFalse => cases hc
      rename_i hw
      cases hc
      exact ⟨[h], [n.sym], .leaf hn hl hw.1, .refl _, .refl _, by simpa using hlt.1,
        fun hd => List.nodup_cons.2 ⟨hlt.2, hd⟩, fun hd => List.nodup_cons.2 ⟨hw.2, hd⟩⟩
    · rename_i hl
      split at hc
      · cases hc
      rename_i v1 hv1
      split at hc
      · cases hc
      rename_i v2 hv2
      split at hc
      case h_2 => cases hc
      rename_i wl wr hwl hwr
      split at hc
      case isFalse => cases hc
      rename_i hw
      cases hc
      obtain ⟨hs1, xs1, t1, p1, q1, b1, d1, e1⟩ := ih _ _ _ hv1
      obtain ⟨hs2, xs2, t2, p2, q2, b2, d2, e2⟩ := ih _ _ _ hv2
      obtain ⟨l, hln⟩ := t1.node
      obtain ⟨r, hrn⟩ := t2.node
      rw [weightOf_of_node hln] at hwl
      rw [weightOf_of_node hrn] at hwr
      cases hwl
      cases hwr
      refine ⟨h :: (hs1 ++ hs2), xs1 ++ xs2, .internal hn (by simpa using hl) t1 t2 hln hrn hw, ?_, ?_, ?_,
        fun hd => d2 (d1 (List.nodup_cons.2 ⟨hlt.2, hd⟩)), fun hd => e2 (e1 hd)⟩
      · refine p2.trans ((p1.append_left hs2).trans ?_)
        simp only [List.cons_append, ← List.append_assoc]
        refine List.perm_middle.trans (List.Perm.cons h ?_)
        exact List.Perm.append_right _ List.perm_append_comm
      · refine q2.trans ((q1.append_left xs2).trans ?_)
        simp only [← List.append_assoc]
        exact List.Perm.append_right _ List.perm_append_comm
      · intro x hx
        simp only [List.mem_cons, List.mem_append] at hx
        rcases hx with rfl | hx | hx
        · exact hlt.1
        · exact b1 x hx
        · exact b2 x hx

/-- `Check(h)` succeeds on a tree below `nnodes` that is new to the sets and has no handle and no symbol twice. -/
theorem checkNode_complete {arena : Arena} {nn : Nat} {h : Handle} {hs : List Handle} {xs : List Sym}
    (t : IsTree arena h hs xs) (fuel : Nat) (v : Visited) (hb : ∀ x ∈ hs, x.toNat < nn)
    (hd : (hs ++ v.handles).Nodup) (he : (xs ++ v.symbols).Nodup) (hf : hs.length ≤ fuel) :
    ∃ v', checkNode arena nn fuel h v = some v' ∧ v'.handles.Perm (hs ++ v.handles) ∧
      v'.symbols.Perm (xs ++ v.symbols) := by
  induction t generalizing fuel v with
  | @leaf h n hn hl hw =>
    obtain ⟨fuel, rfl⟩ : ∃ k, fuel = k + 1 := ⟨fuel - 1, by simp at hf; omega⟩
    have h1 : h.toNat < nn ∧ h ∉ v.handles := ⟨hb h (by simp), (List.nodup_cons.1 hd).1⟩
    have h2 : n.weight ≠ 0 ∧ n.sym ∉ v.symbols := ⟨hw, (List.nodup_cons.1 he).1⟩
    refine ⟨{ handles := h :: v.handles, symbols := n.sym :: v.symbols }, ?_, .refl _, .refl _⟩
    simp only [checkNode, if_pos h1, hn, if_pos hl, if_pos h2]
  | @internal h n l r hs1 hs2 xs1 xs2 hn hl t1 t2 hn1 hn2 hw ih1 ih2 =>
    simp only [List.length_cons, List.length_append] at hf
    obtain ⟨fuel, rfl⟩ : ∃ k, fuel = k + 1 := ⟨fuel - 1, by omega⟩
    have h1 : h.toNat < nn ∧ h ∉ v.handles := by
      refine ⟨hb h (by simp), fun hm => ?_⟩
      simp only [List.cons_append, List.nodup_cons, List.mem_append] at hd
      exact hd.1 (.inr hm)
    have hperm : (hs1 ++ (h :: v.handles)).Perm (h :: (hs1 ++ v.handles)) := List.perm_middle
    have hd1 : (hs1 ++ (h :: v.handles)).Nodup := by
      rw [hperm.nodup_iff]
      refine hd.sublist ?_
      simp only [List.cons_append, List.append_assoc]
      exact List.Sublist.cons_cons _ (List.Sublist.append_left (List.sublist_append_right _ _) _)
    have he1 : (xs1 ++ v.symbols).Nodup := by
      refine he.sublist ?_
      rw [List.append_assoc]
      exact List.Sublist.append_left (List.sublist_append_right _ _) _
    obtain ⟨v1, hv1, p1, q1⟩ := ih1 fuel { v with handles := h :: v.handles } (fun x hx => hb x (by simp [hx])) hd1 he1
      (by omega)
    have p2 : (hs2 ++ v1.handles).Perm (h :: (hs1 ++ hs2) ++ v.handles) := by
      refine (p1.append_left hs2).trans ?_
      simp only [List.cons_append, ← List.append_assoc]
      refine List.perm_middle.trans (List.Perm.cons h ?_)
      exact List.Perm.append_right _ List.perm_append_comm
    have q2 : (xs2 ++ v1.symbols).Perm (xs1 ++ xs2 ++ v.symbols) := by
      refine (q1.append_left xs2).trans ?_
      simp only [← List.append_assoc]
      exact List.Perm.append_right _ List.perm_append_comm
    obtain ⟨v2, hv2, p3, q3⟩ := ih2 fuel v1 (fun x hx => hb x (by simp [hx])) (p2.nodup_iff.2 hd) (q2.nodup_iff.2 he)
      (by omega)
    refine ⟨v2, ?_, p3.trans p2, q3.trans q2⟩
    simp only [checkNode, if_pos h1, hn, hl, hv1, hv2, weightOf_of_node hn1, weightOf_of_node hn2, if_pos hw]
    rfl

/-- ValidTree (R126), without its recursion. -/
theorem validTree_iff (root : Handle) (nnodes : BitVec 10) (arena : Arena) :
    validTree root nnodes arena = true ↔
      1 ≤ nnodes.toNat ∧ nnodes.toNat ≤ 511 ∧ root.toNat < nnodes.toNat ∧
      ∃ hs xs, IsTree arena root hs xs ∧ hs.Nodup ∧ xs.Nodup ∧ (∀ x ∈ hs, x.toNat < nnodes.toNat) ∧
        hs.length = nnodes.toNat := by
  unfold validTree
  rw [Bool.and_eq_true, decide_eq_true_eq]
  constructor
  · rintro ⟨⟨h1, h2, h3⟩, h4⟩
    refine ⟨h1, h2, h3, ?_⟩
    split at h4
    · cases h4
    · rename_i v hv
      obtain ⟨hs, xs, t, p, q, b, d, e⟩ := checkNode_sound _ _ _ _ hv
      simp only [List.append_nil] at p q
      exact ⟨hs, xs, t, p.nodup_iff.1 (d .nil), q.nodup_iff.1 (e .nil), b, by rw [← p.length_eq]; simpa using h4⟩
  · rintro ⟨h1, h2, h3, hs, xs, t, d, e, b, hlen⟩
    refine ⟨⟨h1, h2, h3⟩, ?_⟩
    obtain ⟨v, hv, p, -⟩ := checkNode_complete t 512 { handles := [], symbols := [] } b (by simpa using d)
      (by simpa using e) (by omega)
    rw [hv]
    simpa [p.length_eq] using hlen

/-- In a valid tree every handle below `nnodes` is a node of the tree. -/
theorem mem_of_lt_of_nodup {hs : List Handle} {nn : Nat} (hd : hs.Nodup) (hb : ∀ x ∈ hs, x.toNat < nn)
    (hl : hs.length = nn) {h : Handle} (hh : h.toNat < nn) : h ∈ hs := by
  have hsub : hs.map BitVec.toNat ⊆ List.range nn := by
    intro k hk
    obtain ⟨x, hx, rfl⟩ := List.mem_map.1 hk
    exact List.mem_range.2 (hb x hx)
  have hnd : (hs.map BitVec.toNat).Nodup := hd.map (fun a b e => BitVec.eq_of_toNat_eq e)
  have hp : (hs.map BitVec.toNat).Perm (List.range nn) :=
    (List.subperm_of_subset hnd hsub).perm_of_length_le (by simp [hl])
  have hm : h.toNat ∈ hs.map BitVec.toNat := hp.mem_iff.2 (List.mem_range.2 hh)
  obtain ⟨x, hx, he⟩ := List.mem_map.1 hm
  rwa [← BitVec.eq_of_toNat_eq he]

/-- Every node of a tree is itself a tree, within it. -/
theorem IsTree.sub {arena : Arena} {h : Handle} {hs : List Handle} {xs : List Sym} (t : IsTree arena h hs xs)
    {k : Handle} (hk : k ∈ hs) : ∃ hs' xs', IsTree arena k hs' xs' ∧ hs' ⊆ hs ∧ xs' ⊆ xs := by
  induction t with
  | leaf hn hl hw =>
    simp only [List.mem_singleton] at hk
    subst hk
    exact ⟨_, _, .leaf hn hl hw, List.Subset.refl _, List.Subset.refl _⟩
  | internal hn hl t1 t2 hn1 hn2 hw ih1 ih2 =>
    simp only [List.mem_cons, List.mem_append] at hk
    rcases hk with rfl | hk | hk
    · exact ⟨_, _, .internal hn hl t1 t2 hn1 hn2 hw, List.Subset.refl _, List.Subset.refl _⟩
    · obtain ⟨a, b, c, d, e⟩ := ih1 hk
      refine ⟨a, b, c, fun y hy => ?_, fun y hy => ?_⟩
      · have := d hy
        simp [this]
      · have := e hy
        simp [this]
    · obtain ⟨a, b, c, d, e⟩ := ih2 hk
      refine ⟨a, b, c, fun y hy => ?_, fun y hy => ?_⟩
      · have := d hy
        simp [this]
      · have := e hy
        simp [this]

/-- In a valid tree an Internal node below `nnodes` has both children below `nnodes`, and the arena has them. -/
theorem validTree_children {root : Handle} {nnodes : BitVec 10} {arena : Arena}
    (hv : validTree root nnodes arena = true) {h : Handle} (hh : h.toNat < nnodes.toNat) {n : TreeNode}
    (hn : nodeAt arena h = some n) (hl : n.leaf = false) :
    n.left.toNat < nnodes.toNat ∧ n.right.toNat < nnodes.toNat ∧
      (∃ l, nodeAt arena n.left = some l) ∧ ∃ r, nodeAt arena n.right = some r := by
  obtain ⟨-, -, -, hs, xs, t, d, -, b, hlen⟩ := (validTree_iff _ _ _).1 hv
  obtain ⟨hs', xs', t', hsub, -⟩ := t.sub (mem_of_lt_of_nodup d b hlen hh)
  cases t' with
  | leaf hn' hl' _ =>
    rw [hn] at hn'
    cases hn'
    simp [hl] at hl'
  | internal hn' _ t1 t2 hn1 hn2 _ =>
    rw [hn] at hn'
    cases hn'
    exact ⟨b _ (hsub (by simp [t1.root_mem])), b _ (hsub (by simp [t2.root_mem])), ⟨_, hn1⟩, ⟨_, hn2⟩⟩

end Sys2Proof.Machine
end

