-- ==== Sys2Proof/Laws/Codes.lean ====
section
/-! SUPPORT. The code ROM of a tree: each leaf's entry is its path (40_build.md R121, R123), and the walk along a path ends at its
leaf (42_decoder.md R163). -/

namespace Sys2Proof.Machine

open Sys2Proof.Safety

/-- The path `q` leads from `h` to a leaf of symbol `x`. -/
def LeafAt (arena : Arena) (h : Handle) (q : List Bool) (x : Sym) : Prop :=
  ∃ k n, followPath arena h q = some k ∧ nodeAt arena k = some n ∧ n.leaf = true ∧ n.sym = x

theorem leafAt_leaf {arena : Arena} {h : Handle} {n : TreeNode} (hn : nodeAt arena h = some n) (hl : n.leaf = true)
    (q : List Bool) (x : Sym) : LeafAt arena h q x ↔ q = [] ∧ n.sym = x := by
  constructor
  · rintro ⟨k, m, hf, hm, hml, hx⟩
    cases q with
    | nil =>
      cases hf
      rw [hn] at hm
      cases hm
      exact ⟨rfl, hx⟩
    | cons b q =>
      simp only [followPath, hn, hl, if_true] at hf
      cases hf
  · rintro ⟨rfl, rfl⟩
    exact ⟨h, n, rfl, hn, hl, rfl⟩

theorem leafAt_internal {arena : Arena} {h : Handle} {n : TreeNode} (hn : nodeAt arena h = some n)
    (hl : n.leaf = false) (q : List Bool) (x : Sym) :
    LeafAt arena h q x ↔ ∃ b q', q = b :: q' ∧ LeafAt arena (if b then n.right else n.left) q' x := by
  constructor
  · rintro ⟨k, m, hf, hm, hml, hx⟩
    cases q with
    | nil =>
      cases hf
      rw [hn] at hm
      cases hm
      simp [hl] at hml
    | cons b q =>
      simp only [followPath, hn, hl] at hf
      exact ⟨b, q, rfl, k, m, hf, hm, hml, hx⟩
  · rintro ⟨b, q', rfl, k, m, hf, hm, hml, hx⟩
    refine ⟨k, m, ?_, hm, hml, hx⟩
    simp only [followPath, hn, hl]
    exact hf

/-- The symbols of a tree are the symbols of its leaves. -/
theorem IsTree.mem_symbols {arena : Arena} {h : Handle} {hs : List Handle} {xs : List Sym} (t : IsTree arena h hs xs)
    (x : Sym) : x ∈ xs ↔ ∃ q, LeafAt arena h q x := by
  induction t with
  | leaf hn hl hw =>
    simp only [List.mem_singleton, leafAt_leaf hn hl]
    exact ⟨fun e => ⟨[], rfl, e.symm⟩, fun ⟨_, _, e⟩ => e.symm⟩
  | internal hn hl t1 t2 hn1 hn2 hw ih1 ih2 =>
    simp only [List.mem_append, ih1, ih2, leafAt_internal hn hl]
    constructor
    · rintro (⟨q, h⟩ | ⟨q, h⟩)
      · exact ⟨false :: q, false, q, rfl, h⟩
      · exact ⟨true :: q, true, q, rfl, h⟩
    · rintro ⟨_, b, q, rfl, h⟩
      cases b
      · exact .inl ⟨q, h⟩
      · exact .inr ⟨q, h⟩

/-- A path to a leaf is shorter than the number of leaves (R124(d)). -/
theorem IsTree.path_length {arena : Arena} {h : Handle} {hs : List Handle} {xs : List Sym} (t : IsTree arena h hs xs)
    {q : List Bool} {x : Sym} (hq : LeafAt arena h q x) : q.length < xs.length := by
  induction t generalizing q with
  | leaf hn hl hw =>
    obtain ⟨rfl, -⟩ := (leafAt_leaf hn hl _ _).1 hq
    simp
  | internal hn hl t1 t2 hn1 hn2 hw ih1 ih2 =>
    obtain ⟨b, q', rfl, h⟩ := (leafAt_internal hn hl _ _).1 hq
    have p1 := t1.length
    have p2 := t2.length
    have l1 := t1.length_pos
    have l2 := t2.length_pos
    simp only [List.length_cons, List.length_append]
    cases b
    · have := ih1 h
      omega
    · have := ih2 h
      omega

/-- With distinct leaf symbols a symbol has one path. -/
theorem IsTree.path_unique {arena : Arena} {h : Handle} {hs : List Handle} {xs : List Sym} (t : IsTree arena h hs xs)
    (hd : xs.Nodup) {q q' : List Bool} {x : Sym} (hq : LeafAt arena h q x) (hq' : LeafAt arena h q' x) : q = q' := by
  induction t generalizing q q' with
  | leaf hn hl hw =>
    obtain ⟨rfl, -⟩ := (leafAt_leaf hn hl _ _).1 hq
    obtain ⟨rfl, -⟩ := (leafAt_leaf hn hl _ _).1 hq'
    rfl
  | internal hn hl t1 t2 hn1 hn2 hw ih1 ih2 =>
    obtain ⟨d1, d2, dj⟩ := List.nodup_append.1 hd
    obtain ⟨b, p, rfl, h⟩ := (leafAt_internal hn hl _ _).1 hq
    obtain ⟨b', p', rfl, h'⟩ := (leafAt_internal hn hl _ _).1 hq'
    cases b <;> cases b'
    · rw [ih1 d1 h h']
    · exact absurd rfl (dj x ((t1.mem_symbols x).2 ⟨_, h⟩) x ((t2.mem_symbols x).2 ⟨_, h'⟩))
    · exact absurd rfl (dj x ((t1.mem_symbols x).2 ⟨_, h'⟩) x ((t2.mem_symbols x).2 ⟨_, h⟩))
    · rw [ih2 d2 h h']

/-- No path to a leaf goes on to another leaf: the paths are prefix-free. -/
theorem IsTree.path_prefix {arena : Arena} {h : Handle} {hs : List Handle} {xs : List Sym} (t : IsTree arena h hs xs)
    {q q' : List Bool} {x y : Sym} (hq : LeafAt arena h q x) (hq' : LeafAt arena h q' y) (hp : q <+: q') :
    q = q' ∧ x = y := by
  induction t generalizing q q' with
  | leaf hn hl hw =>
    obtain ⟨rfl, rfl⟩ := (leafAt_leaf hn hl _ _).1 hq
    obtain ⟨rfl, rfl⟩ := (leafAt_leaf hn hl _ _).1 hq'
    exact ⟨rfl, rfl⟩
  | internal hn hl t1 t2 hn1 hn2 hw ih1 ih2 =>
    obtain ⟨b, p, rfl, h⟩ := (leafAt_internal hn hl _ _).1 hq
    obtain ⟨b', p', rfl, h'⟩ := (leafAt_internal hn hl _ _).1 hq'
    obtain ⟨rfl, hpp⟩ := List.cons_prefix_cons.1 hp
    cases b
    · obtain ⟨rfl, rfl⟩ := ih1 h h' hpp
      exact ⟨rfl, rfl⟩
    · obtain ⟨rfl, rfl⟩ := ih2 h h' hpp
      exact ⟨rfl, rfl⟩

/-! ## The code ROM -/

/-- A ROM entry. -/
def romAt (rom : CodeRom) (x : Sym) : CodeEntry := rom[x.toNat]'(x.isLt)

theorem romAt_setCode (rom : CodeRom) (x y : Sym) (e : CodeEntry) :
    romAt (setCode rom x e) y = if x = y then e else romAt rom y := by
  unfold romAt setCode
  by_cases h : x = y
  · subst h
    simp
  · have : x.toNat ≠ y.toNat := fun e => h (BitVec.eq_of_toNat_eq e)
    simp [h, this]

@[simp] theorem romAt_emptyRom (x : Sym) : romAt emptyRom x = CodeEntry.none := by
  simp [romAt, emptyRom]

/-- Visit writes each leaf's path, prefixed by the path so far, and no other entry (R121). -/
theorem visit_spec {arena : Arena} {h : Handle} {hs : List Handle} {xs : List Sym} (t : IsTree arena h hs xs)
    (hd : xs.Nodup) (fuel : Nat) (hf : xs.length ≤ fuel) (p : List Bool) (rom : CodeRom) :
    (∀ x q, LeafAt arena h q x → romAt (visit arena fuel h p rom) x = entryOf (p ++ q)) ∧
    ∀ x, x ∉ xs → romAt (visit arena fuel h p rom) x = romAt rom x := by
  induction t generalizing fuel p rom with
  | @leaf h n hn hl hw =>
    obtain ⟨fuel, rfl⟩ : ∃ k, fuel = k + 1 := ⟨fuel - 1, by simp at hf; omega⟩
    simp only [visit, hn, hl, if_true, romAt_setCode]
    constructor
    · intro x q hq
      obtain ⟨rfl, hx⟩ := (leafAt_leaf hn hl _ _).1 hq
      simp [hx]
    · intro x hx
      rw [if_neg (fun e => hx (by simp [e]))]
  | @internal h n l r hs1 hs2 xs1 xs2 hn hl t1 t2 hn1 hn2 hw ih1 ih2 =>
    have p1 := t1.length
    have p2 := t2.length
    have l1 := t1.length_pos
    have l2 := t2.length_pos
    simp only [List.length_append] at hf
    obtain ⟨fuel, rfl⟩ : ∃ k, fuel = k + 1 := ⟨fuel - 1, by omega⟩
    obtain ⟨d1, d2, dj⟩ := List.nodup_append.1 hd
    obtain ⟨a1, b1⟩ := ih1 d1 fuel (by omega) (p ++ [false]) rom
    obtain ⟨a2, b2⟩ := ih2 d2 fuel (by omega) (p ++ [true]) (visit arena fuel n.left (p ++ [false]) rom)
    have hv : visit arena (fuel + 1) h p rom =
        visit arena fuel n.right (p ++ [true]) (visit arena fuel n.left (p ++ [false]) rom) := by
      simp [visit, hn, hl]
    rw [hv]
    constructor
    · intro x q hq
      obtain ⟨b, q', rfl, h'⟩ := (leafAt_internal hn hl _ _).1 hq
      cases b
      · have hx1 := (t1.mem_symbols x).2 ⟨_, h'⟩
        rw [b2 x (fun hx2 => dj x hx1 x hx2 rfl), a1 x q' h']
        simp
      · rw [a2 x q' h']
        simp
    · intro x hx
      simp only [List.mem_append, not_or] at hx
      rw [b2 x hx.2, b1 x hx.1]

/-- A valid tree, with its nodes and its leaves. -/
theorem validTree_tree {root : Handle} {nnodes : BitVec 10} {arena : Arena} (hv : validTree root nnodes arena = true) :
    ∃ hs xs, IsTree arena root hs xs ∧ hs.Nodup ∧ xs.Nodup ∧ (∀ k : Handle, k ∈ hs ↔ k.toNat < nnodes.toNat) ∧
      hs.length = nnodes.toNat ∧ xs.length ≤ 256 := by
  obtain ⟨-, h2, -, hs, xs, t, d, e, b, hl⟩ := (validTree_iff _ _ _).1 hv
  refine ⟨hs, xs, t, d, e, fun k => ⟨b k, mem_of_lt_of_nodup d b hl⟩, hl, ?_⟩
  have := t.length
  omega

/-- The ROM of a valid tree whose root is an Internal node: a leaf's entry is its path, and a symbol without a leaf has no entry
(R121, R123). -/
theorem genCodes_internal {root : Handle} {nnodes : BitVec 10} {arena : Arena}
    (hv : validTree root nnodes arena = true) {r : TreeNode} (hr : nodeAt arena root = some r) (hl : r.leaf = false) :
    (∀ x q, LeafAt arena root q x →
      romAt (genCodes root arena) x = entryOf q ∧ 1 ≤ q.length ∧ q.length ≤ 255) ∧
    ∀ x, (∀ q, ¬ LeafAt arena root q x) → romAt (genCodes root arena) x = CodeEntry.none := by
  obtain ⟨hs, xs, t, -, e, -, -, hx⟩ := validTree_tree hv
  have hg : genCodes root arena = visit arena 256 root [] emptyRom := by simp [genCodes, hr, hl]
  obtain ⟨a, b⟩ := visit_spec t e 256 hx [] emptyRom
  rw [hg]
  constructor
  · intro x q hq
    refine ⟨by simpa using a x q hq, ?_, ?_⟩
    · obtain ⟨b, q', rfl, -⟩ := (leafAt_internal hr hl _ _).1 hq
      simp
    · have := t.path_length hq
      omega
  · intro x hx
    rw [b x (fun hm => by
      obtain ⟨q, hq⟩ := (t.mem_symbols x).1 hm
      exact hx q hq)]
    simp

/-- The ROM of a lone leaf: the code `1` for its symbol and no other entry (R122). -/
theorem genCodes_leaf {root : Handle} {arena : Arena} {r : TreeNode} (hr : nodeAt arena root = some r)
    (hl : r.leaf = true) (x : Sym) :
    romAt (genCodes root arena) x = if r.sym = x then entryOf [true] else CodeEntry.none := by
  simp [genCodes, hr, hl, romAt_setCode]

/-- In the ROM of a valid tree a symbol has a code exactly when it has a leaf; its code is then the path, or `1` at a lone
leaf. -/
theorem codeseq_genCodes {root : Handle} {nnodes : BitVec 10} {arena : Arena}
    (hv : validTree root nnodes arena = true) {r : TreeNode} (hr : nodeAt arena root = some r) (hl : r.leaf = false)
    {x : Sym} (hx : (romAt (genCodes root arena) x).len ≠ 0) :
    LeafAt arena root (codeseq (romAt (genCodes root arena) x)) x := by
  obtain ⟨a, b⟩ := genCodes_internal hv hr hl
  by_cases h : ∃ q, LeafAt arena root q x
  · obtain ⟨q, hq⟩ := h
    obtain ⟨h1, -, h3⟩ := a x q hq
    rw [h1, codeseq_entryOf h3]
    exact hq
  · rw [b x (by simpa using h)] at hx
    exact absurd rfl hx

/-! ## The walk (R163, R164) -/

theorem walkSeq_append (arena : Arena) (root cur : Handle) (q r : List Bool) :
    walkSeq arena root cur (q ++ r) =
      match walkSeq arena root cur q with
      | none => none
      | some (c, out) =>
        match walkSeq arena root c r with
        | none => none
        | some (c', outs) => some (c', out ++ outs) := by
  induction q generalizing cur with
  | nil =>
    simp only [List.nil_append, walkSeq]
    split <;> simp_all
  | cons b q ih =>
    simp only [List.cons_append, walkSeq, ih]
    cases walk arena root cur b with
    | none => rfl
    | some w =>
      obtain ⟨c, out⟩ := w
      dsimp only
      cases walkSeq arena root c q with
      | none => rfl
      | some v =>
        obtain ⟨c1, o1⟩ := v
        dsimp only
        cases walkSeq arena root c1 r with
        | none => rfl
        | some u => simp

/-- The walk along a path to a leaf from an Internal node emits that leaf's symbol and is at the root again. -/
theorem walkSeq_path {arena : Arena} {root : Handle} {r : TreeNode} (hr : nodeAt arena root = some r)
    (hl : r.leaf = false) {q : List Bool} {cur : Handle} {x : Sym} (hq : LeafAt arena cur q x) (hne : q ≠ []) :
    walkSeq arena root cur q = some (root, [x]) := by
  induction q generalizing cur with
  | nil => exact absurd rfl hne
  | cons b q ih =>
    obtain ⟨k, m, hf, hm, hml, hx⟩ := hq
    have hcur : ∃ n, nodeAt arena cur = some n ∧ n.leaf = false ∧
        followPath arena (if b then n.right else n.left) q = some k := by
      simp only [followPath] at hf
      split at hf
      · cases hf
      · rename_i n hn
        split at hf
        · cases hf
        · rename_i hnl
          exact ⟨n, hn, by simpa using hnl, hf⟩
    obtain ⟨n, hn, hnl, hf'⟩ := hcur
    have hleaf : LeafAt arena (if b then n.right else n.left) q x := ⟨k, m, hf', hm, hml, hx⟩
    obtain ⟨c, hc⟩ : ∃ c, nodeAt arena (if b then n.right else n.left) = some c := by
      cases q with
      | nil =>
        cases hf'
        exact ⟨m, hm⟩
      | cons b' q =>
        simp only [followPath] at hf'
        split at hf'
        · cases hf'
        · exact ⟨_, ‹_›⟩
    cases hcl : c.leaf with
    | true =>
      obtain ⟨rfl, rfl⟩ := (leafAt_leaf hc hcl _ _).1 hleaf
      simp [walkSeq, walk, hr, hl, hn, hc, hcl]
    | false =>
      have hq' : q ≠ [] := by
        rintro rfl
        cases hf'
        rw [hc] at hm
        cases hm
        simp [hcl] at hml
      have hih := ih hleaf hq'
      simp [walkSeq, walk, hr, hl, hn, hc, hcl, hih]

end Sys2Proof.Machine
end

