-- ==== Sys2Proof/Laws/Decode.lean ====
section
/-! SUPPORT. The fields of a command word and the word of its fields are inverse to each other; what the opcode map answers. -/

namespace Sys2Proof

/-- The bits of the word of three fields. -/
theorem getLsbD_wordOf (f : CommandFields) (i : Nat) :
    (wordOf f).getLsbD i =
      if i < 8 then f.low.getLsbD i else if i < 24 then f.mid.getLsbD (i - 8) else f.opcode.getLsbD (i - 24) := by
  show BitVec.getLsbD (w := 8 + 16 + 8) (f.opcode ++ f.mid ++ f.low) i = _
  simp only [BitVec.getLsbD_append]
  split
  · rfl
  · split <;> split <;> first | rfl | omega

@[simp] theorem opcodeOf_wordOf (f : CommandFields) : opcodeOf (wordOf f) = f.opcode := by
  apply BitVec.eq_of_getLsbD_eq
  intro i hi
  simp [opcodeOf, getLsbD_wordOf, hi, show ¬ 24 + i < 8 by omega]

@[simp] theorem midOf_wordOf (f : CommandFields) : midOf (wordOf f) = f.mid := by
  apply BitVec.eq_of_getLsbD_eq
  intro i hi
  simp [midOf, getLsbD_wordOf, hi, show 8 + i < 24 by omega]

@[simp] theorem imm8Of_wordOf (f : CommandFields) : imm8Of (wordOf f) = f.low := by
  apply BitVec.eq_of_getLsbD_eq
  intro i hi
  simp [imm8Of, getLsbD_wordOf, hi]

theorem wordOf_fieldsOf (w : Word) : wordOf (fieldsOf w) = w := by
  apply BitVec.eq_of_getLsbD_eq
  intro i hi
  simp only [getLsbD_wordOf, fieldsOf, opcodeOf, midOf, imm8Of, BitVec.getLsbD_extractLsb']
  split
  · simp [*]
  · split
    · simp [show i - 8 < 16 by omega, show 8 + (i - 8) = i by omega]
    · simp [show i - 24 < 8 by omega, show 24 + (i - 24) = i by omega]

@[simp] theorem fieldsOf_wordOf (f : CommandFields) : fieldsOf (wordOf f) = f := by
  simp [fieldsOf]

@[simp] theorem opcodeOf_encode (i : Instr) : opcodeOf (encode i) = i.opcode := by simp [encode]

/-- The opcode map's command has the opcode it was looked up by. -/
theorem instrOf_opcode (op imm8 : Byte) (i : Instr) (h : instrOf op imm8 = some i) : i.opcode = op := by
  unfold instrOf at h
  apply BitVec.eq_of_toNat_eq
  split at h
  case h_13 => cases h
  all_goals
    rename_i e
    cases h
    rw [e]
    rfl

/-- An opcode has a format exactly when it has a command. -/
theorem formatOf_isSome (op imm8 : Byte) : (formatOf op).isSome = (instrOf op imm8).isSome := by
  unfold formatOf instrOf
  split <;> simp_all

/-- A word the decoder reads has the opcode of the command it is read as. -/
theorem decode_instr_opcode {w : Word} {i : Instr} (h : decode w = .instr i) : opcodeOf w = i.opcode := by
  unfold decode at h
  split at h
  · cases h
  · rename_i j hj
    split at h
    · cases h
      exact (instrOf_opcode _ _ _ hj).symm
    · cases h

end Sys2Proof
end

