-- ==== Sys2Proof/Laws/Exec.lean ====
section
/-! SUPPORT. A command is R103's checks around its own rule; what each own rule can answer; what BUILD's tree construction leaves
alone. -/

namespace Sys2Proof.Machine

/-! ## Fields the tree construction does not touch -/

/-- Two states that differ in the arena, `nnodes`, `root` and the queue alone. -/
structure SameButTree (s t : State) : Prop where
  eq : t = { s with node := t.node, nnodes := t.nnodes, root := t.root, pq := t.pq, seq := t.seq }

theorem SameButTree.refl (s : State) : SameButTree s s := ⟨rfl⟩

theorem SameButTree.trans {s t u : State} (h : SameButTree s t) (h' : SameButTree t u) : SameButTree s u := by
  constructor
  rw [h'.eq, h.eq]

theorem sameButTree_addNode (n : TreeNode) (s : State) : SameButTree s (addNode n s) := by
  unfold addNode pqInsert setNode
  constructor
  dsimp only
  split <;> rfl

theorem sameButTree_pqRemoveMin (s : State) : SameButTree s (pqRemoveMin s).2 := by
  unfold pqRemoveMin
  constructor
  split <;> rfl

theorem sameButTree_insertLeaf (s : State) (x : Sym) : SameButTree s (insertLeaf s x) := by
  unfold insertLeaf
  split
  · exact .refl s
  · exact sameButTree_addNode _ s

theorem sameButTree_foldl_insertLeaf (xs : List Sym) (s : State) : SameButTree s (xs.foldl insertLeaf s) := by
  induction xs generalizing s with
  | nil => exact .refl s
  | cons x xs ih => exact (sameButTree_insertLeaf s x).trans (ih _)

theorem sameButTree_mergeOnce (s : State) : SameButTree s (mergeOnce s) :=
  ((sameButTree_pqRemoveMin s).trans (sameButTree_pqRemoveMin _)).trans (sameButTree_addNode _ _)

theorem sameButTree_mergeLoop (fuel : Nat) (s : State) : SameButTree s (mergeLoop fuel s) := by
  induction fuel generalizing s with
  | zero => exact .refl s
  | succ fuel ih =>
    unfold mergeLoop
    split
    · exact (sameButTree_mergeOnce s).trans (ih _)
    · exact .refl s

theorem sameButTree_takeRoot (s : State) : SameButTree s (takeRoot s) := by
  have h := sameButTree_pqRemoveMin s
  constructor
  show { (pqRemoveMin s).2 with root := (pqRemoveMin s).1.handle } = _
  rw [h.eq]
  rfl

theorem sameButTree_buildTree (s : State) : SameButTree s (buildTree s) :=
  (((show SameButTree s (buildStart s) from ⟨rfl⟩).trans (sameButTree_foldl_insertLeaf allSyms _)).trans
    (sameButTree_mergeLoop _ _)).trans (sameButTree_takeRoot _)

/-! ## Each command's own rule -/

/-- The rule R103 step 4 runs for a command, without the checks before it. -/
def ownRule : Instr → State → Answer
  | .nop => fun s => .next s
  | .sreset => fun s => .next (hardReset s)
  | .clrerr => returnFromError
  | .fsym x => fun s =>
    if freqAt s x = 0xFFFFFFFF then raise .weightOverflow (zext32 x) s else .next (setFreq s x (freqAt s x + 1))
  | .build => fun s =>
    if freqEmpty s then raise .invalidInput 0 s
    else if freqSum s > Config.maxCount then raise .weightOverflow 0x00000100 s
    else .next (acceptTree (buildTree s))
  | .tload => fun s =>
    if validTree s.root s.nnodes s.node then .next (acceptTree s) else raise .corruptArtifact 0 s
  | .estart => fun s => .next { setPacker s Packer.zero with phase := .enc }
  | .esym x => fun s =>
    if (codeAt s x).len = 0 then raise .unknownSymbol (zext32 x) (setPacker s Packer.zero)
    else emitBytes (packBits (packerOf s) (codeseq (codeAt s x))).2
      (setPacker s (packBits (packerOf s) (codeseq (codeAt s x))).1)
  | .eend => fun s => emitBytes (flushBytes (packerOf s)) { setPacker s Packer.zero with phase := .ready }
  | .dstart => fun s => .next { setReader s { byte := 0, cnt := 0, cur := s.root } with phase := .dec }
  | .dbyte b => fun s =>
    match walkBits s.node s.root 8 { byte := b, cnt := 8, cur := s.cur } with
    | none => .fault .noSuchNode
    | some (r, syms) => emitSyms syms (setReader s r)
  | .dend => fun s => .next { s with phase := .ready }

/-- Every command is R103's checks around its own rule. -/
theorem exec_eq (i : Instr) (s : State) : exec i s = dispatchChecks i s (ownRule i) := by
  cases i <;> rfl

/-- With a clear latch and in a legal phase a command is its own rule. -/
theorem exec_own {i : Instr} {s : State} (he : s.err = .none) (hp : legalIn i s.phase = true) :
    exec i s = ownRule i s := by
  rw [exec_eq, dispatchChecks_own he hp]

/-- Everything a command can do (R103): be rejected, raise ILLEGAL_CMD, or run its own rule. -/
theorem exec_cases (i : Instr) (s : State) :
    (s.err ≠ .none ∧ passesLatch i.opcode = false ∧ exec i s = .next s) ∨
    (s.err = .none ∧ legalIn i s.phase = false ∧ exec i s = .next { s with err := .illegalCmd, errinfo := encode i }) ∨
    ((s.err = .none ∨ i = .sreset ∨ i = .clrerr) ∧ legalIn i s.phase = true ∧ exec i s = ownRule i s) := by
  have hpass : passesLatch i.opcode = true → i = .sreset ∨ i = .clrerr := by
    cases i <;> simp [passesLatch, Instr.opcode]
  rw [exec_eq]
  rcases dispatchChecks_cases i s (ownRule i) with h | ⟨h1, h2, h3⟩ | ⟨h1, h2, h3⟩
  · exact .inl h
  · refine .inr (.inl ?_)
    rcases h1 with h1 | h1
    · exact ⟨h1, h2, by rw [h3, raise_of_clear h1, phaseAfter]⟩
    · rcases hpass h1 with rfl | rfl <;> cases h2
  · exact .inr (.inr ⟨h1.imp_right hpass, h2, h3⟩)

end Sys2Proof.Machine
end

