-- ==== Sys2Proof/Laws/PerInstr.lean ====
section
/-! SUPPORT. The per-instruction family OpcodeRow: a command's word against its row of 30_encoding.md R94, one lemma a
constructor. -/

namespace Sys2Proof.Laws.OpcodeRow

/-- The row's mask (R94): all bits for format C0, bits 31:8 for C1. -/
def mask : Instr → Word
  | .nop => 0xFFFFFFFF
  | .sreset => 0xFFFFFFFF
  | .clrerr => 0xFFFFFFFF
  | .fsym _ => 0xFFFFFF00
  | .build => 0xFFFFFFFF
  | .tload => 0xFFFFFFFF
  | .estart => 0xFFFFFFFF
  | .esym _ => 0xFFFFFF00
  | .eend => 0xFFFFFFFF
  | .dstart => 0xFFFFFFFF
  | .dbyte _ => 0xFFFFFF00
  | .dend => 0xFFFFFFFF

/-- The row's match (R94). -/
def pattern : Instr → Word
  | .nop => 0x00000000
  | .sreset => 0x01000000
  | .clrerr => 0x02000000
  | .fsym _ => 0x10000000
  | .build => 0x11000000
  | .tload => 0x12000000
  | .estart => 0x20000000
  | .esym _ => 0x21000000
  | .eend => 0x22000000
  | .dstart => 0x30000000
  | .dbyte _ => 0x31000000
  | .dend => 0x32000000

/-- The command's word is selected by its own row: `w & mask == match` (R94). -/
def Statement (i : Instr) : Prop := encode i &&& mask i = pattern i

theorem nop : Statement .nop := by unfold Statement; decide
theorem sreset : Statement .sreset := by unfold Statement; decide
theorem clrerr : Statement .clrerr := by unfold Statement; decide
theorem fsym (x : Sym) : Statement (.fsym x) := by
  unfold Statement
  revert x
  decide
theorem build : Statement .build := by unfold Statement; decide
theorem tload : Statement .tload := by unfold Statement; decide
theorem estart : Statement .estart := by unfold Statement; decide
theorem esym (x : Sym) : Statement (.esym x) := by
  unfold Statement
  revert x
  decide
theorem eend : Statement .eend := by unfold Statement; decide
theorem dstart : Statement .dstart := by unfold Statement; decide
theorem dbyte (x : Byte) : Statement (.dbyte x) := by
  unfold Statement
  revert x
  decide
theorem dend : Statement .dend := by unfold Statement; decide

end Sys2Proof.Laws.OpcodeRow
end

