-- ==== Sys2Proof/Laws/Run.lean ====
section
/-! SUPPORT. Commands neither read nor write the queue of accesses and the responses; so the run of a list of commands over the
bus is the commands one after another, with one OKAY response each. -/

namespace Sys2Proof.Machine

/-- The queue of accesses and the responses replaced. -/
def withHost (q : List HostOp) (r : List BusResponse) (s : State) : State := { s with hostQueue := q, responses := r }

/-- A map over the next state of an answer. -/
def mapNext (f : State → State) : Answer → Answer
  | .next t => .next (f t)
  | .fault r => .fault r
  | .refused r => .refused r

theorem withHost_self (s : State) : withHost s.hostQueue s.responses s = s := rfl

@[simp] theorem withHost_withHost (q q' : List HostOp) (r r' : List BusResponse) (s : State) :
    withHost q r (withHost q' r' s) = withHost q r s := rfl

section
variable (q : List HostOp) (r : List BusResponse)

theorem raise_withHost (e : Err) (info : Word) (s : State) :
    raise e info (withHost q r s) = mapNext (withHost q r) (raise e info s) := by
  unfold raise setErr
  by_cases h : s.err = .none <;> simp [withHost, mapNext, h]

theorem pqInsert_withHost (h : Handle) (w : Word) (s : State) :
    pqInsert h w (withHost q r s) = withHost q r (pqInsert h w s) := by
  unfold pqInsert
  have : freeSlot (withHost q r s) = freeSlot s := rfl
  rw [this]
  split <;> rfl

theorem pqRemoveMin_withHost (s : State) :
    pqRemoveMin (withHost q r s) = ((pqRemoveMin s).1, withHost q r (pqRemoveMin s).2) := by
  unfold pqRemoveMin
  have : (withHost q r s).pq = s.pq := rfl
  rw [this]
  split <;> rfl

theorem addNode_withHost (n : TreeNode) (s : State) : addNode n (withHost q r s) = withHost q r (addNode n s) := by
  unfold addNode
  have : setNode (withHost q r s) (withHost q r s).nnodes.toNat n = withHost q r (setNode s s.nnodes.toNat n) := rfl
  rw [this, pqInsert_withHost]
  rfl

theorem insertLeaf_withHost (s : State) (x : Sym) : insertLeaf (withHost q r s) x = withHost q r (insertLeaf s x) := by
  unfold insertLeaf
  have : freqAt (withHost q r s) x = freqAt s x := rfl
  rw [this]
  split
  · rfl
  · exact addNode_withHost q r _ s

theorem foldl_insertLeaf_withHost (xs : List Sym) (s : State) :
    xs.foldl insertLeaf (withHost q r s) = withHost q r (xs.foldl insertLeaf s) := by
  induction xs generalizing s with
  | nil => rfl
  | cons x xs ih => rw [List.foldl_cons, insertLeaf_withHost, ih, List.foldl_cons]

theorem mergeOnce_withHost (s : State) : mergeOnce (withHost q r s) = withHost q r (mergeOnce s) := by
  unfold mergeOnce
  simp only [pqRemoveMin_withHost, addNode_withHost]

theorem mergeLoop_withHost (fuel : Nat) (s : State) :
    mergeLoop fuel (withHost q r s) = withHost q r (mergeLoop fuel s) := by
  induction fuel generalizing s with
  | zero => rfl
  | succ fuel ih =>
    unfold mergeLoop
    have : validCount (withHost q r s) = validCount s := rfl
    rw [this]
    split
    · rw [mergeOnce_withHost, ih]
    · rfl

theorem takeRoot_withHost (s : State) : takeRoot (withHost q r s) = withHost q r (takeRoot s) := by
  unfold takeRoot
  simp only [pqRemoveMin_withHost]
  rfl

theorem buildTree_withHost (s : State) : buildTree (withHost q r s) = withHost q r (buildTree s) := by
  unfold buildTree insertLeaves
  have : buildStart (withHost q r s) = withHost q r (buildStart s) := rfl
  rw [this, foldl_insertLeaf_withHost, mergeLoop_withHost, takeRoot_withHost]

theorem acceptTree_withHost (s : State) : acceptTree (withHost q r s) = withHost q r (acceptTree s) := rfl

theorem emitBytes_withHost (bs : List Byte) (s : State) :
    emitBytes bs (withHost q r s) = mapNext (withHost q r) (emitBytes bs s) := by
  unfold emitBytes
  have : (withHost q r s).byteSink = s.byteSink := rfl
  rw [this]
  split <;> rfl

theorem emitSyms_withHost (xs : List Sym) (s : State) :
    emitSyms xs (withHost q r s) = mapNext (withHost q r) (emitSyms xs s) := by
  unfold emitSyms
  have : (withHost q r s).symSink = s.symSink := rfl
  rw [this]
  split <;> rfl

theorem ownRule_withHost (i : Instr) (s : State) :
    ownRule i (withHost q r s) = mapNext (withHost q r) (ownRule i s) := by
  cases i with
  | nop => rfl
  | sreset =>
    simp only [ownRule, mapNext, hardReset, withHost]
  | clrerr => rfl
  | fsym x =>
    simp only [ownRule]
    have : freqAt (withHost q r s) x = freqAt s x := rfl
    rw [this, raise_withHost]
    split <;> rfl
  | build =>
    simp only [ownRule]
    have h1 : freqEmpty (withHost q r s) = freqEmpty s := rfl
    have h2 : freqSum (withHost q r s) = freqSum s := rfl
    rw [h1, h2, raise_withHost, raise_withHost, buildTree_withHost, acceptTree_withHost]
    split
    · rfl
    · split
      · rfl
      · simp only [mapNext]
  | tload =>
    simp only [ownRule]
    have : validTree (withHost q r s).root (withHost q r s).nnodes (withHost q r s).node =
        validTree s.root s.nnodes s.node := rfl
    rw [this, raise_withHost]
    split <;> rfl
  | estart => rfl
  | esym x =>
    simp only [ownRule]
    have h1 : codeAt (withHost q r s) x = codeAt s x := rfl
    have h2 : packerOf (withHost q r s) = packerOf s := rfl
    have h3 : ∀ p, setPacker (withHost q r s) p = withHost q r (setPacker s p) := fun _ => rfl
    rw [h1, h2, h3, h3, raise_withHost, emitBytes_withHost]
    split <;> rfl
  | eend => exact emitBytes_withHost q r _ { setPacker s Packer.zero with phase := .ready }
  | dstart => rfl
  | dbyte b =>
    simp only [ownRule]
    have h1 : (withHost q r s).node = s.node := rfl
    have h2 : (withHost q r s).root = s.root := rfl
    have h3 : (withHost q r s).cur = s.cur := rfl
    have h4 : ∀ p, setReader (withHost q r s) p = withHost q r (setReader s p) := fun _ => rfl
    rw [h1, h2, h3]
    split
    · rfl
    · rw [h4, emitSyms_withHost]
  | dend => rfl

/-- A command neither reads nor writes the queue of accesses and the responses. -/
theorem exec_withHost (i : Instr) (s : State) : exec i (withHost q r s) = mapNext (withHost q r) (exec i s) := by
  rw [exec_eq, exec_eq]
  unfold dispatchChecks
  have h1 : (withHost q r s).err = s.err := rfl
  have h2 : (withHost q r s).phase = s.phase := rfl
  rw [h1, h2, ownRule_withHost, raise_withHost]
  split
  · rfl
  · split <;> rfl

end

/-- A command leaves the queue of accesses and the responses alone. -/
theorem exec_host {i : Instr} {s t : State} (h : exec i s = .next t) :
    t.hostQueue = s.hostQueue ∧ t.responses = s.responses := by
  have := exec_withHost s.hostQueue s.responses i s
  rw [withHost_self, h] at this
  simp only [mapNext, Host.Outcome.next.injEq] at this
  rw [this]
  exact ⟨rfl, rfl⟩

/-! ## Runs -/

/-- Commands one after another, to the first that does not go on. -/
def execAll : List Instr → State → Answer
  | [], s => .next s
  | i :: is, s =>
    match exec i s with
    | .next t => execAll is t
    | .fault f => .fault f
    | .refused r => .refused r

theorem execAll_append (is js : List Instr) (s : State) :
    execAll (is ++ js) s =
      match execAll is s with
      | .next t => execAll js t
      | .fault f => .fault f
      | .refused r => .refused r := by
  induction is generalizing s with
  | nil => rfl
  | cons i is ih =>
    simp only [List.cons_append, execAll]
    cases exec i s with
    | next t => exact ih t
    | fault f => rfl
    | refused r => rfl

/-- The word of a command is read as that command: what a CMD write of it does. -/
theorem runCommandWord_encode (i : Instr) (s : State) : runCommandWord (encode i) s = exec i s := by
  unfold runCommandWord
  cases i <;>
    simp [decode, encode, instrOf, formatOf, Instr.opcode, Instr.low, CommandFields.wellFormed,
      CommandFields.zeroFieldOk]

/-- The step that performs a command's CMD write. -/
theorem step_commandOp {s : State} {i : Instr} {rest : List HostOp} (h : s.hostQueue = commandOp i :: rest) :
    step s = answerWith (.write .okay) (exec i { s with hostQueue := rest }) := by
  rw [step_cons h]
  simp only [commandOp, commandWrite, performOp, writeWord, busWordAt, registerAt]
  simp [runCommandWord_encode]

theorem run_zero (s : State) : Sys2Proof.core.run 0 s = .next s := rfl

theorem coreRun_succ (M : Host.Core) (n : Nat) (s : M.State) :
    M.run (n + 1) s =
      match M.step s with
      | .next t => M.run n t
      | .fault f => .fault f
      | .refused r => .refused r := rfl

theorem run_succ (n : Nat) (s : State) :
    Sys2Proof.core.run (n + 1) s =
      match step s with
      | .next t => Sys2Proof.core.run n t
      | .fault f => .fault f
      | .refused r => .refused r := by
  have h := coreRun_succ Sys2Proof.core n s
  cases hs : step s with
  | next t =>
    rw [show Sys2Proof.core.step s = .next t from hs] at h
    exact h
  | fault f =>
    rw [show Sys2Proof.core.step s = .fault f from hs] at h
    exact h
  | refused r =>
    rw [show Sys2Proof.core.step s = .refused r from hs] at h
    exact h

theorem run_add (n m : Nat) (s : State) :
    Sys2Proof.core.run (n + m) s =
      match Sys2Proof.core.run n s with
      | .next t => Sys2Proof.core.run m t
      | .fault f => .fault f
      | .refused r => .refused r := by
  induction n generalizing s with
  | zero => simp [run_zero]
  | succ n ih =>
    rw [show n + 1 + m = (n + m) + 1 by omega, run_succ, run_succ]
    cases step s with
    | next t => exact ih t
    | fault f => rfl
    | refused r => rfl

/-- The run of commands over the bus is the commands one after another, with one OKAY response each. -/
theorem run_commands (is : List Instr) (s t : State) (rest : List HostOp) (h : execAll is s = .next t) :
    Sys2Proof.core.run is.length (withHost (is.map commandOp ++ rest) s.responses s) =
      .next (withHost rest (s.responses ++ List.replicate is.length (.write .okay)) t) := by
  have gen : ∀ (is : List Instr) (r : List BusResponse) (s : State), execAll is s = .next t →
      Sys2Proof.core.run is.length (withHost (is.map commandOp ++ rest) r s) =
        .next (withHost rest (r ++ List.replicate is.length (.write .okay)) t) := by
    intro is
    induction is with
    | nil =>
      intro r s h
      cases h
      simp [run_zero]
    | cons i is ih =>
      intro r s h
      simp only [execAll] at h
      cases hi : exec i s with
      | fault f =>
        rw [hi] at h
        cases h
      | refused f =>
        rw [hi] at h
        cases h
      | next u =>
        rw [hi] at h
        rw [List.length_cons, run_succ, step_commandOp (rest := is.map commandOp ++ rest) rfl]
        have he := exec_withHost (is.map commandOp ++ rest) r i s
        rw [hi] at he
        have he' : exec i { withHost ((i :: is).map commandOp ++ rest) r s with
            hostQueue := is.map commandOp ++ rest } = .next (withHost (is.map commandOp ++ rest) r u) := he
        rw [he']
        have := ih (r ++ [.write .okay]) u h
        rw [List.append_assoc] at this
        exact this
  exact gen is s.responses s h

end Sys2Proof.Machine
end

