-- ==== Sys2Proof/Laws/Walk.lean ====
section
/-! SUPPORT. The tree walk from a state with the invariant (42_decoder.md R163, R164, R168), and the left alignment of every code
ROM entry GenCodes writes (10_state.md R26). -/

namespace Sys2Proof.Machine

open Sys2Proof.Safety

/-! ## GenCodes writes aligned entries -/

/-- Every entry is left-aligned: the positions below its code bits are 0 (R26). -/
def romAlignedOf (rom : CodeRom) : Prop :=
  ∀ x : Sym, ∀ j, j < 256 - (romAt rom x).len.toNat → (romAt rom x).bits.getLsbD j = false

theorem emptyRom_aligned : romAlignedOf emptyRom := by
  intro x j _
  simp [CodeEntry.none]

theorem setCode_aligned {rom : CodeRom} (h : romAlignedOf rom) (x : Sym) {p : List Bool} (hp : p.length ≤ 255) :
    romAlignedOf (setCode rom x (entryOf p)) := by
  intro y j hj
  rw [romAt_setCode] at hj ⊢
  split at hj <;> rename_i hxy
  · rw [if_pos hxy]; exact entryOf_aligned hp hj
  · rw [if_neg hxy]; exact h y j hj

theorem visit_aligned (arena : Arena) (fuel : Nat) (h : Handle) (p : List Bool) {rom : CodeRom} (hr : romAlignedOf rom)
    (hp : p.length + fuel ≤ 256) : romAlignedOf (visit arena fuel h p rom) := by
  induction fuel generalizing h p rom with
  | zero => exact hr
  | succ fuel ih =>
    unfold visit
    split
    · exact hr
    · split
      · exact setCode_aligned hr _ (by omega)
      · exact ih _ _ (ih _ _ hr (by simp; omega)) (by simp; omega)

/-- R26's left alignment, for the code ROM of any arena. -/
theorem genCodes_aligned (root : Handle) (arena : Arena) : romAlignedOf (genCodes root arena) := by
  unfold genCodes
  split
  · exact emptyRom_aligned
  · split
    · exact setCode_aligned emptyRom_aligned _ (by simp)
    · exact visit_aligned _ _ _ _ emptyRom_aligned (by simp)

/-! ## The walk -/

/-- One step keeps the cursor below `nnodes` and off the leaves (R45(f)), and is defined (R168). -/
theorem walk_of_validTree {root : Handle} {nnodes : BitVec 10} {arena : Arena} (hv : validTree root nnodes arena = true)
    {cur : Handle} (hc : cur.toNat < nnodes.toNat)
    (hci : ∀ r n, nodeAt arena root = some r → r.leaf = false → nodeAt arena cur = some n → n.leaf = false) (b : Bool) :
    ∃ c out, walk arena root cur b = some (c, out) ∧ c.toNat < nnodes.toNat ∧
      ∀ r n, nodeAt arena root = some r → r.leaf = false → nodeAt arena c = some n → n.leaf = false := by
  obtain ⟨h1, h2, h3, -⟩ := (validTree_iff _ _ _).1 hv
  have hnode : ∀ h : Handle, h.toNat < nnodes.toNat → ∃ n, nodeAt arena h = some n := fun h hh =>
    ⟨arena[h.toNat]'(by omega), by simp [nodeAt]⟩
  obtain ⟨r, hr⟩ := hnode _ h3
  cases hl : r.leaf with
  | true => exact ⟨cur, if b then some r.sym else none, by simp [walk, hr, hl], hc, hci⟩
  | false =>
    obtain ⟨n, hn⟩ := hnode _ hc
    obtain ⟨a1, a2, ⟨l, hl'⟩, ⟨r', hr'⟩⟩ := validTree_children hv hc hn (hci r n hr hl hn)
    have key : ∀ (ch : Handle) (m : TreeNode), ch.toNat < nnodes.toNat → nodeAt arena ch = some m →
        ∃ c out, (if m.leaf then some (root, some m.sym) else some (ch, none)) = some (c, out) ∧
          c.toNat < nnodes.toNat ∧
          ∀ r n, nodeAt arena root = some r → r.leaf = false → nodeAt arena c = some n → n.leaf = false := by
      intro ch m hch hm
      cases hml : m.leaf with
      | true =>
        refine ⟨root, some m.sym, by simp, h3, fun r2 n2 q1 q2 q3 => ?_⟩
        rw [q1] at q3
        cases q3
        exact q2
      | false =>
        refine ⟨ch, none, by simp, hch, fun r2 n2 _ _ q3 => ?_⟩
        rw [hm] at q3
        cases q3
        exact hml
    cases b with
    | false => simpa [walk, hr, hl, hn, hl'] using key n.left l a1 hl'
    | true => simpa [walk, hr, hl, hn, hr'] using key n.right r' a2 hr'

/-- The walk of any bit sequence is defined, emits at most one symbol a bit, and keeps R45(f). -/
theorem walkSeq_of_validTree {root : Handle} {nnodes : BitVec 10} {arena : Arena}
    (hv : validTree root nnodes arena = true) (bits : List Bool) {cur : Handle} (hc : cur.toNat < nnodes.toNat)
    (hci : ∀ r n, nodeAt arena root = some r → r.leaf = false → nodeAt arena cur = some n → n.leaf = false) :
    ∃ c outs, walkSeq arena root cur bits = some (c, outs) ∧ outs.length ≤ bits.length ∧ c.toNat < nnodes.toNat ∧
      ∀ r n, nodeAt arena root = some r → r.leaf = false → nodeAt arena c = some n → n.leaf = false := by
  induction bits generalizing cur with
  | nil => exact ⟨cur, [], rfl, by simp, hc, hci⟩
  | cons b bits ih =>
    obtain ⟨c, out, hw, hc', hci'⟩ := walk_of_validTree hv hc hci b
    obtain ⟨c', outs, hw', hlen, rest⟩ := ih hc' hci'
    refine ⟨c', out.toList ++ outs, by simp [walkSeq, hw, hw'], ?_, rest⟩
    cases out <;> simp <;> omega

/-- The bit that RBIT delivers and the byte it leaves (R162). -/
theorem rbit_eq (byte : Byte) (cnt : BitVec 4) : rbit byte cnt = (byte.getLsbD 7, byte <<< 1, cnt - 1) := by
  have h : byte.extractLsb' 0 7 ++ (0 : BitVec 1) = byte <<< 1 := by
    revert byte; decide
  rw [rbit, h]

theorem byteBits_cons (b : Byte) : (byteBits b).take 8 = b.getLsbD 7 :: ((byteBits (b <<< 1)).take 7) := by
  revert b; decide

theorem byteBits_take_shift (b : Byte) (k : Nat) (hk : k < 8) :
    (byteBits b).take (k + 1) = b.getLsbD 7 :: (byteBits (b <<< 1)).take k := by
  have h := congrArg (List.take (k + 1)) (byteBits_cons b)
  rw [List.take_take, Nat.min_eq_left (by omega), List.take_succ_cons, List.take_take, Nat.min_eq_left (by omega)] at h
  exact h

/-- `k` times RBIT and WALK are the walk of the byte's first `k` bits (R161). -/
theorem walkBits_eq (arena : Arena) (root : Handle) (k : Nat) (r : Reader) (hk : k ≤ 8) :
    walkBits arena root k r =
      (walkSeq arena root r.cur ((byteBits r.byte).take k)).map fun w =>
        ({ byte := r.byte <<< k, cnt := r.cnt - BitVec.ofNat 4 k, cur := w.1 }, w.2) := by
  induction k generalizing r with
  | zero => simp [walkBits, walkSeq]
  | succ k ih =>
    rw [byteBits_take_shift _ _ (by omega)]
    simp only [walkBits, rbit_eq, walkSeq]
    cases hw : walk arena root r.cur (r.byte.getLsbD 7) with
    | none => rfl
    | some co =>
      obtain ⟨c, out⟩ := co
      simp only
      rw [ih _ (by omega)]
      simp only
      cases walkSeq arena root c ((byteBits (r.byte <<< 1)).take k) with
      | none => rfl
      | some w =>
        have h1 : r.byte <<< 1 <<< k = r.byte <<< (k + 1) := by
          rw [Nat.add_comm]; exact (BitVec.shiftLeft_add r.byte 1 k).symm
        have h2 : r.cnt - 1 - BitVec.ofNat 4 k = r.cnt - BitVec.ofNat 4 (k + 1) := by
          rw [BitVec.ofNat_add, BitVec.sub_sub, BitVec.add_comm]
          rfl
        simp only [Option.map_some, h1, h2]

end Sys2Proof.Machine
end

