-- ==== Sys2Proof/Tests/Slice0.lean ====
section
/-! SUPPORT. Small tests: words and values taken from 30_encoding.md and 95_test_vectors.md (the vector is named where there is
one), and for each obligation with hypotheses a concrete state that meets them. -/

namespace Sys2Proof.Tests

-- One theorem after the other: the kernel's evaluations, side by side, pass the sandbox's limit on threads.
set_option Elab.async false

open Sys2Proof Sys2Proof.Machine Sys2Proof.Safety

/-! ## Helpers -/

/-- The answer is a next state of which `p` holds. -/
def nextAnd (a : Answer) (p : State → Bool) : Bool :=
  match a with
  | .next t => p t
  | .fault _ => false
  | .refused _ => false

theorem exists_next {a : Answer} {p : State → Bool} (h : nextAnd a p = true) : ∃ t, a = .next t ∧ p t = true := by
  cases a with
  | next t => exact ⟨t, rfl, h⟩
  | fault f => cases h
  | refused r => cases h

def leafNode (x : Sym) (w : Word) : TreeNode := { leaf := true, sym := x, weight := w, left := 0, right := 0 }
def innerNode (w : Word) (l r : Handle) : TreeNode := { leaf := false, sym := 0, weight := w, left := l, right := r }

/-- An arena that begins with these nodes, zero from there on. -/
def arenaOf (ns : List TreeNode) : Arena := Vector.ofFn fun i : Fin 511 => ns.getD i.val TreeNode.zero

/-- The state in EMPTY whose host has written this arena. -/
def loaded (ns : List TreeNode) (root : Handle) : State :=
  { State.reset with node := arenaOf ns, nnodes := BitVec.ofNat 10 ns.length, root := root }

/-- The same tree accepted, in the phase `p`, with the cursor at `cur` and these accesses waiting. -/
def accepted (p : Phase) (cur : Handle) (q : List HostOp) (ns : List TreeNode) (root : Handle) : State :=
  { loaded ns root with phase := p, cur := cur, hostQueue := q, code := genCodes root (arenaOf ns) }

/-- Vector V6: codes a = `0`, b = `10`, c = `11`. -/
def tree6 : List TreeNode :=
  [leafNode 0x61 1, leafNode 0x62 1, leafNode 0x63 1, innerNode 2 1 2, innerNode 3 0 3]

/-- Vector T2: the tree of V6 under another numbering. -/
def tree6b : List TreeNode :=
  [innerNode 3 1 2, leafNode 0x61 1, innerNode 2 3 4, leafNode 0x62 1, leafNode 0x63 1]

/-- Vector V3's arena: codes a = `0`, b = `11`, c = `10`. -/
def tree3 : List TreeNode :=
  [leafNode 0x61 3, leafNode 0x62 2, leafNode 0x63 1, innerNode 3 2 1, innerNode 6 0 3]

def ready6 : State := accepted .ready 0 [] tree6 4
def enc6 : State := accepted .enc 0 [] tree6 4
def dec6 : State := accepted .dec 4 [] tree6 4
def lone : State := accepted .ready 0 [] [leafNode 0x61 4] 0
def enc3 : State := accepted .enc 0 [] tree3 4
def failed : State := { State.reset with err := .illegalCmd, errinfo := 1 }

/-- EMPTY with these counts. -/
def counted (l : List (Sym × Word)) : State := l.foldl (fun s e => setFreq s e.1 e.2) State.reset

def withNext (op : HostOp) (s : State) : State := { s with hostQueue := [op] }

/-! ## WellFormed: a word with an ill-formed field is refused, whichever check it fails -/

theorem test_wellFormed_reserved_opcode : CommandFields.wellFormed { opcode := 0x03, mid := 0, low := 0 } none = false := by
  decide
theorem test_wellFormed_c0_low : CommandFields.wellFormed { opcode := 0x00, mid := 0, low := 1 } (some .c0) = false := by
  decide
theorem test_wellFormed_c0_mid : CommandFields.wellFormed { opcode := 0x11, mid := 0x8000, low := 0 } (some .c0) = false := by
  decide
theorem test_wellFormed_c1_mid : CommandFields.wellFormed { opcode := 0x10, mid := 1, low := 0x61 } (some .c1) = false := by
  decide
theorem test_wellFormed_c1_ok : CommandFields.wellFormed { opcode := 0x10, mid := 0, low := 0xFF } (some .c1) = true := by
  decide

/-! ## Decoding: R91, R92, R94, bit by bit (opcode, the middle sixteen bits, the low eight) -/

theorem test_decode_nop : decode (0b00000000#8 ++ 0b0000000000000000#16 ++ 0b00000000#8) = .instr .nop := by decide
theorem test_decode_sreset : decode (0b00000001#8 ++ 0b0000000000000000#16 ++ 0b00000000#8) = .instr .sreset := by decide
theorem test_decode_clrerr : decode (0b00000010#8 ++ 0b0000000000000000#16 ++ 0b00000000#8) = .instr .clrerr := by decide
theorem test_decode_fsym : decode (0b00010000#8 ++ 0b0000000000000000#16 ++ 0b01100001#8) = .instr (.fsym 0x61) := by decide
theorem test_decode_build : decode (0b00010001#8 ++ 0b0000000000000000#16 ++ 0b00000000#8) = .instr .build := by decide
theorem test_decode_tload : decode (0b00010010#8 ++ 0b0000000000000000#16 ++ 0b00000000#8) = .instr .tload := by decide
theorem test_decode_estart : decode (0b00100000#8 ++ 0b0000000000000000#16 ++ 0b00000000#8) = .instr .estart := by decide
theorem test_decode_esym : decode (0b00100001#8 ++ 0b0000000000000000#16 ++ 0b11111110#8) = .instr (.esym 0xFE) := by decide
theorem test_decode_eend : decode (0b00100010#8 ++ 0b0000000000000000#16 ++ 0b00000000#8) = .instr .eend := by decide
theorem test_decode_dstart : decode (0b00110000#8 ++ 0b0000000000000000#16 ++ 0b00000000#8) = .instr .dstart := by decide
theorem test_decode_dbyte : decode (0b00110001#8 ++ 0b0000000000000000#16 ++ 0b01011000#8) = .instr (.dbyte 0x58) := by decide
theorem test_decode_dend : decode (0b00110010#8 ++ 0b0000000000000000#16 ++ 0b00000000#8) = .instr .dend := by decide

/-- S4, S6: reserved opcodes. -/
theorem test_decode_reserved :
    decode 0x03000000 = .reject .reservedOpcode ∧ decode 0xFF000000 = .reject .reservedOpcode := by decide
/-- S3, S5, S9: reserved bits. -/
theorem test_decode_zero_field :
    decode 0x00000001 = .reject .nonzeroZeroField ∧ decode 0x10000161 = .reject .nonzeroZeroField ∧
    decode 0x02000001 = .reject .nonzeroZeroField := by decide
/-- R101: `ESYM 'a'` is 0x21000061. -/
theorem test_encode_esym : encode (.esym 0x61) = 0x21000061 := by decide
theorem test_decodeTableWord :
    decodeTableWord 32 0x100000FF = some (.fsym 0xFF) ∧ decodeTableWord 32 0x03000000 = none := by decide

/-! ## The first command after reset -/

/-- F1 through `withFetchWord`. -/
theorem test_withFetchWord_fsym :
    nextAnd (step (State.reset.withFetchWord 32 0x10000061)) (fun t => freqAt t 0x61 == 1 && t.hostQueue == []) = true := by
  decide +kernel
/-- B1 through `withFetchWord`. -/
theorem test_withFetchWord_build :
    nextAnd (step (State.reset.withFetchWord 32 0x11000000)) (fun t => t.err == .invalidInput && t.phase == .empty) = true := by
  decide +kernel

/-! ## System commands -/

/-- R180's example: NOP in ENC with `wcnt = 3`. -/
theorem test_nop : nextAnd (exec .nop { enc6 with wcnt := 3 }) (fun t => t.phase == .enc && t.wcnt == 3) = true := by
  decide +kernel
/-- S10. -/
theorem test_sreset : nextAnd (exec .sreset dec6)
    (fun t => statusWord t == 0 && nnodesWord t == 0 && rootWord t == 0 && cursorWord t == 0) = true := by decide +kernel
/-- S8. -/
theorem test_clrerr : nextAnd (exec .clrerr failed) (fun t => statusWord t == 0 && errinfoWord t == 0) = true := by
  decide +kernel
/-- S9: a malformed CLRERR is absorbed. -/
theorem test_clrerr_malformed : nextAnd (runCommandWord 0x02000001 failed)
    (fun t => statusWord t == 0x40 && errinfoWord t == 1) = true := by decide +kernel
/-- S7: rejected. -/
theorem test_rejected : nextAnd (runCommandWord 0x10000061 failed)
    (fun t => freqAt t 0x61 == 0 && statusWord t == 0x40 && errinfoWord t == 1) = true := by decide +kernel

/-! ## FSYM, BUILD, TLOAD -/

/-- F2. -/
theorem test_fsym : nextAnd (exec (.fsym 0x61) (counted [(0x61, 0xFFFFFFFE)]))
    (fun t => freqAt t 0x61 == 0xFFFFFFFF && statusWord t == 0) = true := by decide +kernel
/-- F3. -/
theorem test_fsym_overflow : nextAnd (exec (.fsym 0x61) (counted [(0x61, 0xFFFFFFFF)]))
    (fun t => freqAt t 0x61 == 0xFFFFFFFF && statusWord t == 0x50 && errinfoWord t == 0x61) = true := by decide +kernel
/-- V3: the arena, with the tie that makes `a` the left child of the root, and the code ROM. -/
theorem test_build : nextAnd (exec .build (counted [(0x61, 3), (0x62, 2), (0x63, 1)]))
    (fun t => statusWord t == 1 && t.nnodes == 5 && t.root == 4 && t.node.toList.take 5 == tree3 &&
      codeseq (codeAt t 0x61) == [false] && codeseq (codeAt t 0x62) == [true, true] &&
      codeseq (codeAt t 0x63) == [true, false] && codeAt t 0x64 == CodeEntry.none && t.phase == .ready) = true := by
  decide +kernel
/-- T2. -/
theorem test_tload : nextAnd (exec .tload (loaded tree6b 0))
    (fun t => statusWord t == 1 && codeseq (codeAt t 0x61) == [false] && codeseq (codeAt t 0x62) == [true, false] &&
      codeseq (codeAt t 0x63) == [true, true]) = true := by decide +kernel
/-- T3: a cycle. -/
theorem test_tload_cycle : nextAnd
    (exec .tload (loaded [leafNode 0x61 1, leafNode 0x62 1, leafNode 0x63 1, innerNode 2 1 4, innerNode 3 0 3] 4))
    (fun t => statusWord t == 0x30 && (codeAt t 0x61).len == 0) = true := by decide +kernel

/-! ## The encoder -/

/-- The table of WBIT, 95_test_vectors.md section 5, rows 1, 4, 5. -/
theorem test_wbit :
    wbit { acc := 0x00, cnt := 0 } true = ({ acc := 0x80, cnt := 1 }, none) ∧
    wbit { acc := 0x58, cnt := 5 } true = ({ acc := 0x5C, cnt := 6 }, none) ∧
    wbit { acc := 0x1E, cnt := 7 } true = ({ acc := 0x00, cnt := 0 }, some 0x1F) := by decide
/-- E1. -/
theorem test_estart : nextAnd (exec .estart ready6) (fun t => statusWord t == 2 && bwstateWord t == 0) = true := by
  decide +kernel
/-- E5, from the state E4 leaves. -/
theorem test_esym : nextAnd (exec (.esym 0x63) { enc3 with wacc := 0x1E, wcnt := 7 })
    (fun t => t.bytesOut == [0x1F] && bwstateWord t == 0x100 && statusWord t == 2) = true := by decide +kernel
/-- E8. -/
theorem test_esym_unknown : nextAnd (exec (.esym 0x7A) { enc3 with wcnt := 1 })
    (fun t => t.bytesOut == [] && bwstateWord t == 0 && statusWord t == 0x21 && errinfoWord t == 0x7A) = true := by
  decide +kernel
/-- R144's example. -/
theorem test_eend : nextAnd (exec .eend { enc6 with wacc := 0x58, wcnt := 5 })
    (fun t => t.bytesOut == [0x58] && bwstateWord t == 0 && statusWord t == 1) = true := by decide +kernel
/-- E7: nothing pending, nothing emitted. -/
theorem test_eend_empty : nextAnd (exec .eend enc6) (fun t => t.bytesOut == [] && statusWord t == 1) = true := by
  decide +kernel
/-- V2's bits `01011` and the payload R98 makes of them. -/
theorem test_payload : payload [false, true, false, true, true] = [0x58] := by decide

/-! ## The decoder -/

/-- RBIT, 95_test_vectors.md section 6. -/
theorem test_rbit : rbit 0x58 8 = (false, 0xB0, 7) ∧ rbit 0xB0 7 = (true, 0x60, 6) := by decide
/-- D1. -/
theorem test_dstart : nextAnd (exec .dstart ready6) (fun t => statusWord t == 3 && cursorWord t == 4) = true := by
  decide +kernel
/-- D6: a code word left half-way. -/
theorem test_dbyte : nextAnd (exec (.dbyte 0x01) dec6)
    (fun t => t.symsOut == List.replicate 7 0x61 && cursorWord t == 3 && t.rcnt == 0) = true := by decide +kernel
/-- D9: the lone leaf. -/
theorem test_dbyte_lone : nextAnd (exec (.dbyte 0xA5) (accepted .dec 0 [] [leafNode 0x61 4] 0))
    (fun t => t.symsOut == List.replicate 4 0x61 && cursorWord t == 0) = true := by decide +kernel
/-- The end of D6: `cur` is kept. -/
theorem test_dend : nextAnd (exec .dend { dec6 with cur := 3 }) (fun t => statusWord t == 1 && cursorWord t == 3) = true := by
  decide +kernel

/-! ## The bus -/

/-- M2, M3. -/
theorem test_bus_unmapped :
    busRead State.reset 0x0002 32 = (.slverr, 0) ∧ busRead State.reset 0x001C 32 = (.slverr, 0) ∧
    busRead State.reset 0x0800 32 = (.slverr, 0) ∧ busRead State.reset 0x200C 32 = (.slverr, 0) ∧
    busRead State.reset 0x3FF0 32 = (.slverr, 0) ∧ busRead State.reset 0x4024 32 = (.slverr, 0) := by decide +kernel
/-- M5. -/
theorem test_bus_root : nextAnd (performOp (.write 0x000C 32 0xFFFFFFFF) State.reset)
    (fun t => t.responses == [.write .okay] && busRead t 0x000C 32 == (.okay, 0x1FF)) = true := by decide +kernel
/-- M8. -/
theorem test_bus_child : nextAnd (performOp (.write 0x2008 32 0xFFFFFFFF) State.reset)
    (fun t => busRead t 0x2008 32 == (.okay, 0x01FF01FF)) = true := by decide +kernel
/-- M9: node 510 is the last. -/
theorem test_bus_last_node : nextAnd (performOp (.write 0x3FE8 32 0x00010002) State.reset)
    (fun t => busRead t 0x3FE8 32 == (.okay, 0x00010002)) = true := by decide +kernel
/-- M10, one of its writes. -/
theorem test_bus_protected : nextAnd (performOp (.write 0x0584 32 5) ready6)
    (fun t => t.responses == [.write .slverr] && freqAt t 0x61 == 0) = true := by decide +kernel
/-- M11: a write does not depend on `err`. -/
theorem test_bus_write_with_error : nextAnd (performOp (.write 0x0584 32 5) failed)
    (fun t => t.responses == [.write .okay] && busRead t 0x0584 32 == (.okay, 5)) = true := by decide +kernel
/-- Section 3's table images: nodes h0 and h3 of V3, and the code of `b`. -/
theorem test_bus_images :
    busRead enc3 0x2004 32 = (.okay, 0x00006101) ∧ busRead enc3 0x2038 32 = (.okay, 0x00010002) ∧
    busRead enc3 0x5880 32 = (.okay, 2) ∧ busRead enc3 0x5884 32 = (.okay, 0xC0000000) := by decide +kernel

/-! ## Assembler lines (R101) -/

theorem test_assemble :
    assembleLine (.cmd .esym (some (.chr 'a'))) = some (.write 0x0000 32 0x21000061) ∧
    assembleLine (.cmd .dbyte (some (.hex 5 8))) = some (.write 0x0000 32 0x31000058) ∧
    assembleLine (.cmd .build (some (.dec 1))) = none ∧ assembleLine (.cmd .fsym none) = none ∧
    assembleLine (.rd 0x0010) = some (.read 0x0010 32) := by decide

/-! ## States with the invariant -/

theorem test_reset_queue : validCount State.reset = 0 := by decide +kernel

theorem inv_accepted {p : Phase} {cur : Handle} {q : List HostOp} {ns : List TreeNode} {root : Handle} (hp : p ≠ .empty)
    (hv : validTree root (BitVec.ofNat 10 ns.length) (arenaOf ns) = true) (hc : p = .dec → cur = root) :
    Inv (accepted p cur q ns root) where
  tree := fun _ => hv
  rom := fun _ => rfl
  noCode := fun h => absurd h hp
  packerIdle := fun _ => ⟨rfl, rfl⟩
  readerIdle := rfl
  queueEmpty := test_reset_queue
  cursor := fun h => by
    have := ((validTree_iff _ _ _).1 hv).2.2.1
    rw [← hc h] at this
    exact this
  cursorInternal := fun h r n hr hl hn => by
    have h2 : nodeAt (arenaOf ns) cur = some n := hn
    rw [hc h] at h2
    have h3 : nodeAt (arenaOf ns) root = some r := hr
    rw [h3] at h2
    cases h2
    exact hl
  infoClear := fun _ => rfl
  romAligned := genCodes_aligned root (arenaOf ns)
  packerLow := fun j _ => BitVec.getLsbD_zero
  noTraversal := ⟨rfl, rfl⟩

theorem test_tree6_valid : validTree 4 (BitVec.ofNat 10 tree6.length) (arenaOf tree6) = true := by decide +kernel
theorem test_lone_valid :
    validTree 0 (BitVec.ofNat 10 [leafNode 0x61 4].length) (arenaOf [leafNode 0x61 4]) = true := by decide +kernel
theorem test_ready6_inv (q : List HostOp) : Inv (accepted .ready 0 q tree6 4) :=
  inv_accepted (by decide) test_tree6_valid (fun h => by cases h)
theorem test_dec6_inv : Inv dec6 := inv_accepted (by decide) test_tree6_valid (fun _ => rfl)
theorem test_lone_inv : Inv lone := inv_accepted (by decide) test_lone_valid (fun h => by cases h)

/-! ## Witnesses: the hypotheses of the obligations can be met, clause by clause, at the ends of their ranges -/

theorem test_witness_ReservedOpcodeIsIllegal : State.reset.err = .none ∧
    ([0x03000000, 0x0F000000, 0x13000000, 0x1F000000, 0x23000000, 0x2F000000, 0x33000000, 0xFFFFFFFF] : List Word).all
      (fun w => decide (w.extractLsb' 24 8 ∉
        ([0x00, 0x01, 0x02, 0x10, 0x11, 0x12, 0x20, 0x21, 0x22, 0x30, 0x31, 0x32] : List (BitVec 8)))) = true := by
  decide +kernel

theorem test_witness_NonzeroReservedBitsAreIllegal : State.reset.err = .none ∧
    ([0x10000100, 0x21800000, 0x31FFFF00] : List Word).all (fun w => decide
      (w.extractLsb' 24 8 ∈ ([0x10, 0x21, 0x31] : List (BitVec 8)) ∧ w &&& 0x00FFFF00 ≠ 0)) = true ∧
    ([0x00000001, 0x11800000, 0x32FFFFFF] : List Word).all (fun w => decide
      (w.extractLsb' 24 8 ∈ ([0x00, 0x01, 0x02, 0x11, 0x12, 0x20, 0x22, 0x30, 0x32] : List (BitVec 8)) ∧
      w &&& 0x00FFFFFF ≠ 0)) = true := by decide +kernel

theorem test_witness_WrongPhaseIsIllegal :
    (ready6.err = .none ∧ decode 0x10000061 = .instr (.fsym 0x61) ∧ ready6.phase ≠ .empty) ∧
    (enc6.err = .none ∧ decode 0x20000000 = .instr .estart ∧ enc6.phase ≠ .ready) ∧
    (ready6.err = .none ∧ decode 0x21000061 = .instr (.esym 0x61) ∧ ready6.phase ≠ .enc) ∧
    (ready6.err = .none ∧ decode 0x31000058 = .instr (.dbyte 0x58) ∧ ready6.phase ≠ .dec) := by decide +kernel

/-- A reserved opcode, NOP, and malformed words with SRESET's and CLRERR's opcodes. -/
theorem test_witness_CommandIsRejectedWhileErrorIsLatched : failed.err ≠ .none ∧
    ([0x03000000, 0x00000000, 0x01000001, 0x02000001] : List Word).all
      (fun w => decide (decode w ≠ .instr .sreset ∧ decode w ≠ .instr .clrerr)) = true := by decide +kernel

theorem test_witness_StepRunsTheDecodedCommand : decode 0x10000061 = .instr (.fsym 0x61) ∧
    (withNext (.write 0x0000 32 0x10000061) State.reset).hostQueue = .write 0x0000 32 0x10000061 :: [] :=
  ⟨by decide +kernel, rfl⟩

/-- Both ends of every unmapped range of R62, the first word no window entry lists, a misaligned and a narrow access. -/
theorem test_witness_UnmappedMisalignedOrNarrowAccessIsRefused :
    List.Forall Unmapped [0x001C, 0x03FF, 0x0800, 0x1FFF, 0x200C, 0x3FEF, 0x3FF0, 0x3FFF, 0x4024, 0x7FFF] ∧
    (0x0002 : Offset).toNat % 4 ≠ 0 ∧ (16 : Nat) ≠ 32 := by simp [Unmapped]

/-- Both ends of every mapped range of R62. -/
theorem test_witness_MappedReadIsOkayAndWithoutSideEffect :
    List.Forall (fun off : Offset => ¬ Unmapped off ∧ off.toNat % 4 = 0)
      [0x0000, 0x0018, 0x0400, 0x07FC, 0x2000, 0x2008, 0x3FE8, 0x4000, 0x4020, 0x7FE0] := by simp [Unmapped]

/-- Also for the write clauses of FreqWindow and NodeWindow. -/
theorem test_witness_RootAndNnodesRegisters : State.reset.phase = .empty ∧ ready6.phase ≠ .empty := by decide +kernel

theorem test_witness_FreqWindow : (0 < 256 ∧ State.reset.phase = .empty) ∧ (255 < 256 ∧ ready6.phase ≠ .empty) := by decide +kernel

theorem test_witness_NodeWindow : (0 < 511 ∧ State.reset.phase = .empty) ∧ (510 < 511 ∧ ready6.phase ≠ .empty) := by decide +kernel

/-- An entry, and the first and last word of each of the three clauses over words. -/
theorem test_witness_CodeWindow : 255 < 256 ∧ (0 < 8 ∧ 7 < 8) ∧ (9 ≤ 9 ∧ 15 < 16) ∧ 15 < 16 := by decide +kernel

theorem test_witness_WritesAreAcceptedOnlyInEmpty :
    (∃ t, step (withNext (.write 0x3FE8 32 5) State.reset) = .next t ∧ t.responses = [.write .okay]) ∧
    (∃ t, step (withNext (.write 0x0400 32 5) ready6) = .next t ∧ t.responses ≠ [.write .okay]) ∧
    (∃ t, step (withNext (.write 0x0000 32 0) ready6) = .next t) ∧
    List.Forall (fun off : Offset => off ≠ 0 ∧ ¬ Unmapped off ∧ off.toNat % 4 = 0) [0x0004, 0x0400, 0x3FE8, 0x7FE0] := by
  refine ⟨?_, ?_, ?_, by simp [Unmapped]⟩
  · obtain ⟨t, h, hp⟩ := exists_next (a := step (withNext (.write 0x3FE8 32 5) State.reset))
      (p := fun t => t.responses == [.write .okay]) (by decide +kernel)
    exact ⟨t, h, by simpa using hp⟩
  · obtain ⟨t, h, hp⟩ := exists_next (a := step (withNext (.write 0x0400 32 5) ready6))
      (p := fun t => t.responses != [.write .okay]) (by decide +kernel)
    exact ⟨t, h, by simpa using hp⟩
  · obtain ⟨t, h, -⟩ := exists_next (a := step (withNext (.write 0x0000 32 0) ready6)) (p := fun _ => true)
      (by decide +kernel)
    exact ⟨t, h⟩

theorem test_witness_FirstErrorIsKept :
    failed.err ≠ .none ∧ ∃ t, step (withNext (.write 0x0000 32 0x02000001) failed) = .next t := by
  obtain ⟨t, h, -⟩ := exists_next (a := step (withNext (.write 0x0000 32 0x02000001) failed)) (p := fun _ => true)
    (by decide +kernel)
  exact ⟨by decide +kernel, t, h⟩

/-- Both branches: a free count and a full one. -/
theorem test_witness_FsymCountsOneSymbol :
    (State.reset.phase = .empty ∧ State.reset.err = .none ∧ freqAt State.reset 0x61 ≠ 0xFFFFFFFF) ∧
    (counted [(0x61, 0xFFFFFFFF)]).phase = .empty ∧ (counted [(0x61, 0xFFFFFFFF)]).err = .none ∧
    freqAt (counted [(0x61, 0xFFFFFFFF)]) 0x61 = 0xFFFFFFFF := by decide +kernel

/-- V1's text, and a text of `2n` symbols whose two counts are `n`, for every `n` below 2^32: the greatest is longer than
2^32. -/
theorem test_witness_FrequencyTableCountsTheText :
    (∀ x : Sym, ([0x61, 0x61, 0x61, 0x62, 0x62, 0x63] : List Sym).count x < 2 ^ 32) ∧
    ∀ n < 2 ^ 32, ∀ x : Sym, (List.replicate n (0x61 : Sym) ++ List.replicate n 0x62).count x < 2 ^ 32 := by
  refine ⟨fun x => Nat.lt_of_le_of_lt List.count_le_length (by decide), fun n hn x => ?_⟩
  rw [List.count_append, List.count_replicate, List.count_replicate]
  split_ifs with h1 h2 <;> try omega
  rw [beq_iff_eq] at h1 h2
  exact absurd (h1.trans h2.symm) (by decide)

theorem test_witness_BuildOfAnEmptyTable :
    State.reset.phase = .empty ∧ State.reset.err = .none ∧ ∀ x : Sym, freqAt State.reset x = 0 :=
  ⟨rfl, rfl, fun x => by simp [freqAt, State.reset]⟩

/-- B2: the sum is one too large. -/
theorem test_witness_BuildOfTooLargeCounts :
    (counted [(0x61, 0xFFFFFFFF), (0x62, 1)]).phase = .empty ∧ (counted [(0x61, 0xFFFFFFFF), (0x62, 1)]).err = .none ∧
    ((counted [(0x61, 0xFFFFFFFF), (0x62, 1)]).freq.toList.map BitVec.toNat).sum > 2 ^ 32 - 1 := by decide +kernel

/-- B3: the sum is just small enough. -/
theorem test_witness_BuildMakesAValidTree :
    (counted [(0x61, 0xFFFFFFFE), (0x62, 1)]).phase = .empty ∧ (counted [(0x61, 0xFFFFFFFE), (0x62, 1)]).err = .none ∧
    freqAt (counted [(0x61, 0xFFFFFFFE), (0x62, 1)]) 0x62 ≠ 0 ∧
    ((counted [(0x61, 0xFFFFFFFE), (0x62, 1)]).freq.toList.map BitVec.toNat).sum ≤ 2 ^ 32 - 1 := by decide +kernel

/-- V3: handles 0 and 2 are the first and last leaf, 3 and 4 the first and last Internal node, 3 the only one with a next. -/
theorem test_witness_BuildLaysOutTheArena :
    (counted [(0x61, 3), (0x62, 2), (0x63, 1)]).phase = .empty ∧ (counted [(0x61, 3), (0x62, 2), (0x63, 1)]).err = .none ∧
    (present (counted [(0x61, 3), (0x62, 2), (0x63, 1)])).length = 3 ∧
    ∃ t, exec .build (counted [(0x61, 3), (0x62, 2), (0x63, 1)]) = .next t ∧ t.phase = .ready ∧ t.nnodes = 5 ∧
      t.node.toList.take 5 = tree3 := by
  obtain ⟨t, h, hp⟩ := exists_next test_build
  simp only [Bool.and_eq_true, beq_iff_eq] at hp
  obtain ⟨⟨⟨⟨⟨⟨⟨⟨-, hn⟩, -⟩, ha⟩, -⟩, -⟩, -⟩, -⟩, hr⟩ := hp
  exact ⟨rfl, rfl, by decide +kernel, t, h, hr, hn, ha⟩

theorem test_witness_BuildOfOneSymbol :
    (counted [(0xFF, 4)]).phase = .empty ∧ (counted [(0xFF, 4)]).err = .none ∧ present (counted [(0xFF, 4)]) = [0xFF] := by
  decide +kernel

theorem test_witness_ArbiterRemovesTheLeastEntry :
    ∃ k : Fin 256, (pqInsert 3 7 State.reset).pq[k].valid = true := ⟨0, by decide +kernel⟩

/-- V3: `a` has three, `b` two. -/
theorem test_witness_GreaterCountNeverHasLongerCode :
    (counted [(0x61, 3), (0x62, 2), (0x63, 1)]).phase = .empty ∧ (counted [(0x61, 3), (0x62, 2), (0x63, 1)]).err = .none ∧
    (∃ t, exec .build (counted [(0x61, 3), (0x62, 2), (0x63, 1)]) = .next t ∧ t.phase = .ready) ∧
    freqAt (counted [(0x61, 3), (0x62, 2), (0x63, 1)]) 0x62 ≠ 0 ∧
    (freqAt (counted [(0x61, 3), (0x62, 2), (0x63, 1)]) 0x62).toNat <
      (freqAt (counted [(0x61, 3), (0x62, 2), (0x63, 1)]) 0x61).toNat := by
  obtain ⟨t, h, hp⟩ := exists_next test_build
  simp only [Bool.and_eq_true, beq_iff_eq] at hp
  exact ⟨rfl, rfl, ⟨t, h, hp.2⟩, by decide +kernel, by decide +kernel⟩

/-- Also for ValidTreeOwnsEachChildOnce (the root 4, and 0). -/
theorem test_witness_CodesAreThePathsOfTheTree : validTree 4 5 (arenaOf tree6) = true ∧
    (∃ r, nodeAt (arenaOf tree6) 4 = some r ∧ r.leaf = false) ∧ [true, false] ≠ ([] : List Bool) ∧
    (0 : Handle).toNat < (5 : BitVec 10).toNat ∧ (4 : Handle).toNat < (5 : BitVec 10).toNat :=
  ⟨by decide +kernel, ⟨innerNode 3 0 3, by decide +kernel, rfl⟩, by decide +kernel, by decide +kernel, by decide +kernel⟩

theorem test_witness_CodesArePrefixFree : validTree 4 5 (arenaOf tree6) = true ∧ (0x61 : Sym) ≠ 0x62 ∧
    (genCodes 4 (arenaOf tree6))[(0x61 : Sym).toNat].len ≠ 0 ∧ (genCodes 4 (arenaOf tree6))[(0x62 : Sym).toNat].len ≠ 0 := by
  decide +kernel

theorem test_witness_ValidTreeOwnsEachChildOnce : validTree 0 5 (arenaOf tree6b) = true ∧
    (0 : Handle).toNat < (5 : BitVec 10).toNat ∧ (4 : Handle).toNat < (5 : BitVec 10).toNat := by decide +kernel

/-- T1 and T2. -/
theorem test_witness_SameTreeGivesSameCodes :
    validTree 4 5 (arenaOf tree6) = true ∧ validTree 0 5 (arenaOf tree6b) = true ∧
    treeAt (arenaOf tree6) 512 4 = treeAt (arenaOf tree6b) 512 0 := by decide +kernel

/-- T12. -/
theorem test_witness_TloadAcceptsAValidTree :
    (loaded [leafNode 0x61 4] 0).phase = .empty ∧ (loaded [leafNode 0x61 4] 0).err = .none ∧
    validTree (loaded [leafNode 0x61 4] 0).root (loaded [leafNode 0x61 4] 0).nnodes (loaded [leafNode 0x61 4] 0).node = true := by
  decide +kernel

/-- T10. -/
theorem test_witness_TloadFailsClosed : State.reset.phase = .empty ∧ State.reset.err = .none ∧
    validTree State.reset.root State.reset.nnodes State.reset.node = false := by decide +kernel

theorem test_witness_PersistReadsTheArenaImage :
    ready6.nnodes.toNat ≤ 511 ∧ ({ ready6 with nnodes := 511 }).nnodes.toNat ≤ 511 := by decide +kernel

theorem test_witness_LoadtreeRestoresTheTree : validTree ready6.root ready6.nnodes ready6.node = true := by decide +kernel

/-- Also for DstartOpensADecode. -/
theorem test_witness_EstartOpensAnEncode : ready6.phase = .ready ∧ ready6.err = .none := ⟨rfl, rfl⟩

theorem test_witness_EsymPacksTheCode : enc6.phase = .enc ∧ enc6.err = .none ∧ enc6.byteSink = .accepting ∧
    (codeAt enc6 0x61).len ≠ 0 := by decide +kernel

theorem test_witness_EsymOfAnUnknownSymbol : enc6.phase = .enc ∧ enc6.err = .none ∧ (codeAt enc6 0x7A).len = 0 := by
  decide +kernel

theorem test_witness_EendFlushesAndCloses : enc6.phase = .enc ∧ enc6.err = .none ∧ enc6.byteSink = .accepting :=
  ⟨rfl, rfl, rfl⟩

theorem test_witness_EncodeEmitsThePayload : ready6.phase = .ready ∧ ready6.err = .none ∧ ready6.byteSink = .accepting ∧
    ∀ x ∈ ([0x61, 0x62, 0x63] : List Sym), (codeAt ready6 x).len ≠ 0 := by decide +kernel

theorem test_witness_DstartOpensADecode : lone.phase = .ready ∧ lone.err = .none := ⟨rfl, rfl⟩

theorem test_witness_RbitDeliversTheTopBit : 1 ≤ (1 : BitVec 4).toNat ∧ 1 ≤ (8 : BitVec 4).toNat := by decide +kernel

/-- Both bits at the root of V6's tree, and the lone leaf. -/
theorem test_witness_WalkTakesOneStep :
    (nodeAt (arenaOf tree6) 4 = some (innerNode 3 0 3) ∧ (innerNode 3 0 3).leaf = false ∧
      nodeAt (arenaOf tree6) 0 = some (leafNode 0x61 1) ∧ nodeAt (arenaOf tree6) 3 = some (innerNode 2 1 2)) ∧
    nodeAt (arenaOf [leafNode 0x61 4]) 0 = some (leafNode 0x61 4) ∧ (leafNode 0x61 4).leaf = true := by decide +kernel

theorem test_witness_DbyteWalksEightBits :
    Inv dec6 ∧ dec6.phase = .dec ∧ dec6.err = .none ∧ dec6.symSink = .accepting := ⟨test_dec6_inv, rfl, rfl, rfl⟩

theorem test_witness_DendClosesTheDecode : dec6.phase = .dec ∧ dec6.err = .none := ⟨rfl, rfl⟩

theorem test_witness_DecodeOfEncodeHasTheLossyTail : Inv ready6 ∧ ready6.phase = .ready ∧ ready6.err = .none ∧
    SinksAccept ready6 ∧ (∃ r, nodeAt ready6.node ready6.root = some r ∧ r.leaf = false) ∧
    ∀ y ∈ ([0x61, 0x62, 0x63] : List Sym), (codeAt ready6 y).len ≠ 0 :=
  ⟨test_ready6_inv [], rfl, rfl, ⟨rfl, rfl⟩, ⟨innerNode 3 0 3, by decide +kernel, rfl⟩, by decide +kernel⟩

theorem test_witness_LoneLeafRoundTripIsExact : Inv lone ∧ lone.phase = .ready ∧ lone.err = .none ∧ SinksAccept lone ∧
    (∃ r, nodeAt lone.node lone.root = some r ∧ r.leaf = true) ∧
    ∀ y ∈ ([0x61, 0x61, 0x61, 0x61] : List Sym), (codeAt lone y).len ≠ 0 :=
  ⟨test_lone_inv, rfl, rfl, ⟨rfl, rfl⟩, ⟨leafNode 0x61 4, by decide +kernel, rfl⟩, by decide +kernel⟩

/-- A DSTART from READY. Also for InvariantStatesNeverStop, PhaseChangesOnlyAsListed and OutputsOnlyGrow. -/
theorem test_witness_EveryStepKeepsTheInvariant :
    Inv (accepted .ready 0 [.write 0x0000 32 0x30000000] tree6 4) ∧
    ∃ t, step (accepted .ready 0 [.write 0x0000 32 0x30000000] tree6 4) = .next t ∧ t.phase = .dec := by
  obtain ⟨t, h, hp⟩ := exists_next (a := step (accepted .ready 0 [.write 0x0000 32 0x30000000] tree6 4))
    (p := fun t => t.phase == .dec) (by decide +kernel)
  exact ⟨test_ready6_inv _, t, h, by simpa using hp⟩

theorem test_witness_PhaseChangesOnlyAsListed :
    (withNext (.write 0x0000 32 0x22000000) enc6).hostQueue = .write 0x0000 32 0x22000000 :: [] ∧
    ∃ t, step (withNext (.write 0x0000 32 0x22000000) enc6) = .next t ∧ t.phase = .ready := by
  obtain ⟨t, h, hp⟩ := exists_next (a := step (withNext (.write 0x0000 32 0x22000000) enc6))
    (p := fun t => t.phase == .ready) (by decide +kernel)
  exact ⟨rfl, t, h, by simpa using hp⟩

theorem test_witness_TreeIsImmutableOutsideEmpty : ready6.phase ≠ .empty ∧
    ∃ t, step (withNext (.write 0x2000 32 5) ready6) = .next t := by
  obtain ⟨t, h, -⟩ := exists_next (a := step (withNext (.write 0x2000 32 5) ready6)) (p := fun _ => true) (by decide +kernel)
  exact ⟨by decide +kernel, t, h⟩

/-- One step for each clause: no access, the reset input, a read, a write that emits. -/
theorem test_witness_OutputsOnlyGrow :
    (∃ t, step ready6 = .next t) ∧ (∃ t, step (withNext .rst ready6) = .next t) ∧
    (∃ t, step (withNext (.read 0x0004 32) ready6) = .next t) ∧
    ∃ t, step (withNext (.write 0x0000 32 0x31000058) dec6) = .next t ∧ t.symsOut ≠ [] := by
  obtain ⟨t, h, hp⟩ := exists_next (a := step (withNext (.write 0x0000 32 0x31000058) dec6))
    (p := fun t => t.symsOut != []) (by decide +kernel)
  exact ⟨⟨_, rfl⟩, ⟨_, rfl⟩, ⟨_, rfl⟩, t, h, by simpa using hp⟩

theorem test_witness_InvariantStatesNeverStop : Inv dec6 ∧ SinksAccept dec6 := ⟨test_dec6_inv, rfl, rfl⟩

/-- A byte that is taken and one that is not, for ESYM and for EEND, and an EEND with nothing pending. -/
theorem test_witness_ByteConsumerThatStopsHangsTheCommand :
    enc6.phase = .enc ∧ enc6.err = .none ∧ (codeAt enc6 0x61).len ≠ 0 ∧
    ({ enc6 with wcnt := 7, byteSink := .stopsAfter 0 }).byteSink = .stopsAfter 0 ∧
    ¬ (7 + (codeAt enc6 0x61).len.toNat) / 8 ≤ 0 ∧ (7 + (codeAt enc6 0x61).len.toNat) / 8 ≤ 1 ∧
    enc6.wcnt = 0 ∧ ({ enc6 with wcnt := 7 }).wcnt ≠ 0 := by decide +kernel

/-- A walk that runs and one that follows handle 511; a consumer that takes the symbols and one that does not. -/
theorem test_witness_DbyteCompletesOrStopsByName :
    dec6.phase = .dec ∧ dec6.err = .none ∧
    walkSeq dec6.node dec6.root dec6.cur (byteBits 0x58) = some (4, [0x61, 0x62, 0x63, 0x61, 0x61, 0x61]) ∧
    walkSeq dec6.node 511 dec6.cur (byteBits 0x58) = none ∧
    ({ dec6 with symSink := .stopsAfter 6 }).symSink = .stopsAfter 6 ∧ dec6.symSink = .accepting := by decide +kernel

end Sys2Proof.Tests
end

section
/-! PROOF. The priority queue by its valid slots (10_state.md R30): what an insertion and a removal do to them, up to order
(40_build.md R116, R117). -/

namespace Sys2Proof.Machine

/-! ## The valid slots -/

/-- The valid slots of the queue, in slot order (R30). -/
def validSlots (s : State) : List PqSlot := s.pq.toList.filter (·.valid)

theorem validCount_eq (s : State) : validCount s = (validSlots s).length := List.countP_eq_length_filter

/-- Replacing one entry of a list: up to order, the new entry comes and the old one goes. -/
theorem cons_set_perm {α : Type} {l : List α} {i : Nat} (hi : i < l.length) (a : α) :
    (l[i] :: l.set i a).Perm (a :: l) := by
  have hl : l.Perm (l[i] :: (l.take i ++ l.drop (i + 1))) := by
    conv_lhs => rw [← List.take_append_drop i l, List.drop_eq_getElem_cons hi]
    exact List.perm_middle
  rw [List.set_eq_take_append_cons_drop, if_pos hi]
  exact (List.perm_middle.cons _).trans ((List.Perm.swap _ _ _).trans (hl.symm.cons a))

/-! ## Insertion (R116) -/

/-- The slot an insertion fills. -/
def newSlot (h : Handle) (w : Word) (s : State) : PqSlot := { valid := true, weight := w, seq := s.seq, handle := h }

/-- A queue that is not full has a free slot. -/
theorem freeSlot_of_validCount_lt {s : State} (h : validCount s < 256) :
    ∃ k, freeSlot s = some k ∧ ∃ hk : k < s.pq.toList.length, s.pq.toList[k].valid = false := by
  cases hf : freeSlot s with
  | some k =>
    obtain ⟨hk, hv, -⟩ := List.findIdx?_eq_some_iff_getElem.1 hf
    exact ⟨k, rfl, hk, by simpa using hv⟩
  | none =>
    have hall : ∀ e ∈ s.pq.toList, e.valid = true := by simpa using List.findIdx?_eq_none_iff.1 hf
    have hc : validCount s = s.pq.toList.length := List.countP_eq_length.2 hall
    rw [Vector.length_toList] at hc
    omega

/-- An insertion into a queue that is not full adds the new slot to the valid ones (R116). -/
theorem validSlots_pqInsert (h : Handle) (w : Word) {s : State} (hc : validCount s < 256) :
    (validSlots (pqInsert h w s)).Perm (newSlot h w s :: validSlots s) := by
  obtain ⟨k, hf, hk, hv⟩ := freeSlot_of_validCount_lt hc
  have hp := (cons_set_perm hk (newSlot h w s)).filter (·.valid)
  rw [List.filter_cons_of_neg (by rw [hv]; simp), List.filter_cons_of_pos rfl] at hp
  simpa [validSlots, pqInsert, hf, newSlot] using hp

/-! ## Removal (R117) -/

/-- Where the arbiter finds no slot, none is valid. -/
theorem leastValid_none {i : Nat} {l : List PqSlot} (h : leastValid i l = none) : ∀ e ∈ l, e.valid = false := by
  induction l generalizing i with
  | nil => simp
  | cons a l ih =>
    unfold leastValid at h
    split at h
    · rename_i hl
      split at h
      · cases h
      · rename_i ha
        simpa [ha] using ih hl
    · split at h <;> cases h

/-- The arbiter finds a valid slot of least key. -/
theorem leastValid_some {i : Nat} {l : List PqSlot} {k : Nat} {e : PqSlot} (h : leastValid i l = some (k, e)) :
    i ≤ k ∧ l[k - i]? = some e ∧ e.valid = true ∧ ∀ m ∈ l, m.valid = true → e.key.toNat ≤ m.key.toNat := by
  induction l generalizing i k e with
  | nil => cases h
  | cons a l ih =>
    unfold leastValid at h
    split at h
    · rename_i hl
      split at h
      · rename_i ha
        cases h
        refine ⟨le_refl _, by simp, ha, fun m hm hv => ?_⟩
        rcases List.mem_cons.1 hm with rfl | hm
        · exact le_refl _
        · simp [leastValid_none hl m hm] at hv
      · cases h
    · rename_i k' e' hl
      obtain ⟨hi, hk, hv, hmin⟩ := ih hl
      split at h <;> rename_i ha <;> simp only [Bool.and_eq_true, decide_eq_true_eq, not_and] at ha <;> cases h
      · refine ⟨le_refl _, by simp, ha.1, fun m hm hmv => ?_⟩
        rcases List.mem_cons.1 hm with rfl | hm
        · exact le_refl _
        · exact ha.2.trans (hmin m hm hmv)
      · refine ⟨by omega, ?_, hv, fun m hm hmv => ?_⟩
        · rw [show k - i = k - (i + 1) + 1 by omega, List.getElem?_cons_succ]
          exact hk
        · rcases List.mem_cons.1 hm with rfl | hm
          · have := ha hmv
            omega
          · exact hmin m hm hmv

/-- A removal from a queue with a valid slot takes one of them away and returns it (R117). -/
theorem validSlots_pqRemoveMin {s : State} (hc : 0 < validCount s) :
    (validSlots s).Perm ((pqRemoveMin s).1 :: validSlots (pqRemoveMin s).2) := by
  unfold pqRemoveMin
  cases hl : leastValid 0 s.pq.toList with
  | none =>
    rw [validCount_eq, validSlots, List.filter_eq_nil_iff.2 (by simpa using leastValid_none hl)] at hc
    cases hc
  | some ke =>
    obtain ⟨k, e⟩ := ke
    obtain ⟨-, hk, hv, -⟩ := leastValid_some hl
    rw [Nat.sub_zero] at hk
    obtain ⟨hlt, rfl⟩ := List.getElem?_eq_some_iff.1 hk
    have hp := (cons_set_perm hlt { s.pq.toList[k] with valid := false }).filter (·.valid)
    rw [List.filter_cons_of_pos hv, List.filter_cons_of_neg (by simp)] at hp
    simpa [validSlots] using hp.symm

theorem validCount_pqRemoveMin {s : State} (hc : 0 < validCount s) :
    validCount s = validCount (pqRemoveMin s).2 + 1 := by
  simpa [validCount_eq] using (validSlots_pqRemoveMin hc).length_eq

end Sys2Proof.Machine
end

section
/-! PROOF. BUILD's queue as a forest (40_build.md R115 to R120): at every moment the valid slots are the roots of disjoint trees that
use up the handles below `nnodes`. -/

namespace Sys2Proof.Machine

/-! ## Trees and forests -/

/-- A tree does not see the arena outside its own handles. -/
theorem IsTree.congr {arena arena' : Arena} {h : Handle} {hs : List Handle} {xs : List Sym} (t : IsTree arena h hs xs)
    (heq : ∀ k ∈ hs, nodeAt arena' k = nodeAt arena k) : IsTree arena' h hs xs := by
  induction t with
  | leaf hn hl hw => exact .leaf (by rw [heq _ (by simp), hn]) hl hw
  | internal hn hl t1 t2 hn1 hn2 hw ih1 ih2 =>
    have h1 := fun k hk => heq k (List.mem_cons_of_mem _ (List.mem_append_left _ hk))
    have h2 := fun k hk => heq k (List.mem_cons_of_mem _ (List.mem_append_right _ hk))
    exact .internal (by rw [heq _ (by simp), hn]) hl (ih1 h1) (ih2 h2) (by rw [h1 _ t1.root_mem, hn1])
      (by rw [h2 _ t2.root_mem, hn2]) hw

/-- The slots hold the handles and weights of the roots of trees, with the trees' handles and leaf symbols in slot order. -/
inductive Forest (arena : Arena) : List PqSlot → List Handle → List Sym → Prop where
  | nil : Forest arena [] [] []
  | cons {e : PqSlot} {n : TreeNode} {es : List PqSlot} {hs1 hs2 : List Handle} {xs1 xs2 : List Sym}
      (tree : IsTree arena e.handle hs1 xs1) (node : nodeAt arena e.handle = some n) (weight : n.weight = e.weight)
      (rest : Forest arena es hs2 xs2) : Forest arena (e :: es) (hs1 ++ hs2) (xs1 ++ xs2)

theorem Forest.congr {arena arena' : Arena} {es : List PqSlot} {hs : List Handle} {xs : List Sym}
    (f : Forest arena es hs xs) (heq : ∀ k ∈ hs, nodeAt arena' k = nodeAt arena k) : Forest arena' es hs xs := by
  induction f with
  | nil => exact .nil
  | cons tree node weight rest ih =>
    have h1 := fun k hk => heq k (List.mem_append_left _ hk)
    exact .cons (tree.congr h1) (by rw [h1 _ tree.root_mem, node]) weight
      (ih fun k hk => heq k (List.mem_append_right _ hk))

/-- With the slots in another order, the handles and the symbols are in another order. -/
theorem Forest.perm {arena : Arena} {es es' : List PqSlot} (p : es.Perm es') {hs : List Handle} {xs : List Sym}
    (f : Forest arena es hs xs) : ∃ hs' xs', Forest arena es' hs' xs' ∧ hs'.Perm hs ∧ xs'.Perm xs := by
  induction p generalizing hs xs with
  | nil => exact ⟨hs, xs, f, .refl _, .refl _⟩
  | cons e _ ih =>
    cases f with
    | cons tree node weight rest =>
      obtain ⟨hs', xs', f', ph, px⟩ := ih rest
      exact ⟨_, _, .cons tree node weight f', ph.append_left _, px.append_left _⟩
  | swap e e' es =>
    cases f with
    | cons tree node weight rest =>
      cases rest with
      | cons tree' node' weight' rest' =>
        refine ⟨_, _, .cons tree' node' weight' (.cons tree node weight rest'), ?_, ?_⟩
        · simpa only [List.append_assoc] using List.perm_append_comm.append_right _
        · simpa only [List.append_assoc] using List.perm_append_comm.append_right _
  | trans _ _ ih1 ih2 =>
    obtain ⟨hs1, xs1, f1, ph1, px1⟩ := ih1 f
    obtain ⟨hs2, xs2, f2, ph2, px2⟩ := ih2 f1
    exact ⟨hs2, xs2, f2, ph2.trans ph1, px2.trans px1⟩

/-- A forest has two nodes for every leaf, less one for every tree. -/
theorem Forest.length {arena : Arena} {es : List PqSlot} {hs : List Handle} {xs : List Sym} (f : Forest arena es hs xs) :
    hs.length + es.length = 2 * xs.length := by
  induction f with
  | nil => rfl
  | cons tree _ _ _ ih =>
    have := tree.length
    simp only [List.length_append, List.length_cons]
    omega

/-- There are at least as many nodes as trees. -/
theorem Forest.length_le {arena : Arena} {es : List PqSlot} {hs : List Handle} {xs : List Sym} (f : Forest arena es hs xs) :
    es.length ≤ hs.length := by
  induction f with
  | nil => exact le_refl _
  | cons tree _ _ _ ih =>
    have := tree.length_pos
    simp only [List.length_append, List.length_cons]
    omega

/-! ## Adding a node (R115, R118) -/

/-- The next free handle (R112). -/
def nextHandle (s : State) : Handle := s.nnodes.setWidth 9

theorem toNat_nextHandle {s : State} (h : s.nnodes.toNat < 511) : (nextHandle s).toNat = s.nnodes.toNat := by
  simp only [nextHandle, BitVec.toNat_setWidth]
  omega

theorem toNat_nnodes_addNode (n : TreeNode) {s : State} (h : s.nnodes.toNat < 511) :
    (addNode n s).nnodes.toNat = s.nnodes.toNat + 1 := by
  have h1 : (addNode n s).nnodes = s.nnodes + 1#10 := by simp [addNode]
  rw [h1, BitVec.toNat_add, BitVec.toNat_ofNat]
  omega

theorem validSlots_addNode (n : TreeNode) {s : State} (h : validCount s < 256) :
    (validSlots (addNode n s)).Perm (newSlot (nextHandle s) n.weight s :: validSlots s) :=
  validSlots_pqInsert (nextHandle s) n.weight (s := setNode s s.nnodes.toNat n) h

theorem node_addNode (n : TreeNode) (s : State) : (addNode n s).node = s.node.setIfInBounds s.nnodes.toNat n := by
  simp [addNode, setNode]

theorem nodeAt_addNode_new (n : TreeNode) {s : State} (h : s.nnodes.toNat < 511) :
    nodeAt (addNode n s).node (nextHandle s) = some n := by
  simp [nodeAt, node_addNode, toNat_nextHandle h, h]

theorem nodeAt_addNode_old (n : TreeNode) {s : State} {k : Handle} (h : k.toNat < s.nnodes.toNat) :
    nodeAt (addNode n s).node k = nodeAt s.node k := by
  simp [nodeAt, node_addNode, show s.nnodes.toNat ≠ k.toNat by omega]

/-! ## BUILD's invariant -/

/-- The weights of the valid slots, as exact integers. -/
def queueWeight (s : State) : Nat := ((validSlots s).map (·.weight.toNat)).sum

/-- BUILD between two of its turns: the valid slots are the roots of a forest that uses up the handles below `nnodes`, with one leaf
for each of the symbols `xs` and the total weight `total`. -/
structure Growing (total : Nat) (xs : List Sym) (s : State) : Prop where
  forest : ∃ hs ys, Forest s.node (validSlots s) hs ys ∧ ys.Perm xs ∧ hs.Nodup ∧
    (∀ h ∈ hs, h.toNat < s.nnodes.toNat) ∧ hs.length = s.nnodes.toNat
  distinct : xs.Nodup
  weight : queueWeight s = total

theorem length_le_of_nodup {xs : List Sym} (h : xs.Nodup) : xs.length ≤ 256 := by
  simpa [allSyms] using (List.subperm_of_subset h fun x _ => mem_allSyms x).length_le

/-- Nodes and valid slots are counted by the leaves (R124(b)). -/
theorem Growing.count {total : Nat} {xs : List Sym} {s : State} (g : Growing total xs s) :
    s.nnodes.toNat + validCount s = 2 * xs.length ∧ validCount s ≤ s.nnodes.toNat := by
  obtain ⟨hs, ys, f, p, -, -, hl⟩ := g.forest
  rw [validCount_eq, ← hl, ← p.length_eq]
  exact ⟨f.length, f.length_le⟩

/-- While there is a leaf, the queue is not empty. -/
theorem Growing.validCount_pos {total : Nat} {xs : List Sym} {s : State} (g : Growing total xs s) (hx : 0 < xs.length) :
    0 < validCount s := by
  obtain ⟨hs, ys, f, p, -⟩ := g.forest
  rw [← p.length_eq] at hx
  rw [validCount_eq]
  generalize validSlots s = es at f
  cases f with
  | nil => cases hx
  | cons => exact Nat.succ_pos _

theorem growing_buildStart (s : State) : Growing 0 [] (buildStart s) := by
  have hv : validSlots (buildStart s) = [] := by
    simp [validSlots, buildStart, List.filter_eq_nil_iff]
  refine ⟨⟨[], [], ?_, .refl _, .nil, by simp, rfl⟩, .nil, ?_⟩
  · rw [hv]
    exact .nil
  · simp [queueWeight, hv]

theorem queueWeight_addNode (n : TreeNode) {s : State} (h : validCount s < 256) :
    queueWeight (addNode n s) = n.weight.toNat + queueWeight s := by
  simpa [queueWeight, newSlot] using ((validSlots_addNode n h).map (·.weight.toNat)).sum_eq

/-- A new node over the handles `hs1`, which no other tree has, takes its place in the forest. -/
theorem growing_addNode {n : TreeNode} {s : State} {hs1 hs : List Handle} {xs1 ys xs : List Sym}
    (hn : s.nnodes.toNat < 511) (hc : validCount s < 256)
    (tree : IsTree (addNode n s).node (nextHandle s) (nextHandle s :: hs1) xs1) (f : Forest s.node (validSlots s) hs ys)
    (hxs : (xs1 ++ ys).Perm xs) (hd : xs.Nodup) (hnd : (hs1 ++ hs).Nodup) (hb : ∀ k ∈ hs1 ++ hs, k.toNat < s.nnodes.toNat)
    (hlen : (hs1 ++ hs).length = s.nnodes.toNat) : Growing (n.weight.toNat + queueWeight s) xs (addNode n s) := by
  have f1 : Forest (addNode n s).node (newSlot (nextHandle s) n.weight s :: validSlots s) (nextHandle s :: hs1 ++ hs)
      (xs1 ++ ys) :=
    .cons tree (nodeAt_addNode_new n hn) rfl
      (f.congr fun k hk => nodeAt_addNode_old n (hb k (List.mem_append_right _ hk)))
  obtain ⟨hs2, ys2, f2, ph, px⟩ := f1.perm (validSlots_addNode n hc).symm
  have hnew := toNat_nextHandle hn
  refine ⟨⟨hs2, ys2, f2, px.trans hxs, ph.nodup_iff.2 (List.nodup_cons.2 ⟨fun hm => ?_, hnd⟩), fun k hk => ?_, ?_⟩,
    hd, queueWeight_addNode n hc⟩
  · have := hb _ hm
    omega
  · rw [toNat_nnodes_addNode n hn]
    rcases List.mem_cons.1 (ph.mem_iff.1 hk) with rfl | hk
    · omega
    · have := hb k hk
      omega
  · rw [toNat_nnodes_addNode n hn, ph.length_eq, ← hlen]
    rfl

/-- A leaf of a new symbol is one more tree. -/
theorem growing_addLeaf {total : Nat} {xs : List Sym} {s : State} (g : Growing total xs s) {n : TreeNode}
    (hx : n.sym ∉ xs) (hl : n.leaf = true) (hw : n.weight ≠ 0) :
    Growing (n.weight.toNat + total) (n.sym :: xs) (addNode n s) := by
  have hd : (n.sym :: xs).Nodup := List.nodup_cons.2 ⟨hx, g.distinct⟩
  have hroom := length_le_of_nodup hd
  rw [List.length_cons] at hroom
  obtain ⟨hc1, hc2⟩ := g.count
  have hn : s.nnodes.toNat < 511 := by omega
  obtain ⟨hs, ys, f, p, hnd, hb, hlen⟩ := g.forest
  rw [← g.weight]
  exact growing_addNode hn (by omega) (.leaf (nodeAt_addNode_new n hn) hl hw) f (p.cons _) hd hnd hb hlen

/-- The Internal node over two removed slots (R118). -/
def mergedNode (a b : PqSlot) : TreeNode :=
  { leaf := false, sym := 0, weight := a.weight + b.weight, left := a.handle, right := b.handle }

theorem mergeOnce_eq (s : State) :
    mergeOnce s = addNode (mergedNode (pqRemoveMin s).1 (pqRemoveMin (pqRemoveMin s).2).1)
      (pqRemoveMin (pqRemoveMin s).2).2 := rfl

/-- Two removals from a queue of at least two valid slots. -/
theorem validSlots_two_removals {s : State} (hc : 2 ≤ validCount s) :
    (validSlots s).Perm ((pqRemoveMin s).1 :: (pqRemoveMin (pqRemoveMin s).2).1 ::
      validSlots (pqRemoveMin (pqRemoveMin s).2).2) := by
  have h := validCount_pqRemoveMin (s := s) (by omega)
  exact (validSlots_pqRemoveMin (by omega)).trans ((validSlots_pqRemoveMin (by omega)).cons _)

theorem queueWeight_two_removals {s : State} (hc : 2 ≤ validCount s) :
    queueWeight s = (pqRemoveMin s).1.weight.toNat + (pqRemoveMin (pqRemoveMin s).2).1.weight.toNat +
      queueWeight (pqRemoveMin (pqRemoveMin s).2).2 := by
  simpa [queueWeight, Nat.add_assoc] using ((validSlots_two_removals hc).map (·.weight.toNat)).sum_eq

theorem validCount_two_removals {s : State} (hc : 2 ≤ validCount s) :
    validCount s = validCount (pqRemoveMin (pqRemoveMin s).2).2 + 2 := by
  simpa [validCount_eq] using (validSlots_two_removals hc).length_eq

theorem validCount_mergeOnce {s : State} (hc : 2 ≤ validCount s) (hle : validCount s ≤ 256) :
    validCount (mergeOnce s) + 1 = validCount s := by
  have h := validCount_two_removals hc
  have hp := (validSlots_addNode (mergedNode (pqRemoveMin s).1 (pqRemoveMin (pqRemoveMin s).2).1)
    (s := (pqRemoveMin (pqRemoveMin s).2).2) (by omega)).length_eq
  rw [List.length_cons, ← validCount_eq, ← validCount_eq, ← mergeOnce_eq] at hp
  omega

theorem toNat_weight_mergedNode {a b : PqSlot} (h : a.weight.toNat + b.weight.toNat < 2 ^ 32) :
    (mergedNode a b).weight.toNat = a.weight.toNat + b.weight.toNat := by
  simp only [mergedNode, BitVec.toNat_add]
  omega

/-- Where two slots `a` and `b` have left the queue of `u`, the node over both takes their place in the forest (R118). -/
theorem growing_addNode_mergedNode {a b : PqSlot} {u : State} {hs : List Handle} {ys xs : List Sym}
    (hn : u.nnodes.toNat < 511) (hc : validCount u < 256) (hfit : a.weight.toNat + b.weight.toNat < 2 ^ 32)
    (f : Forest u.node (a :: b :: validSlots u) hs ys) (p : ys.Perm xs) (hd : xs.Nodup) (hnd : hs.Nodup)
    (hb : ∀ k ∈ hs, k.toNat < u.nnodes.toNat) (hlen : hs.length = u.nnodes.toNat) :
    Growing (a.weight.toNat + b.weight.toNat + queueWeight u) xs (addNode (mergedNode a b) u) := by
  have hold : ∀ k ∈ hs, nodeAt (addNode (mergedNode a b) u).node k = nodeAt u.node k := fun k hk =>
    nodeAt_addNode_old _ (hb k hk)
  rw [← toNat_weight_mergedNode hfit]
  cases f with
  | @cons _ na _ hsa _ xsa _ ta nodea wa f' =>
    cases f' with
    | @cons _ nb _ hsb hs2 xsb ys2 tb nodeb wb rest =>
      have ha : ∀ k ∈ hsa, k ∈ hsa ++ (hsb ++ hs2) := fun k hk => List.mem_append_left _ hk
      have hb2 : ∀ k ∈ hsb, k ∈ hsa ++ (hsb ++ hs2) := fun k hk =>
        List.mem_append_right _ (List.mem_append_left _ hk)
      have tree : IsTree (addNode (mergedNode a b) u).node (nextHandle u) (nextHandle u :: (hsa ++ hsb)) (xsa ++ xsb) :=
        .internal (nodeAt_addNode_new _ hn) rfl (ta.congr fun k hk => hold k (ha k hk))
          (tb.congr fun k hk => hold k (hb2 k hk)) ((hold _ (ha _ ta.root_mem)).trans nodea)
          ((hold _ (hb2 _ tb.root_mem)).trans nodeb) (by rw [toNat_weight_mergedNode hfit, wa, wb])
      rw [← List.append_assoc] at p hnd hb hlen
      exact growing_addNode hn hc tree rest p hd hnd hb hlen

/-- One merge replaces two trees by the tree over both; no weight is lost (R118). -/
theorem growing_mergeOnce {total : Nat} {xs : List Sym} {s : State} (g : Growing total xs s) (ht : total < 2 ^ 32)
    (hc : 2 ≤ validCount s) : Growing total xs (mergeOnce s) := by
  have hroom := length_le_of_nodup g.distinct
  obtain ⟨hc1, hc2⟩ := g.count
  obtain ⟨hs, ys, f, p, hnd, hb, hlen⟩ := g.forest
  have hw := queueWeight_two_removals hc
  have hcount := validCount_two_removals hc
  have hnode : (pqRemoveMin (pqRemoveMin s).2).2.node = s.node := by simp
  have hnn : (pqRemoveMin (pqRemoveMin s).2).2.nnodes = s.nnodes := by simp
  obtain ⟨hs', ys', f', ph, px⟩ := f.perm (validSlots_two_removals hc)
  rw [← hnode] at f'
  rw [← hnn] at hb hlen
  rw [g.weight] at hw
  rw [mergeOnce_eq, hw]
  exact growing_addNode_mergedNode (by rw [hnn]; omega) (by omega) (by omega) f' (px.trans p) g.distinct
    (ph.nodup_iff.2 hnd) (fun k hk => hb k (ph.mem_iff.1 hk)) (ph.length_eq.trans hlen)

/-! ## The loops of BUILD -/

@[simp] theorem freqAt_insertLeaf (s : State) (x y : Sym) : freqAt (insertLeaf s x) y = freqAt s y := by
  rw [(sameButTree_insertLeaf s x).eq]
  rfl

/-- Leaf insertion over the symbols `zs` adds a tree for each of them with a count (R115). -/
theorem growing_foldl_insertLeaf (zs : List Sym) {total : Nat} {xs : List Sym} {s : State} (g : Growing total xs s)
    (hd : (xs ++ zs).Nodup) :
    Growing (total + (zs.map fun x => (freqAt s x).toNat).sum) ((zs.filter fun x => freqAt s x != 0).reverse ++ xs)
      (zs.foldl insertLeaf s) := by
  induction zs generalizing total xs s with
  | nil => simpa using g
  | cons x zs ih =>
    obtain ⟨hx, hdzs⟩ := List.nodup_cons.1 (List.perm_middle.nodup_iff.1 hd)
    rw [List.foldl_cons, List.map_cons, List.sum_cons]
    by_cases h0 : freqAt s x = 0
    · have hs : insertLeaf s x = s := if_pos h0
      simpa [hs, h0] using ih g hdzs
    · have hs : insertLeaf s x =
          addNode { leaf := true, sym := x, weight := freqAt s x, left := 0, right := 0 } s := if_neg h0
      have g1 := growing_addLeaf g (n := { leaf := true, sym := x, weight := freqAt s x, left := 0, right := 0 })
        (fun hm => hx (List.mem_append_left _ hm)) rfl h0
      rw [← hs] at g1
      have := ih g1 (List.perm_middle.nodup_iff.1 hd)
      rw [List.filter_cons_of_pos (by simpa using h0), List.reverse_cons, List.append_assoc]
      simpa [Nat.add_comm, Nat.add_left_comm, Nat.add_assoc] using this

theorem allSyms_nodup : allSyms.Nodup := by
  refine (List.nodup_range (n := 256)).map_on fun a ha b hb h => ?_
  have := congrArg BitVec.toNat h
  simp only [List.mem_range, BitVec.toNat_ofNat] at ha hb this
  omega

/-- The counts in symbol order are the frequency table (R23). -/
theorem map_freqAt_allSyms (s : State) : allSyms.map (freqAt s) = s.freq.toList := by
  apply List.ext_getElem
  · simp [allSyms]
  · intro i h1 h2
    simp only [allSyms, List.map_map, List.length_map, List.length_range] at h1
    simp [allSyms, freqAt, Nat.mod_eq_of_lt h1]

/-- After the leaf insertion there is a tree for each present symbol, and their weights sum to the counts' (R115). -/
theorem growing_insertLeaves (s : State) :
    Growing (freqSum s) (allSyms.filter fun x => freqAt s x != 0).reverse (insertLeaves (buildStart s)) := by
  have g := growing_foldl_insertLeaf allSyms (growing_buildStart s) (by simpa using allSyms_nodup)
  have hsum : (allSyms.map fun x => (freqAt (buildStart s) x).toNat).sum = freqSum s := by
    rw [freqSum, ← map_freqAt_allSyms, List.map_map]
    rfl
  rw [Nat.zero_add, hsum, List.append_nil] at g
  exact g

/-- The merge loop ends with one tree (R118). -/
theorem growing_mergeLoop {total : Nat} {xs : List Sym} (ht : total < 2 ^ 32) (fuel : Nat) {s : State}
    (g : Growing total xs s) (h1 : 1 ≤ validCount s) (hf : validCount s ≤ fuel + 1) :
    Growing total xs (mergeLoop fuel s) ∧ validCount (mergeLoop fuel s) = 1 := by
  induction fuel generalizing s with
  | zero => exact ⟨g, by rw [mergeLoop]; omega⟩
  | succ fuel ih =>
    rw [mergeLoop]
    split
    · have hle : validCount s ≤ 256 := by
        have := g.count
        have := length_le_of_nodup g.distinct
        omega
      have := validCount_mergeOnce (s := s) (by omega) hle
      exact ih (growing_mergeOnce g ht (by omega)) (by omega) (by omega)
    · exact ⟨g, by omega⟩

/-- A forest of one tree is a valid tree at its root, of which the last removal leaves nothing in the queue (R120, R126). -/
theorem takeRoot_valid {total : Nat} {xs : List Sym} {s : State} (g : Growing total xs s) (h1 : validCount s = 1) :
    validTree (takeRoot s).root (takeRoot s).nnodes (takeRoot s).node = true ∧
      validCount (takeRoot s) = 0 := by
  have hp := validSlots_pqRemoveMin (s := s) (by omega)
  have hc := validCount_pqRemoveMin (s := s) (by omega)
  have hnil : validSlots (pqRemoveMin s).2 = [] := List.eq_nil_of_length_eq_zero (by rw [← validCount_eq]; omega)
  rw [hnil] at hp
  have hnode : (takeRoot s).node = s.node := pqRemoveMin_node s
  have hnn : (takeRoot s).nnodes = s.nnodes := pqRemoveMin_nnodes s
  refine ⟨?_, show validCount (pqRemoveMin s).2 = 0 by omega⟩
  obtain ⟨hcount, -⟩ := g.count
  have hroom := length_le_of_nodup g.distinct
  obtain ⟨hs, ys, f, p, hnd, hb, hlen⟩ := g.forest
  obtain ⟨hs', ys', f', ph, px⟩ := f.perm hp
  cases f' with
  | cons tree node weight rest =>
    cases rest with
    | nil =>
      rw [List.append_nil] at ph px
      have hb' := fun k hk => hb k (ph.mem_iff.1 hk)
      rw [hnode, hnn, validTree_iff]
      exact ⟨by omega, by omega, hb' _ tree.root_mem, _, _, tree, ph.nodup_iff.2 hnd, (px.trans p).nodup_iff.2 g.distinct,
        hb', ph.length_eq.trans hlen⟩

/-- With some count above 0 and a sum of counts that fits, BUILD makes a valid tree and empties the queue (R112, R118, R126). -/
theorem buildTree_valid {s : State} (he : freqEmpty s = false) (hsum : freqSum s ≤ Config.maxCount) :
    validTree (buildTree s).root (buildTree s).nnodes (buildTree s).node = true ∧ validCount (buildTree s) = 0 := by
  have g := growing_insertLeaves s
  obtain ⟨x, hx⟩ : ∃ x, freqAt s x ≠ 0 := by
    rw [freqEmpty, ← map_freqAt_allSyms] at he
    simpa [mem_allSyms] using he
  have hpos : 0 < (allSyms.filter fun x => freqAt s x != 0).reverse.length :=
    List.length_pos_of_mem (List.mem_reverse.2 (List.mem_filter.2 ⟨mem_allSyms x, by simpa using hx⟩))
  have hroom := length_le_of_nodup g.distinct
  obtain ⟨hc1, hc2⟩ := g.count
  obtain ⟨g1, h1⟩ := growing_mergeLoop (Nat.lt_of_le_of_lt hsum (by decide)) 255 g (g.validCount_pos hpos) (by omega)
  exact takeRoot_valid g1 h1

end Sys2Proof.Machine
end

section
/-! PROOF. Everything a step can do (00_scope.md R9): one list of the effects an access can have on the block, and the inversion of
the step over it. -/

namespace Sys2Proof

/-! ## The decoder reads a command's own word only (30_encoding.md R90 to R96) -/

/-- The opcode map's command with a `zero` field of 0 has the word's low bits as its own. -/
theorem low_of_instrOf {op : Byte} {i : Instr} {fmt : Format} {f : CommandFields} (hi : instrOf op f.low = some i)
    (hf : formatOf op = some fmt) (hz : f.zeroFieldOk fmt = true) : f.mid = 0 ∧ i.low = f.low := by
  unfold instrOf at hi
  split at hi
  case h_13 => cases hi
  all_goals
    rename_i hop
    cases hi
    rw [formatOf, hop] at hf
    cases hf
    simp only [CommandFields.zeroFieldOk, Bool.and_eq_true, beq_iff_eq] at hz
  -- FSYM, ESYM, DBYTE: format C1.
  case h_4 | h_8 | h_11 => exact ⟨hz, rfl⟩
  all_goals exact ⟨hz.1, hz.2.symm⟩

/-- A word read as a command is that command's word. -/
theorem eq_encode_of_decode {w : Word} {i : Instr} (h : decode w = .instr i) : w = encode i := by
  have hop := decode_instr_opcode h
  unfold decode at h
  split at h
  · cases h
  · rename_i j hj
    split at h
    · rename_i hwf
      cases h
      cases hf : formatOf (opcodeOf w) with
      | none => simp [CommandFields.wellFormed, hf] at hwf
      | some fmt =>
        rw [hf] at hwf
        obtain ⟨hmid, hlow⟩ := low_of_instrOf (f := fieldsOf w) hj hf hwf
        have hw : encode i = wordOf (fieldsOf w) := by
          rw [encode, ← hop, hlow, ← hmid]
          rfl
        rw [hw, wordOf_fieldsOf]
    · cases h

end Sys2Proof

namespace Sys2Proof.Machine

/-! ## The effects of an access -/

/-- What one access can do to the block when it completes, the response apart: what each command's own rule does once R103's checks
are passed, what a bus write stores, and what an error latches. -/
inductive Effect (s : State) : HostOp → State → Prop where
  /-- Reads, refused writes, rejected commands, NOP. -/
  | unchanged (op : HostOp) : Effect s op s
  /-- The reset input and SRESET (R181, R220). -/
  | reset {op : HostOp} (hop : op = .rst ∨ op = commandOp .sreset) : Effect s op (hardReset s)
  /-- An accepted bus write (R67). -/
  | store (op : HostOp) {data : Word} {w : BusWord} {t : State} (phase : s.phase = .empty)
      (stored : storeWord s data w = some t) : Effect s op t
  /-- An error but UNKNOWN_SYMBOL, which changes the latch alone, and a clear one only (R198, R199). -/
  | latch (op : HostOp) {e : Err} (info : Word) (clear : s.err = .none) (error : e ≠ .none) :
      Effect s op { s with err := e, errinfo := info }
  | clrerr : Effect s (commandOp .clrerr) (clearErr s)
  | fsym (x : Sym) (phase : s.phase = .empty) :
      Effect s (commandOp (.fsym x)) (setFreq s x (freqAt s x + 1))
  | build (phase : s.phase = .empty) (err : s.err = .none) (counted : freqEmpty s = false)
      (fits : freqSum s ≤ Config.maxCount) : Effect s (commandOp .build) (acceptTree (buildTree s))
  | tload (phase : s.phase = .empty) (err : s.err = .none) (valid : validTree s.root s.nnodes s.node = true) :
      Effect s (commandOp .tload) (acceptTree s)
  | estart (phase : s.phase = .ready) : Effect s (commandOp .estart) { setPacker s Packer.zero with phase := .enc }
  | esym (x : Sym) (k : Sink) (phase : s.phase = .enc) :
      Effect s (commandOp (.esym x))
        { setPacker s (packBits (packerOf s) (codeseq (codeAt s x))).1 with
          bytesOut := s.bytesOut ++ (packBits (packerOf s) (codeseq (codeAt s x))).2, byteSink := k }
  | esymUnknown (x : Sym) (phase : s.phase = .enc) (err : s.err = .none) :
      Effect s (commandOp (.esym x))
        { setPacker s Packer.zero with err := .unknownSymbol, errinfo := zext32 x, phase := .ready }
  | eend (k : Sink) (phase : s.phase = .enc) :
      Effect s (commandOp .eend)
        { setPacker s Packer.zero with
          phase := .ready, bytesOut := s.bytesOut ++ flushBytes (packerOf s), byteSink := k }
  | dstart (phase : s.phase = .ready) :
      Effect s (commandOp .dstart) { setReader s { byte := 0, cnt := 0, cur := s.root } with phase := .dec }
  | dbyte (b : Byte) (k : Sink) {r : Reader} {syms : List Sym} (phase : s.phase = .dec)
      (walked : walkBits s.node s.root 8 { byte := b, cnt := 8, cur := s.cur } = some (r, syms)) :
      Effect s (commandOp (.dbyte b)) { setReader s r with symsOut := s.symsOut ++ syms, symSink := k }
  | dend (phase : s.phase = .dec) : Effect s (commandOp .dend) { s with phase := .ready }

/-- An error that makes no phase change latches, and that is all. -/
theorem effect_of_raise {s t : State} {op : HostOp} {e : Err} {info : Word} (hs : s.err = .none) (he : e ≠ .none)
    (hu : e ≠ .unknownSymbol) (h : raise e info s = .next t) : Effect s op t := by
  rw [raise_of_clear hs, phaseAfter_of_ne hu] at h
  cases h
  exact .latch op info hs he

/-- R94's column: a legal command with a phase is in that phase. -/
theorem phase_of_legalIn {i : Instr} {p q : Phase} (h : legalIn i p = true) (hq : legalPhase i = some q) : p = q := by
  simpa [legalIn, hq] using h

/-- What a command's own rule does, when R103's checks have let it run and it completes. -/
theorem effect_of_ownRule {i : Instr} {s t : State} (hpass : s.err = .none ∨ i = .sreset ∨ i = .clrerr)
    (hlegal : legalIn i s.phase = true) (h : ownRule i s = .next t) : Effect s (commandOp i) t := by
  cases i with
  | nop =>
    cases h
    exact .unchanged _
  | sreset =>
    cases h
    exact .reset (.inr rfl)
  | clrerr =>
    cases h
    exact .clrerr
  | fsym x =>
    have he : s.err = .none := by simpa using hpass
    simp only [ownRule] at h
    split at h
    · exact effect_of_raise he (by decide) (by decide) h
    · cases h
      exact .fsym x (phase_of_legalIn hlegal rfl)
  | build =>
    have he : s.err = .none := by simpa using hpass
    simp only [ownRule] at h
    split at h
    · exact effect_of_raise he (by decide) (by decide) h
    · rename_i hf
      split at h
      · exact effect_of_raise he (by decide) (by decide) h
      · rename_i hs
        cases h
        exact .build (phase_of_legalIn hlegal rfl) he (by simpa using hf) (Nat.le_of_not_lt hs)
  | tload =>
    have he : s.err = .none := by simpa using hpass
    simp only [ownRule] at h
    split at h
    · rename_i hv
      cases h
      exact .tload (phase_of_legalIn hlegal rfl) he hv
    · exact effect_of_raise he (by decide) (by decide) h
  | estart =>
    cases h
    exact .estart (phase_of_legalIn hlegal rfl)
  | esym x =>
    have he : s.err = .none := by simpa using hpass
    simp only [ownRule] at h
    split at h
    · rw [raise_of_clear (by exact he)] at h
      cases h
      exact .esymUnknown x (phase_of_legalIn hlegal rfl) he
    · rcases emitBytes_cases (packBits (packerOf s) (codeseq (codeAt s x))).2
        (setPacker s (packBits (packerOf s) (codeseq (codeAt s x))).1) with ⟨k, -, hk⟩ | ⟨-, hk⟩ <;>
          rw [hk] at h <;> cases h
      exact .esym x k (phase_of_legalIn hlegal rfl)
  | eend =>
    simp only [ownRule] at h
    rcases emitBytes_cases (flushBytes (packerOf s)) { setPacker s Packer.zero with phase := .ready } with
      ⟨k, -, hk⟩ | ⟨-, hk⟩ <;> rw [hk] at h <;> cases h
    exact .eend k (phase_of_legalIn hlegal rfl)
  | dstart =>
    cases h
    exact .dstart (phase_of_legalIn hlegal rfl)
  | dbyte b =>
    simp only [ownRule] at h
    split at h
    · cases h
    · rename_i r syms hw
      rcases emitSyms_cases syms (setReader s r) with ⟨k, -, hk⟩ | ⟨-, hk⟩ <;> rw [hk] at h <;> cases h
      exact .dbyte b k (phase_of_legalIn hlegal rfl) hw
  | dend =>
    cases h
    exact .dend (phase_of_legalIn hlegal rfl)

/-- What a command does when it completes. -/
theorem effect_of_exec {i : Instr} {s t : State} (h : exec i s = .next t) : Effect s (commandOp i) t := by
  rcases exec_cases i s with ⟨-, -, hx⟩ | ⟨hclear, -, hx⟩ | ⟨hpass, hlegal, hx⟩ <;> rw [hx] at h
  · cases h
    exact .unchanged _
  · cases h
    exact .latch _ _ hclear (by decide)
  · exact effect_of_ownRule hpass hlegal h

/-- What a CMD write does when it completes. -/
theorem effect_of_runCommandWord {w : Word} {s t : State} (h : runCommandWord w s = .next t) :
    Effect s (commandWrite w) t := by
  cases hd : decode w with
  | instr i =>
    rw [eq_encode_of_decode hd] at h ⊢
    rw [runCommandWord_encode] at h
    exact effect_of_exec h
  | reject e =>
    by_cases he : s.err = .none
    · rw [runCommandWord_of_reject hd he] at h
      cases h
      exact .latch _ _ he (by decide)
    · rw [runCommandWord_of_reject_latched hd he] at h
      cases h
      exact .unchanged _

/-! ## The step -/

theorem nodeWordAt_ne_cmd (h k : Nat) : nodeWordAt h k ≠ some .cmd := by
  unfold nodeWordAt
  split
  · split <;> simp
  · simp

theorem codeWordAt_ne_cmd (x : Sym) (k : Nat) : codeWordAt x k ≠ some .cmd := by
  unfold codeWordAt
  split
  · simp
  · split <;> simp

theorem registerAt_eq_cmd {i : Nat} (h : registerAt i = some .cmd) : i = 0 := by
  unfold registerAt at h
  split at h
  case h_1 => rfl
  all_goals cases h

/-- CMD is the word at offset 0 and no other (R33, R62). -/
theorem off_of_cmd {off : Offset} (h : busWordAt off = some .cmd) : off = 0 := by
  simp only [busWordAt] at h
  split at h
  · cases h
  · split at h
    · have := registerAt_eq_cmd h
      exact BitVec.eq_of_toNat_eq (show off.toNat = 0 by omega)
    · split at h
      · cases h
      · split at h
        · cases h
        · split at h
          · exact absurd h (nodeWordAt_ne_cmd _ _)
          · exact absurd h (codeWordAt_ne_cmd _ _)

/-- What a bus write of a table or a register does. -/
theorem effect_of_busStore (s : State) (w : BusWord) (data : Word) (op : HostOp) : Effect s op (busStore s w data).2 := by
  unfold busStore
  split
  · exact .unchanged _
  · split
    · exact .store _ ‹_› ‹_›
    · exact .unchanged _

/-- An access that completes has one of the effects, and the responses may grow. -/
theorem effect_of_performOp {op : HostOp} {s t : State} (h : performOp op s = .next t) :
    ∃ u rs, Effect s op u ∧ t = { u with responses := rs } := by
  cases op with
  | read off bits =>
    cases h
    exact ⟨s, _, .unchanged _, rfl⟩
  | rst =>
    cases h
    exact ⟨hardReset s, _, .reset (.inl rfl), rfl⟩
  | write off bits data =>
    simp only [performOp] at h
    split at h
    · cases h
      exact ⟨s, _, .unchanged _, rfl⟩
    · rename_i hbits
      split at h
      · cases h
        exact ⟨s, _, .unchanged _, rfl⟩
      · rename_i w hw
        unfold writeWord at h
        split at h
        · rename_i hc
          subst hc
          rw [Decidable.not_not.1 hbits, off_of_cmd hw]
          cases hr : runCommandWord data s with
          | next u =>
            rw [hr] at h
            cases h
            exact ⟨u, _, effect_of_runCommandWord hr, rfl⟩
          | fault f =>
            rw [hr] at h
            cases h
          | refused r =>
            rw [hr] at h
            cases h
        · cases h
          exact ⟨_, _, effect_of_busStore s w data _, rfl⟩

/-- Everything a step can do: nothing when no access waits, else one of the effects of the next access. -/
theorem step_cases {s t : State} (h : step s = .next t) :
    (s.hostQueue = [] ∧ t = s) ∨
    ∃ op rest u rs, s.hostQueue = op :: rest ∧ Effect { s with hostQueue := rest } op u ∧
      t = { u with responses := rs } := by
  cases hq : s.hostQueue with
  | nil =>
    simp only [step, performNext, hq] at h
    cases h
    exact .inl ⟨rfl, rfl⟩
  | cons op rest =>
    rw [step_cons hq] at h
    obtain ⟨u, rs, he, ht⟩ := effect_of_performOp h
    exact .inr ⟨op, rest, u, rs, rfl, he, ht⟩

end Sys2Proof.Machine
end

section
/-! PROOF. The invariants of 10_state.md R45 hold after reset, and every effect of an access keeps them. -/

namespace Sys2Proof.Machine

open Sys2Proof.Safety

/-! ## After reset -/

/-- Settles O53: every table is empty and every register 0. -/
theorem invariantHoldsAtReset : Obligations.InvariantHoldsAtReset where
  tree := fun h => absurd rfl h
  rom := fun h => absurd rfl h
  noCode := fun _ x => by simp [codeAt, State.reset, CodeEntry.none]
  packerIdle := fun _ => ⟨rfl, rfl⟩
  readerIdle := rfl
  queueEmpty := by
    rw [validCount, State.reset, Vector.toList_replicate, List.countP_replicate]
    rfl
  cursor := fun h => by cases h
  cursorInternal := fun h => by cases h
  infoClear := fun _ => rfl
  romAligned := fun x j _ => by simp [codeAt, State.reset, CodeEntry.none]
  packerLow := fun j _ => BitVec.getLsbD_zero
  noTraversal := ⟨rfl, rfl⟩

/-- The invariants do not speak of the world outside the block (log 20). -/
theorem inv_hardReset (s : State) : Inv (hardReset s) :=
  have h : Inv State.reset := invariantHoldsAtReset
  { h with }

/-! ## Updates that keep the invariants -/

section
variable {s : State}

/-- Neither do they speak of the queue of accesses and the responses. -/
theorem inv_withHost (h : Inv s) (q : List HostOp) (r : List BusResponse) : Inv (withHost q r s) := { h with }

theorem inv_clearErr (h : Inv s) : Inv (clearErr s) := { h with infoClear := fun _ => rfl }

theorem inv_latch (h : Inv s) {e : Err} (he : e ≠ .none) (info : Word) : Inv { s with err := e, errinfo := info } :=
  { h with infoClear := fun hn => absurd hn he }

/-- In EMPTY the frequency table, the arena, `nnodes` and `root` are free (R45(a), (b)). -/
theorem inv_tables (h : Inv s) (hp : s.phase = .empty) (f : Vector Word 256) (a : Arena) (nn : BitVec 10) (r : Handle) :
    Inv { s with freq := f, node := a, nnodes := nn, root := r } :=
  { h with
    tree := fun hn => absurd hp hn
    rom := fun hn => absurd hp hn
    cursor := fun hd => absurd (hp.symm.trans hd) (by decide)
    cursorInternal := fun hd => absurd (hp.symm.trans hd) (by decide) }

/-- A bus write stores into these four alone (R67). -/
theorem storeWord_eq {t : State} {data : Word} {w : BusWord} (h : storeWord s data w = some t) :
    t = { s with freq := t.freq, node := t.node, nnodes := t.nnodes, root := t.root } := by
  cases w <;> cases h <;> rfl

theorem inv_storeWord {t : State} {data : Word} {w : BusWord} (h : Inv s) (hp : s.phase = .empty)
    (hs : storeWord s data w = some t) : Inv t := by
  rw [storeWord_eq hs]
  exact inv_tables h hp _ _ _ _

/-- A valid tree accepted from EMPTY with an empty queue (R112, R125). -/
theorem inv_acceptTree {t : State} (h : Inv s) (hp : s.phase = .empty) (hsame : SameButTree s t)
    (hv : validTree t.root t.nnodes t.node = true) (hq : validCount t = 0) : Inv (acceptTree t) where
  tree := fun _ => hv
  rom := fun _ => rfl
  noCode := fun hn => by cases hn
  packerIdle := fun _ => by
    rw [hsame.eq]
    exact h.packerIdle (by rw [hp]; decide)
  readerIdle := by
    rw [hsame.eq]
    exact h.readerIdle
  queueEmpty := hq
  cursor := fun hd => by cases hd
  cursorInternal := fun hd => by cases hd
  infoClear := by
    rw [hsame.eq]
    exact h.infoClear
  romAligned := genCodes_aligned t.root t.node
  packerLow := by
    rw [hsame.eq]
    exact h.packerLow
  noTraversal := ⟨rfl, rfl⟩

/-- The encoder's registers, within an encode (R27, R45(d)). -/
theorem inv_setPacker {p : Packer} (h : Inv s) (hp : s.phase = .enc) (hl : lowZero p) : Inv (setPacker s p) :=
  { h with
    packerIdle := fun hn => absurd hp hn
    packerLow := hl }

/-- An encode is opened from READY, or closed to READY, with the packer clear (R140, R142, R144). -/
theorem inv_packerPhase {p : Phase} (h : Inv s) (hs : s.phase ≠ .empty) (hp : p = .enc ∨ p = .ready) :
    Inv { setPacker s Packer.zero with phase := p } :=
  { h with
    tree := fun _ => h.tree hs
    rom := fun _ => h.rom hs
    noCode := fun hn => by rcases hp with rfl | rfl <;> cases hn
    packerIdle := fun _ => ⟨rfl, rfl⟩
    cursor := fun hd => by rcases hp with rfl | rfl <;> cases hd
    cursorInternal := fun hd => by rcases hp with rfl | rfl <;> cases hd
    packerLow := lowZero_zero }

theorem root_lt_of_validTree {root : Handle} {nnodes : BitVec 10} {arena : Arena}
    (hv : validTree root nnodes arena = true) : root.toNat < nnodes.toNat := by
  obtain ⟨-, -, hroot, -⟩ := (validTree_iff _ _ _).1 hv
  exact hroot

/-- The root as the cursor (R45(f)). -/
theorem inv_dstart (h : Inv s) (hp : s.phase = .ready) :
    Inv { setReader s { byte := 0, cnt := 0, cur := s.root } with phase := .dec } :=
  have hn : s.phase ≠ .empty := by rw [hp]; decide
  { h with
    tree := fun _ => h.tree hn
    rom := fun _ => h.rom hn
    noCode := fun hn => by cases hn
    packerIdle := fun _ => h.packerIdle (by rw [hp]; decide)
    readerIdle := rfl
    cursor := fun _ => root_lt_of_validTree (h.tree hn)
    cursorInternal := fun _ r n hr hl hn => by
      cases hr.symm.trans hn
      exact hl }

/-- In a decode the walk of any byte is defined, uses up its bits, and leaves a cursor as R45(f) wants it (R161, R168). -/
theorem walkBits_of_inv (h : Inv s) (hp : s.phase = .dec) (b : Byte) :
    ∃ r syms, walkBits s.node s.root 8 { byte := b, cnt := 8, cur := s.cur } = some (r, syms) ∧ r.cnt = 0 ∧
      r.cur.toNat < s.nnodes.toNat ∧
      ∀ rn n, nodeAt s.node s.root = some rn → rn.leaf = false → nodeAt s.node r.cur = some n → n.leaf = false := by
  obtain ⟨c, syms, hw, -, hc, hci⟩ := walkSeq_of_validTree (h.tree (by rw [hp]; decide)) ((byteBits b).take 8)
    (h.cursor hp) (h.cursorInternal hp)
  refine ⟨{ byte := b <<< 8, cnt := 8 - BitVec.ofNat 4 8, cur := c }, syms, ?_, rfl, hc, hci⟩
  rw [walkBits_eq _ _ _ _ (le_refl 8), hw]
  rfl

theorem inv_dbyte (h : Inv s) (hp : s.phase = .dec) {b : Byte} {r : Reader} {syms : List Sym}
    (hw : walkBits s.node s.root 8 { byte := b, cnt := 8, cur := s.cur } = some (r, syms)) : Inv (setReader s r) := by
  obtain ⟨r', syms', hw', hcnt, hcur, hint⟩ := walkBits_of_inv h hp b
  cases hw.symm.trans hw'
  exact { h with readerIdle := hcnt, cursor := fun _ => hcur, cursorInternal := fun _ => hint }

theorem inv_dend (h : Inv s) (hp : s.phase = .dec) : Inv { s with phase := .ready } :=
  have hn : s.phase ≠ .empty := by rw [hp]; decide
  { h with
    tree := fun _ => h.tree hn
    rom := fun _ => h.rom hn
    noCode := fun hn => by cases hn
    packerIdle := fun _ => h.packerIdle (by rw [hp]; decide)
    cursor := fun hd => by cases hd
    cursorInternal := fun hd => by cases hd }

/-- What a port has carried and its consumer are not in the invariants (R32, log 4). -/
theorem inv_ports (h : Inv s) (bs : List Byte) (xs : List Sym) (k l : Sink) :
    Inv { s with bytesOut := bs, symsOut := xs, byteSink := k, symSink := l } := { h with }

end

/-- Every effect of an access keeps the invariants. -/
theorem Effect.inv {s t : State} {op : HostOp} (e : Effect s op t) (h : Inv s) : Inv t := by
  cases e with
  | unchanged => exact h
  | reset => exact inv_hardReset s
  | store _ hp hs => exact inv_storeWord h hp hs
  | latch _ info _ he => exact inv_latch h he info
  | clrerr => exact inv_clearErr h
  | fsym x hp => exact inv_tables h hp _ _ _ _
  | build hp _ hf hs =>
    obtain ⟨hv, hq⟩ := buildTree_valid hf hs
    exact inv_acceptTree h hp (sameButTree_buildTree s) hv hq
  | tload hp _ hv => exact inv_acceptTree h hp (.refl s) hv h.queueEmpty
  | estart hp => exact inv_packerPhase h (by rw [hp]; decide) (.inl rfl)
  | esym x k hp =>
    have hl : lowZero (packerOf s) := h.packerLow
    exact inv_ports (inv_setPacker h hp (packBits_lowZero hl _)) _ _ _ _
  | esymUnknown x hp => exact inv_latch (inv_packerPhase h (by rw [hp]; decide) (.inr rfl)) (by decide) _
  | eend k hp => exact inv_ports (inv_packerPhase h (by rw [hp]; decide) (.inr rfl)) _ _ _ _
  | dstart hp => exact inv_dstart h hp
  | dbyte b k hp hw => exact inv_ports (inv_dbyte h hp hw) _ _ _ _
  | dend hp => exact inv_dend h hp

/-- Settles O54: the step has one of the effects of `Effect`, each of which keeps the invariants; BUILD's is
`buildTree_valid`. -/
theorem everyStepKeepsTheInvariant : Obligations.EveryStepKeepsTheInvariant := by
  intro s t h hs
  rcases step_cases hs with ⟨-, rfl⟩ | ⟨op, rest, u, rs, -, he, rfl⟩
  · exact h
  · exact inv_withHost (he.inv (inv_withHost h rest s.responses)) u.hostQueue rs

end Sys2Proof.Machine
end

section
/-! PROOF. What every step keeps: the phase but for the events of 10_state.md R42, the tables outside EMPTY (R45(b)), and, under the
invariant, the machine itself (20_memory.md R77, 70_reset_and_hazards.md R232). -/

namespace Sys2Proof.Machine

open Sys2Proof.Safety

/-! ## The decoded command (R34, R103) -/

/-- Settles O7: the word is the command's own, and a CMD write of it is `exec`. -/
theorem stepRunsTheDecodedCommand : Obligations.StepRunsTheDecodedCommand := by
  intro s w i rest hd hq
  rw [step_cons hq, eq_encode_of_decode hd, performOp_cmd, runCommandWord_encode]
  cases exec i { s with hostQueue := rest } <;> rfl

/-! ## Phase and tables -/

theorem encode_esym (x : Sym) : encode (.esym x) = 0x21000000 ||| x.setWidth 32 := by
  revert x
  decide

@[simp] theorem buildTree_err (s : State) : (buildTree s).err = s.err := by
  rw [(sameButTree_buildTree s).eq]

theorem storeWord_phase {s t : State} {data : Word} {w : BusWord} (h : storeWord s data w = some t) :
    t.phase = s.phase := by
  rw [storeWord_eq h]

/-- Settles O55: the effects that change the phase are those of R42's rows. -/
theorem phaseChangesOnlyAsListed : Obligations.PhaseChangesOnlyAsListed := by
  intro s t op rest hq hs
  rcases step_cases hs with ⟨hnil, -⟩ | ⟨op', rest', u, rs, hq', e, rfl⟩
  · rw [hq] at hnil
    cases hnil
  rw [hq] at hq'
  cases hq'
  cases e with
  | unchanged => exact .inl rfl
  | reset hop => exact .inr (.inl ⟨rfl, hop⟩)
  | store _ _ hw =>
    have hu := storeWord_phase hw
    exact .inl hu
  | latch => exact .inl rfl
  | clrerr => exact .inl rfl
  | fsym => exact .inl rfl
  | build hp he => exact .inr (.inr (.inl ⟨hp, rfl, by simpa using he, .inl rfl⟩))
  | tload hp he => exact .inr (.inr (.inl ⟨hp, rfl, he, .inr rfl⟩))
  | estart hp => exact .inr (.inr (.inr (.inl ⟨hp, rfl, rfl⟩)))
  | esym => exact .inl rfl
  | esymUnknown x hp =>
    exact .inr (.inr (.inr (.inr (.inr (.inl ⟨hp, rfl, rfl, x, by rw [← encode_esym]; rfl⟩)))))
  | eend k hp => exact .inr (.inr (.inr (.inr (.inr (.inr (.inl ⟨hp, rfl, rfl⟩))))))
  | dstart hp => exact .inr (.inr (.inr (.inr (.inl ⟨hp, rfl, rfl⟩))))
  | dbyte => exact .inl rfl
  | dend hp => exact .inr (.inr (.inr (.inr (.inr (.inr (.inr ⟨hp, rfl, rfl⟩))))))

/-- Settles O56: the effects that change a table are the resets and those that need EMPTY. -/
theorem treeIsImmutableOutsideEmpty : Obligations.TreeIsImmutableOutsideEmpty := by
  intro s t hne hs
  rcases step_cases hs with ⟨-, rfl⟩ | ⟨op, rest, u, rs, hq, e, rfl⟩
  · exact .inl ⟨rfl, rfl, rfl, rfl, rfl⟩
  cases e with
  | reset hop =>
    rcases hop with rfl | rfl
    · exact .inr ⟨rest, .inl hq⟩
    · exact .inr ⟨rest, .inr hq⟩
  | store _ hp => exact absurd hp hne
  | fsym _ hp => exact absurd hp hne
  | build hp => exact absurd hp hne
  | tload hp => exact absurd hp hne
  | _ => exact .inl ⟨rfl, rfl, rfl, rfl, rfl⟩

/-! ## No step stops -/

/-- Under the invariant and with consumers that accept, every command completes. -/
theorem exec_completes {s : State} (h : Inv s) (hs : SinksAccept s) (i : Instr) : ∃ t, exec i s = .next t := by
  obtain ⟨hb, hx⟩ := hs
  rcases exec_cases i s with ⟨-, -, he⟩ | ⟨-, -, he⟩ | ⟨-, hlegal, he⟩ <;> rw [he]
  · exact ⟨_, rfl⟩
  · exact ⟨_, rfl⟩
  cases i with
  | esym x =>
    simp only [ownRule]
    split
    · exact raise_next _ _ _
    · exact ⟨_, emitBytes_accepting hb⟩
  | eend => exact ⟨_, emitBytes_accepting (s := { setPacker s Packer.zero with phase := .ready }) hb⟩
  | dbyte b =>
    obtain ⟨r, syms, hw, -⟩ := walkBits_of_inv h (phase_of_legalIn hlegal rfl) b
    simp only [ownRule, hw]
    exact ⟨_, emitSyms_accepting (s := setReader s r) hx⟩
  | fsym x =>
    simp only [ownRule]
    split <;> exact ⟨_, rfl⟩
  | build =>
    simp only [ownRule]
    split
    · exact ⟨_, rfl⟩
    · split <;> exact ⟨_, rfl⟩
  | tload =>
    simp only [ownRule]
    split <;> exact ⟨_, rfl⟩
  | _ => exact ⟨_, rfl⟩

theorem performOp_completes {s : State} (h : Inv s) (hs : SinksAccept s) (op : HostOp) :
    ∃ t, performOp op s = .next t := by
  cases op with
  | read off bits => exact ⟨_, rfl⟩
  | rst => exact ⟨_, rfl⟩
  | write off bits data =>
    have hcmd : ∃ t, runCommandWord data s = .next t := by
      unfold runCommandWord
      split
      · exact exec_completes h hs _
      · split <;> exact ⟨_, rfl⟩
    obtain ⟨u, hu⟩ := hcmd
    simp only [performOp, writeWord, hu, answerWith]
    split
    · exact ⟨_, rfl⟩
    · split
      · exact ⟨_, rfl⟩
      · split <;> exact ⟨_, rfl⟩

/-- Settles O58: the ports take every value, and the walk of DBYTE stays in the tree. -/
theorem invariantStatesNeverStop : Obligations.InvariantStatesNeverStop := by
  intro s h hs
  cases hq : s.hostQueue with
  | nil => exact ⟨s, by simp [step, performNext, hq]⟩
  | cons op rest =>
    rw [step_cons hq]
    exact performOp_completes (inv_withHost h rest s.responses) hs op

end Sys2Proof.Machine
end

section
/-! PROOF. The registers as the host reads and writes them (10_state.md R34 to R40), and their values after reset (R44). -/

namespace Sys2Proof.Machine

open Sys2Proof.Safety

/-- Settles O21: `State.reset` field by field. -/
theorem resetValues : Obligations.ResetValues := by
  exact ⟨rfl, rfl, rfl, fun _ hx => Vector.getElem_replicate hx, fun _ hh => Vector.getElem_replicate hh, rfl, rfl,
    fun _ hx => Vector.getElem_replicate hx, rfl, rfl, rfl, rfl, rfl, fun _ hk => Vector.getElem_replicate hk, rfl, rfl, rfl⟩

/-- Settles O10: STATUS is a word that is never writable, with the fields of `statusWord`. -/
theorem statusShowsPhaseAndError : Obligations.StatusShowsPhaseAndError := by
  intro s
  have hw : busWordAt 0x0004 = some .status := rfl
  obtain ⟨hphase, hgap, herr, hhigh⟩ := statusWord_fields s
  refine ⟨⟨statusWord s, readAnswers_of_word hw, ?_, hgap, ?_, hhigh⟩, fun data =>
    writeAnswers_of_readOnly data hw (by decide) fun _ => rfl⟩
  · rw [hphase]
    cases s.phase <;> rfl
  · rw [herr]
    cases s.err <;> rfl

/-- Settles O11: each register's word, and for three of them that it is never writable. -/
theorem readOnlyRegisters : Obligations.ReadOnlyRegisters := by
  intro s
  have hcmd : busWordAt 0x0000 = some .cmd := rfl
  have herr : busWordAt 0x0008 = some .errinfo := rfl
  have hcur : busWordAt 0x0014 = some .cursor := rfl
  have hbw : busWordAt 0x0018 = some .bwstate := rfl
  exact ⟨readAnswers_of_word hcmd, readAnswers_of_word herr,
    ⟨cursorWord s, readAnswers_of_word hcur, low9_fields s.cur⟩,
    ⟨bwstateWord s, readAnswers_of_word hbw, bwstate_fields s.wcnt s.wacc⟩,
    fun data => ⟨writeAnswers_of_readOnly data herr (by decide) fun _ => rfl,
      writeAnswers_of_readOnly data hcur (by decide) fun _ => rfl,
      writeAnswers_of_readOnly data hbw (by decide) fun _ => rfl⟩⟩

/-- Settles O12: ROOT and NNODES are writable in EMPTY. -/
theorem rootAndNnodesRegisters : Obligations.RootAndNnodesRegisters := by
  intro s
  have hroot : busWordAt 0x000C = some .root := rfl
  have hnn : busWordAt 0x0010 = some .nnodes := rfl
  exact ⟨⟨rootWord s, readAnswers_of_word hroot, low9_fields s.root⟩,
    ⟨nnodesWord s, readAnswers_of_word hnn, low10_fields s.nnodes⟩,
    fun data => ⟨fun hp => writeAnswers_of_store data hroot (by decide) hp (fun _ => rfl) rfl,
      fun hp => writeAnswers_of_store data hnn (by decide) hp (fun _ => rfl) rfl,
      fun hp => ⟨writeAnswers_of_protected data hroot (by decide) hp,
        writeAnswers_of_protected data hnn (by decide) hp⟩⟩⟩

end Sys2Proof.Machine
end

section
/-! PROOF. Two facts of a valid tree: no code begins another (10_state.md R26, 40_build.md R124(e)), and every handle but the
root is a child exactly once (10_state.md R24, 40_build.md R126). -/

namespace Sys2Proof.Machine

open Sys2Proof.Safety

/-! ## No code begins another -/

/-- Settles O33: in a tree with an Internal root codes are paths to leaves; a lone leaf has one code. -/
theorem codesArePrefixFree : Obligations.CodesArePrefixFree := by
  intro root nnodes arena hv a b hab ha hb hp
  change (romAt (genCodes root arena) a).len ≠ 0 at ha
  change (romAt (genCodes root arena) b).len ≠ 0 at hb
  obtain ⟨hs, xs, t, -⟩ := validTree_tree hv
  obtain ⟨r, hr⟩ := t.node
  cases hl : r.leaf with
  | false => exact hab (t.path_prefix (codeseq_genCodes hv hr hl ha) (codeseq_genCodes hv hr hl hb) hp).2
  | true =>
    have hsym : ∀ x, (romAt (genCodes root arena) x).len ≠ 0 → r.sym = x := fun x hx => by
      rw [genCodes_leaf hr hl] at hx
      by_contra hne
      simp [hne, CodeEntry.none] at hx
    exact hab ((hsym a ha).symm.trans (hsym b hb))

/-! ## Children -/

/-- The number of links from a node to `h` (R24). -/
def childLinks (h : Handle) (n : TreeNode) : Nat :=
  if n.leaf then 0 else (if n.left = h then 1 else 0) + (if n.right = h then 1 else 0)

/-- The number of links to `h` from the node at index `i`. -/
def linksAt (arena : Arena) (h : Handle) (i : Nat) : Nat := (arena[i]?.map (childLinks h)).getD 0

theorem linksAt_of_node {arena : Arena} {k : Handle} {n : TreeNode} (hn : nodeAt arena k = some n) (h : Handle) :
    linksAt arena h k.toNat = childLinks h n := by
  rw [nodeAt] at hn
  simp [linksAt, hn]

/-- Within a tree `h` is a child once for each time it is a node, the root apart. -/
theorem IsTree.links {arena : Arena} {root : Handle} {hs : List Handle} {xs : List Sym} (t : IsTree arena root hs xs)
    (h : Handle) : (hs.map fun k => linksAt arena h k.toNat).sum + (if root = h then 1 else 0) = hs.count h := by
  induction t with
  | leaf hn hl hw => simp [linksAt_of_node hn, childLinks, hl, List.count_singleton]
  | internal hn hl t1 t2 hn1 hn2 hw ih1 ih2 =>
    simp only [List.map_cons, List.sum_cons, List.map_append, List.sum_append, List.count_cons, List.count_append,
      linksAt_of_node hn, childLinks, hl, beq_iff_eq]
    simp only [Bool.false_eq_true, if_false]
    omega

/-- A list of all handles below `nn` is, up to order, the numbers below `nn`. -/
theorem map_toNat_perm_range {nn : Nat} (hnn : nn ≤ 511) {hs : List Handle} (hd : hs.Nodup)
    (hm : ∀ k : Handle, k ∈ hs ↔ k.toNat < nn) : (hs.map BitVec.toNat).Perm (List.range nn) := by
  refine (List.perm_ext_iff_of_nodup (hd.map fun a b e => BitVec.eq_of_toNat_eq e) List.nodup_range).2 fun i => ?_
  simp only [List.mem_map, List.mem_range, hm]
  constructor
  · rintro ⟨k, hk, rfl⟩
    exact hk
  · intro hi
    have hnat : (BitVec.ofNat 9 i).toNat = i := by
      rw [BitVec.toNat_ofNat]
      omega
    exact ⟨BitVec.ofNat 9 i, by rwa [hnat], hnat⟩

/-- R24's links over the first `nn` entries of the arena, by index. -/
theorem parentLinks_eq {arena : Arena} {nn : Nat} (hnn : nn ≤ 511) (h : Handle) :
    parentLinks arena nn h = ((List.range nn).map (linksAt arena h)).sum := by
  have hmap : (arena.toList.take nn).map (childLinks h) = (List.range nn).map (linksAt arena h) := by
    apply List.ext_getElem
    · simpa using hnn
    · intro i h1 h2
      have hi : i < 511 := by
        simp only [List.length_map, List.length_range] at h2
        omega
      simp [linksAt, hi]
  exact congrArg List.sum hmap

/-- Settles O34: the links to a handle are its occurrences among the tree's nodes, the root's own apart. -/
theorem validTreeOwnsEachChildOnce : Obligations.ValidTreeOwnsEachChildOnce := by
  intro root nnodes arena hv h hh
  obtain ⟨-, hnn, -⟩ := (validTree_iff _ _ _).1 hv
  obtain ⟨hs, xs, t, hd, -, hm, -⟩ := validTree_tree hv
  have hl := t.links h
  rw [List.count_eq_one_of_mem hd ((hm h).2 hh)] at hl
  rw [parentLinks_eq hnn, ← ((map_toNat_perm_range hnn hd hm).map (linksAt arena h)).sum_eq, List.map_map]
  change (hs.map fun k => linksAt arena h k.toNat).sum = _
  by_cases he : h = root
  · rw [if_pos he.symm] at hl
    rw [if_pos he]
    omega
  · rw [if_neg (Ne.symm he)] at hl
    rw [if_neg he]
    omega

end Sys2Proof.Machine
end

section
/-! PROOF. The bus window (20_memory.md R62 to R68): refused and mapped accesses, the FREQ, NODE and CODE windows, and which writes
are accepted. -/

namespace Sys2Proof.Machine

open Sys2Proof.Safety

/-! ## Refused and mapped accesses (R66, R68) -/

theorem performOp_read_refused {off : Offset} {bits : Nat} (h : busWordAt off = none ∨ bits ≠ 32) (s : State) :
    performOp (.read off bits) s = .next (respond (.read .slverr 0) s) := by
  by_cases hb : bits = 32
  · simp [performOp, busRead, h.resolve_right (not_not_intro hb)]
  · simp [performOp, busRead, hb]

theorem performOp_write_refused {off : Offset} {bits : Nat} (h : busWordAt off = none ∨ bits ≠ 32) (data : Word)
    (s : State) : performOp (.write off bits data) s = .next (respond (.write .slverr) s) := by
  by_cases hb : bits = 32
  · simp [performOp, h.resolve_right (not_not_intro hb)]
  · simp [performOp, hb]

/-- Settles O8: such an access has no word, or a width that is refused before the address is looked at. -/
theorem unmappedMisalignedOrNarrowAccessIsRefused : Obligations.UnmappedMisalignedOrNarrowAccessIsRefused := by
  intro s off bits data rest h
  have hr : busWordAt off = none ∨ bits ≠ 32 := by rwa [busWordAt_eq_none_iff, or_assoc]
  exact ⟨performOp_read_refused hr _, performOp_write_refused hr data _⟩

theorem exists_busWordAt {off : Offset} (hm : ¬ Unmapped off) (ha : off.toNat % 4 = 0) : ∃ w, busWordAt off = some w := by
  apply Option.ne_none_iff_exists'.1
  rw [Ne, busWordAt_eq_none_iff]
  exact fun h => h.elim hm (absurd ha)

/-- Settles O9: the offset has a word, and the data is that word's value. -/
theorem mappedReadIsOkayAndWithoutSideEffect : Obligations.MappedReadIsOkayAndWithoutSideEffect := by
  intro s off hm ha
  obtain ⟨w, hw⟩ := exists_busWordAt hm ha
  exact ⟨wordValue s w, readAnswers_of_word hw⟩

/-! ## The FREQ window (R63) -/

theorem toNat_symbol {x : Nat} (hx : x < 256) : (BitVec.ofNat 8 x).toNat = x := Nat.mod_eq_of_lt hx

theorem freqAt_ofNat (s : State) {x : Nat} (hx : x < 256) : freqAt s (BitVec.ofNat 8 x) = s.freq[x] := by
  simp only [freqAt, toNat_symbol hx]

theorem setFreq_ofNat (s : State) {x : Nat} (hx : x < 256) (v : Word) :
    setFreq s (BitVec.ofNat 8 x) v = { s with freq := s.freq.set x v } := by
  simp only [setFreq, toNat_symbol hx]

/-- Settles O13: the window's word `x` is `freq[x]`, which is writable in EMPTY. -/
theorem freqWindow : Obligations.FreqWindow := by
  intro s x hx
  have hw := busWordAt_freq x hx
  refine ⟨?_, fun data => ⟨fun hp => ?_, fun hp => writeAnswers_of_protected data hw (by simp) hp⟩⟩
  · rw [← freqAt_ofNat s hx]
    exact readAnswers_of_word hw
  · rw [← setFreq_ofNat s hx]
    exact writeAnswers_of_store data hw (by simp) hp (fun _ => rfl) rfl

/-! ## The NODE window (R64) -/

theorem busWordAt_nodeWeight {h : Nat} (hh : h < 511) :
    busWordAt (BitVec.ofNat 15 (0x2000 + 16 * h)) = some (.nodeWeight ⟨h, hh⟩) :=
  (busWordAt_node h 0 hh (by decide)).trans (by simp [nodeWordAt, hh])

theorem busWordAt_nodeInfo {h : Nat} (hh : h < 511) :
    busWordAt (BitVec.ofNat 15 (0x2004 + 16 * h)) = some (.nodeInfo ⟨h, hh⟩) :=
  (busWordAt_node h 1 hh (by decide)).trans (by simp [nodeWordAt, hh])

theorem busWordAt_nodeChild {h : Nat} (hh : h < 511) :
    busWordAt (BitVec.ofNat 15 (0x2008 + 16 * h)) = some (.nodeChild ⟨h, hh⟩) :=
  (busWordAt_node h 2 hh (by decide)).trans (by simp [nodeWordAt, hh])

theorem busWordAt_nodeFourth {h : Nat} (hh : h < 511) : busWordAt (BitVec.ofNat 15 (0x200C + 16 * h)) = none :=
  (busWordAt_node h 3 hh (by decide)).trans (by simp [nodeWordAt])

/-- Settles O14: the window's words of node `h` are its WEIGHT, INFO and CHILD, writable in EMPTY, and one without a word. -/
theorem nodeWindow : Obligations.NodeWindow := by
  intro s h hh
  have hweight := busWordAt_nodeWeight hh
  have hinfo := busWordAt_nodeInfo hh
  have hchild := busWordAt_nodeChild hh
  have hnone := busWordAt_nodeFourth hh
  exact ⟨readAnswers_of_word hweight,
    ⟨infoWord s.node[h], readAnswers_of_word hinfo, infoWord_fields _⟩,
    ⟨childWord s.node[h], readAnswers_of_word hchild, childWord_fields _⟩,
    readAnswers_of_none hnone,
    fun data =>
      ⟨fun hp => ⟨writeAnswers_of_store data hweight (by simp) hp (fun _ => rfl) rfl,
          writeAnswers_of_store data hinfo (by simp) hp (fun _ => rfl) rfl,
          writeAnswers_of_store data hchild (by simp) hp (fun _ => rfl) rfl⟩,
        fun hp => ⟨writeAnswers_of_protected data hweight (by simp) hp,
          writeAnswers_of_protected data hinfo (by simp) hp,
          writeAnswers_of_protected data hchild (by simp) hp⟩,
        writeAnswers_of_none data hnone⟩⟩

/-! ## The CODE window (R65) -/

theorem codeAt_ofNat (s : State) {x : Nat} (hx : x < 256) : codeAt s (BitVec.ofNat 8 x) = s.code[x] := by
  simp only [codeAt, toNat_symbol hx]

theorem codeWordAt_succ (x : Sym) {k : Nat} (hk : k < 8) : codeWordAt x (k + 1) = some (.codeBits x ⟨k, hk⟩) :=
  dif_pos hk

theorem codeWordAt_eq_none (x : Sym) {k : Nat} (hk : 9 ≤ k) : codeWordAt x k = none := by
  obtain ⟨j, rfl⟩ : ∃ j, k = j + 1 := ⟨k - 1, by omega⟩
  exact dif_neg (by omega)

/-- No word of the window is writable. -/
theorem storeWord_of_codeWordAt {x : Sym} {k : Nat} {w : BusWord} (h : codeWordAt x k = some w) (s : State) (data : Word) :
    storeWord s data w = none := by
  unfold codeWordAt at h
  split at h
  · cases h
    rfl
  · split at h <;> cases h
    rfl

/-- Settles O15: LEN and BITSk are words that are never writable; the others have no word. -/
theorem codeWindow : Obligations.CodeWindow := by
  intro s x hx
  have hat := fun k => busWordAt_code x k hx
  refine ⟨⟨codeLenWord s.code[x], ?_, codeLenWord_fields _⟩, fun k hk => ?_,
    fun k h9 hk => readAnswers_of_none ((hat k hk).trans (codeWordAt_eq_none _ h9)), fun k hk data => ?_⟩
  · rw [← codeAt_ofNat s hx]
    exact readAnswers_of_word (hat 0 (by decide))
  · rw [← codeAt_ofNat s hx, show 0x4004 + 64 * x + 4 * k = 0x4000 + 64 * x + 4 * (k + 1) by omega]
    exact readAnswers_of_word ((hat (k + 1) (by omega)).trans (codeWordAt_succ _ hk))
  · cases hw : codeWordAt (BitVec.ofNat 8 x) k with
    | none => exact writeAnswers_of_none data ((hat k hk).trans hw)
    | some w =>
      have hcmd : w ≠ .cmd := fun hc => codeWordAt_ne_cmd _ _ (hc ▸ hw)
      exact writeAnswers_of_readOnly data ((hat k hk).trans hw) hcmd fun t => storeWord_of_codeWordAt hw t data

/-! ## Which writes are accepted (R67) -/

/-- The byte offset of a word (R33, R62 to R65). -/
def offsetOf : BusWord → Nat
  | .cmd => 0x0000
  | .status => 0x0004
  | .errinfo => 0x0008
  | .root => 0x000C
  | .nnodes => 0x0010
  | .cursor => 0x0014
  | .bwstate => 0x0018
  | .freq x => 0x0400 + 4 * x.toNat
  | .nodeWeight h => 0x2000 + 16 * h.val
  | .nodeInfo h => 0x2004 + 16 * h.val
  | .nodeChild h => 0x2008 + 16 * h.val
  | .codeLen x => 0x4000 + 64 * x.toNat
  | .codeBits x k => 0x4004 + 64 * x.toNat + 4 * k.val

theorem offsetOf_registerAt {i : Nat} {w : BusWord} (h : registerAt i = some w) : offsetOf w = 4 * i := by
  unfold registerAt at h
  split at h <;> cases h <;> rfl

theorem offsetOf_nodeWordAt {h k : Nat} {w : BusWord} (hw : nodeWordAt h k = some w) :
    offsetOf w = 0x2000 + 16 * h + 4 * k := by
  unfold nodeWordAt at hw
  split at hw
  · split at hw <;> cases hw <;> simp only [offsetOf] <;> omega
  · cases hw

theorem offsetOf_codeWordAt {x : Sym} {k : Nat} {w : BusWord} (hw : codeWordAt x k = some w) :
    offsetOf w = 0x4000 + 64 * x.toNat + 4 * k := by
  unfold codeWordAt at hw
  split at hw
  · cases hw
    rfl
  · split at hw <;> cases hw
    simp only [offsetOf]
    omega

/-- The address map puts every word at its own offset only. -/
theorem toNat_of_busWordAt {off : Offset} {w : BusWord} (h : busWordAt off = some w) : off.toNat = offsetOf w := by
  have hlt := off.isLt
  simp only [busWordAt] at h
  split at h
  · cases h
  split at h
  · have := offsetOf_registerAt h
    omega
  split at h
  · cases h
    rw [offsetOf, toNat_symbol (by omega)]
    omega
  split at h
  · cases h
  split at h
  · have := offsetOf_nodeWordAt h
    omega
  · have := offsetOf_codeWordAt h
    rw [toNat_symbol (by omega)] at this
    omega

/-- The writable words by their offsets: ROOT, NNODES, FREQ and NODE. -/
theorem storeWord_isSome_iff {off : Offset} {w : BusWord} (h : busWordAt off = some w) (s : State) (data : Word) :
    (storeWord s data w).isSome ↔ off = 0x000C ∨ off = 0x0010 ∨ (0x0400 ≤ off.toNat ∧ off.toNat < 0x4000) := by
  have hoff := toNat_of_busWordAt h
  have hroot : off = 0x000C ↔ off.toNat = 0x000C := BitVec.toNat_inj.symm
  have hnn : off = 0x0010 ↔ off.toNat = 0x0010 := BitVec.toNat_inj.symm
  rw [hroot, hnn, hoff]
  cases w with
  | freq i | nodeWeight i | nodeInfo i | nodeChild i =>
    have := i.isLt
    simp only [storeWord, offsetOf, Option.isSome_some, true_iff]
    omega
  | codeLen | codeBits =>
    simp only [storeWord, offsetOf, Option.isSome_none, Bool.false_eq_true, false_iff]
    omega
  | _ => simp [storeWord, offsetOf]

/-- Everything a write to a word other than CMD can do (R67). -/
theorem busStore_cases (s : State) (w : BusWord) (data : Word) :
    (s.phase = .empty ∧ ∃ t, storeWord s data w = some t ∧ busStore s w data = (.okay, t)) ∨
    (¬ (s.phase = .empty ∧ (storeWord s data w).isSome) ∧ busStore s w data = (.slverr, s)) := by
  unfold busStore
  cases hw : storeWord s data w with
  | none => exact .inr ⟨by simp, rfl⟩
  | some t =>
    by_cases hp : s.phase = .empty
    · exact .inl ⟨hp, t, rfl, if_pos hp⟩
    · exact .inr ⟨fun h => hp h.1, if_neg hp⟩

theorem storeWord_responses {s t : State} {data : Word} {w : BusWord} (h : storeWord s data w = some t) :
    t.responses = s.responses := by
  rw [storeWord_eq h]

/-- A CMD write leaves the response to the bus. -/
theorem runCommandWord_responses {w : Word} {s t : State} (h : runCommandWord w s = .next t) :
    t.responses = s.responses := by
  cases hd : decode w with
  | instr i =>
    rw [eq_encode_of_decode hd, runCommandWord_encode] at h
    exact (exec_host h).2
  | reject e =>
    by_cases he : s.err = .none
    · rw [runCommandWord_of_reject hd he] at h
      cases h
      rfl
    · rw [runCommandWord_of_reject_latched hd he] at h
      cases h
      rfl

theorem responses_of_answerWith {w : Word} {s t : State}
    (h : answerWith (.write .okay) (runCommandWord w s) = .next t) : t.responses = s.responses ++ [.write .okay] := by
  cases hr : runCommandWord w s with
  | next u =>
    rw [hr] at h
    cases h
    simp only [respond, runCommandWord_responses hr]
  | fault f =>
    rw [hr] at h
    cases h
  | refused r =>
    rw [hr] at h
    cases h

theorem performOp_write_word {off : Offset} {w : BusWord} (h : busWordAt off = some w) (s : State) (data : Word) :
    performOp (.write off 32 data) s = writeWord s w data := by
  simp [performOp, h]

/-- A write to a word other than CMD answers OKAY exactly when it is accepted, and else does nothing (R67). -/
theorem writeWord_answer {s t : State} {w : BusWord} {data : Word} (hc : w ≠ .cmd) (h : writeWord s w data = .next t) :
    (t.responses = s.responses ++ [.write .okay] ↔ s.phase = .empty ∧ (storeWord s data w).isSome) ∧
    (t.responses ≠ s.responses ++ [.write .okay] → t = respond (.write .slverr) s) := by
  rw [writeWord, if_neg hc] at h
  cases h
  rcases busStore_cases s w data with ⟨hp, u, hu, hb⟩ | ⟨hno, hb⟩ <;> rw [hb]
  · simp [respond, storeWord_responses hu, hp, hu]
  · simp [respond, hno]

/-- Settles O16: a mapped word is writable exactly at the listed offsets, and then in EMPTY only; a CMD write answers OKAY. -/
theorem writesAreAcceptedOnlyInEmpty : Obligations.WritesAreAcceptedOnlyInEmpty := by
  intro s t off data rest hstep
  rw [step_enqueued] at hstep
  refine ⟨fun hoff hm ha => ?_, fun hoff => ?_⟩
  · obtain ⟨w, hw⟩ := exists_busWordAt hm ha
    have hcmd : w ≠ .cmd := fun hc => hoff (off_of_cmd (hc ▸ hw))
    rw [performOp_write_word hw] at hstep
    rw [← storeWord_isSome_iff hw { s with hostQueue := rest } data]
    exact writeWord_answer hcmd hstep
  · subst hoff
    exact responses_of_answerWith (s := { s with hostQueue := rest }) hstep

end Sys2Proof.Machine
end

section
/-! PROOF. The output ports (20_memory.md R76, 70_reset_and_hazards.md R226): what they carried stays, every access is answered once
(R61), and a consumer of BYTE_OUT that stops. -/

namespace Sys2Proof.Machine

open Sys2Proof.Safety

/-! ## What was emitted stays, and every access is answered once -/

theorem buildTree_bytesOut (s : State) : (buildTree s).bytesOut = s.bytesOut := by
  rw [(sameButTree_buildTree s).eq]

theorem buildTree_symsOut (s : State) : (buildTree s).symsOut = s.symsOut := by
  rw [(sameButTree_buildTree s).eq]

/-- No effect of an access takes back what a port carried. -/
theorem Effect.outputs_grow {s t : State} {op : HostOp} (e : Effect s op t) :
    s.bytesOut <+: t.bytesOut ∧ s.symsOut <+: t.symsOut := by
  cases e with
  | store _ _ hw =>
    rw [storeWord_eq hw]
    exact ⟨List.prefix_rfl, List.prefix_rfl⟩
  | build =>
    rw [acceptTree, buildTree_bytesOut, buildTree_symsOut]
    exact ⟨List.prefix_rfl, List.prefix_rfl⟩
  | esym | eend => exact ⟨List.prefix_append _ _, List.prefix_rfl⟩
  | dbyte => exact ⟨List.prefix_rfl, List.prefix_append _ _⟩
  | _ => exact ⟨List.prefix_rfl, List.prefix_rfl⟩

/-- A write that completes is answered once (R61). -/
theorem performOp_write_response {off : Offset} {bits : Nat} {data : Word} {s t : State}
    (h : performOp (.write off bits data) s = .next t) : ∃ p, t.responses = s.responses ++ [.write p] := by
  by_cases hr : busWordAt off = none ∨ bits ≠ 32
  · rw [performOp_write_refused hr] at h
    cases h
    exact ⟨_, rfl⟩
  obtain ⟨hsome, rfl⟩ : busWordAt off ≠ none ∧ bits = 32 := by simpa using hr
  obtain ⟨w, hw⟩ := Option.ne_none_iff_exists'.1 hsome
  rw [performOp_write_word hw, writeWord] at h
  split at h
  · exact ⟨_, responses_of_answerWith h⟩
  · cases h
    rcases busStore_cases s w data with ⟨-, u, hu, hb⟩ | ⟨-, hb⟩ <;> rw [hb]
    · exact ⟨_, congrArg (· ++ _) (storeWord_responses hu)⟩
    · exact ⟨_, rfl⟩

/-- Settles O57: by the effects of the access for the ports, by the access itself for its response. -/
theorem outputsOnlyGrow : Obligations.OutputsOnlyGrow := by
  intro s t hs
  obtain ⟨hbytes, hsyms⟩ : s.bytesOut <+: t.bytesOut ∧ s.symsOut <+: t.symsOut := by
    rcases step_cases hs with ⟨-, rfl⟩ | ⟨op, rest, u, rs, -, e, rfl⟩
    · exact ⟨List.prefix_rfl, List.prefix_rfl⟩
    · exact e.outputs_grow
  refine ⟨hbytes, hsyms, ?_⟩
  cases hq : s.hostQueue with
  | nil =>
    simp only [step, performNext, hq] at hs
    cases hs
    rfl
  | cons op rest =>
    rw [step_cons hq] at hs
    cases op with
    | read off bits =>
      cases hs
      exact ⟨_, _, rfl⟩
    | write off bits data => exact performOp_write_response (s := { s with hostQueue := rest }) hs
    | rst =>
      cases hs
      rfl

/-! ## A consumer of BYTE_OUT that stops -/

/-- A consumer that accepts `n` more values takes as many bytes, and hangs a command that emits more (R76; log 4). -/
theorem emitBytes_stopsAfter {s : State} {n : Nat} (h : s.byteSink = .stopsAfter n) (bs : List Byte) :
    emitBytes bs s =
      if bs.length ≤ n then .next { s with bytesOut := s.bytesOut ++ bs, byteSink := .stopsAfter (n - bs.length) }
      else .fault .byteOutHangs := by
  simp only [emitBytes, h, Sink.accept]
  by_cases hn : bs.length ≤ n <;> simp [hn]

/-- ESYM emits the full bytes of the pending bits and the code, which `packBits_count` counts. -/
theorem ownRule_esym_stopsAfter {s : State} {x : Sym} {n : Nat} (hk : s.byteSink = .stopsAfter n)
    (hx : (codeAt s x).len ≠ 0) :
    if (s.wcnt.toNat + (codeAt s x).len.toNat) / 8 ≤ n then
      ∃ t, ownRule (.esym x) s = .next t ∧ t.phase = s.phase ∧
        t.byteSink = .stopsAfter (n - (s.wcnt.toNat + (codeAt s x).len.toNat) / 8)
    else ownRule (.esym x) s = .fault .byteOutHangs := by
  obtain ⟨hcount, -⟩ := packBits_count (packerOf s) (codeseq (codeAt s x))
  rw [codeseq_length, show (packerOf s).cnt = s.wcnt from rfl] at hcount
  have hemit := emitBytes_stopsAfter (s := setPacker s (packBits (packerOf s) (codeseq (codeAt s x))).1) hk
    (packBits (packerOf s) (codeseq (codeAt s x))).2
  rw [hcount] at hemit
  simp only [ownRule, if_neg hx, hemit]
  split
  · exact ⟨_, rfl, rfl, rfl⟩
  · rfl

/-- EEND emits the pending partial byte, if there is one. -/
theorem ownRule_eend_stopsAfter {s : State} {n : Nat} (hk : s.byteSink = .stopsAfter n) :
    ownRule .eend s =
      if (flushBytes (packerOf s)).length ≤ n then
        .next { s with wacc := 0, wcnt := 0, phase := .ready, bytesOut := s.bytesOut ++ flushBytes (packerOf s),
                       byteSink := .stopsAfter (n - (flushBytes (packerOf s)).length) }
      else .fault .byteOutHangs :=
  emitBytes_stopsAfter (s := { setPacker s Packer.zero with phase := .ready }) hk _

/-- Settles O59: in ENC both commands run their own rules, which stop at `emitBytes` alone. -/
theorem byteConsumerThatStopsHangsTheCommand : Obligations.ByteConsumerThatStopsHangsTheCommand := by
  intro s n hp he hk
  have hesym : ∀ x, exec (.esym x) s = ownRule (.esym x) s := fun x => exec_own he (by simp [legalIn, legalPhase, hp])
  have heend : exec .eend s = ownRule .eend s := exec_own he (by simp [legalIn, legalPhase, hp])
  refine ⟨fun x hx => ?_, fun hc => ?_, fun hc => ?_⟩
  · rw [hesym, ← hp]
    exact ownRule_esym_stopsAfter hk hx
  · have hflush : flushBytes (packerOf s) = [] := if_pos hc
    rw [heend, ownRule_eend_stopsAfter hk, hflush]
    simp [← hc, ← hk]
  · have hflush : flushBytes (packerOf s) = [s.wacc] := if_neg hc
    rw [heend, ownRule_eend_stopsAfter hk, hflush]
    rfl

end Sys2Proof.Machine
end

section
/-! PROOF. The decoder and the encoder (30_encoding.md R90 to R97): which words are commands, and what the host sees of a word
that is none or of a command in a wrong phase. -/

namespace Sys2Proof

/-! ## Decode and encode -/

/-- The decoder reads the word of a command as that command. -/
theorem decode_encode (i : Instr) : decode (encode i) = .instr i := by
  have hmap : instrOf i.opcode i.low = some i := by cases i <;> rfl
  have hwf : CommandFields.wellFormed ⟨i.opcode, 0#16, i.low⟩ (formatOf i.opcode) = true := by cases i <;> rfl
  simp [decode, encode, hmap, hwf]

/-- Settles O2: the decoder reads a command's own word as that command, and no other word. -/
theorem decodeAndEncodeAgree : Obligations.DecodeAndEncodeAgree := fun _ i =>
  ⟨eq_encode_of_decode, fun hw => hw ▸ decode_encode i⟩

/-- Settles O1: each word is that of the row's command. -/
theorem tableWordsDecode : Obligations.TableWordsDecode :=
  ⟨decode_encode .nop, decode_encode .sreset, decode_encode .clrerr, decode_encode (.fsym 0x61), decode_encode .build,
    decode_encode .tload, decode_encode .estart, decode_encode (.esym 0xFF), decode_encode .eend, decode_encode .dstart,
    decode_encode (.dbyte 0x58), decode_encode .dend⟩

/-! ## The fields of a command's word -/

theorem wordOf_and (f g : CommandFields) :
    wordOf f &&& wordOf g = wordOf { opcode := f.opcode &&& g.opcode, mid := f.mid &&& g.mid, low := f.low &&& g.low } := by
  apply BitVec.eq_of_getLsbD_eq
  intro i hi
  simp only [BitVec.getLsbD_and, getLsbD_wordOf]
  split_ifs <;> rfl

/-- Bits 23:8 of a command's word are 0 (R91, R92). -/
theorem encode_and_mid (i : Instr) : encode i &&& 0x00FFFF00 = 0 := by
  have h : wordOf ⟨i.opcode, 0, i.low⟩ &&& wordOf ⟨0, 0xFFFF, 0⟩ = wordOf ⟨0, 0, 0⟩ := by simp [wordOf_and]
  exact h

/-- Bits 23:0 of the word of a command without an operand are 0 (R91). -/
theorem encode_and_zeroField {i : Instr} (hlow : i.low = 0) : encode i &&& 0x00FFFFFF = 0 := by
  have h : wordOf ⟨i.opcode, 0, i.low⟩ &&& wordOf ⟨0, 0xFFFF, 0xFF⟩ = wordOf ⟨0, 0, 0⟩ := by simp [wordOf_and, hlow]
  exact h

/-- The opcode of a command is one of R94's twelve. -/
theorem opcode_mem (i : Instr) :
    i.opcode ∈ ([0x00, 0x01, 0x02, 0x10, 0x11, 0x12, 0x20, 0x21, 0x22, 0x30, 0x31, 0x32] : List (BitVec 8)) := by
  cases i <;> simp [Instr.opcode]

/-- A command whose opcode is of format C0 has no operand (R91). -/
theorem low_of_opcode_c0 {i : Instr}
    (h : i.opcode ∈ ([0x00, 0x01, 0x02, 0x11, 0x12, 0x20, 0x22, 0x30, 0x32] : List (BitVec 8))) : i.low = 0 := by
  cases i with
  | fsym x => simp [Instr.opcode] at h
  | esym x => simp [Instr.opcode] at h
  | dbyte b => simp [Instr.opcode] at h
  | _ => rfl

end Sys2Proof

namespace Sys2Proof.Machine

open Sys2Proof.Safety

/-! ## Illegal words and wrong phases, as the host sees them -/

/-- A CMD write of a word that is no command's word raises ILLEGAL_CMD with it (R95, R96). -/
theorem writeAnswers_of_no_command {s : State} {w : Word} (he : s.err = .none) (hw : ∀ i, w ≠ encode i) :
    WriteAnswers s 0x0000 w .okay { s with err := .illegalCmd, errinfo := w } := by
  refine writeAnswers_of_command rfl fun rest => ?_
  cases hd : decode w with
  | instr i => exact absurd (eq_encode_of_decode hd) (hw i)
  | reject e => exact runCommandWord_of_reject hd he

/-- Settles O3: the opcode of a command's word is that command's, which is none of the reserved ones. -/
theorem reservedOpcodeIsIllegal : Obligations.ReservedOpcodeIsIllegal := by
  intro s w he hop
  refine writeAnswers_of_no_command he ?_
  rintro i rfl
  have hi : (encode i).extractLsb' 24 8 = i.opcode := opcodeOf_encode i
  exact hop (hi ▸ opcode_mem i)

/-- Settles O4: the `zero` field of a command's word is 0, in either format. -/
theorem nonzeroReservedBitsAreIllegal : Obligations.NonzeroReservedBitsAreIllegal := by
  refine ⟨fun s w he h => writeAnswers_of_no_command he ?_, fun w => decodeAndEncodeAgree w .nop⟩
  rintro i rfl
  have hi : (encode i).extractLsb' 24 8 = i.opcode := opcodeOf_encode i
  rcases h with ⟨-, hmid⟩ | ⟨hop, hzero⟩
  · exact hmid (encode_and_mid i)
  · exact hzero (encode_and_zeroField (low_of_opcode_c0 (hi ▸ hop)))

/-- A CMD write of a command in a phase it is not legal in raises ILLEGAL_CMD with its word (R97). -/
theorem writeAnswers_of_wrong_phase {s : State} {i : Instr} (he : s.err = .none) (hp : legalIn i s.phase = false) :
    WriteAnswers s 0x0000 (encode i) .okay { s with err := .illegalCmd, errinfo := encode i } := by
  refine writeAnswers_of_command rfl fun rest => ?_
  rw [runCommandWord_encode, exec_eq]
  exact dispatchChecks_illegal he hp

theorem legalIn_eq_false {i : Instr} {p q : Phase} (hq : legalPhase i = some q) (hp : p ≠ q) : legalIn i p = false := by
  simp [legalIn, hq, hp]

/-- Settles O5: each of the nine commands has the legal phase that R94 lists for it. -/
theorem wrongPhaseIsIllegal : Obligations.WrongPhaseIsIllegal := by
  intro s w i he hd h
  rw [eq_encode_of_decode hd]
  refine writeAnswers_of_wrong_phase he ?_
  rcases h with ⟨hi, hp⟩ | ⟨hi, hp⟩ | ⟨hi, hp⟩ | ⟨hi, hp⟩
  · rcases hi with ⟨x, rfl⟩ | rfl | rfl <;> exact legalIn_eq_false rfl hp
  · rcases hi with rfl | rfl <;> exact legalIn_eq_false rfl hp
  · rcases hi with ⟨x, rfl⟩ | rfl <;> exact legalIn_eq_false rfl hp
  · rcases hi with ⟨b, rfl⟩ | rfl <;> exact legalIn_eq_false rfl hp

end Sys2Proof.Machine
end

section
/-! PROOF. The tree artifact (30_encoding.md R100): the code ROM depends on the arena only through the labelled tree at its
root. -/

namespace Sys2Proof.Machine

/-! ## The codes of a labelled tree -/

/-- `Visit(h, p)` (R121) over the labelled tree at `h`. -/
def Tree.writeCodes : Tree → List Bool → CodeRom → CodeRom
  | .leaf x _, p, rom => setCode rom x (entryOf p)
  | .internal _ l r, p, rom => r.writeCodes (p ++ [true]) (l.writeCodes (p ++ [false]) rom)

/-- `GenCodes` (R121, R122) over the labelled tree at the root. -/
def Tree.genCodes : Tree → CodeRom
  | .leaf x _ => setCode emptyRom x (entryOf [true])
  | .internal w l r => (Tree.internal w l r).writeCodes [] emptyRom

/-- A tree of the arena is a labelled tree, and Visit writes that tree's codes, with any depth bound from the number of
leaves on. -/
theorem IsTree.exists_tree {arena : Arena} {h : Handle} {hs : List Handle} {xs : List Sym} (t : IsTree arena h hs xs) :
    ∃ T : Tree, ∀ fuel, xs.length ≤ fuel →
      treeAt arena fuel h = some T ∧ ∀ p rom, visit arena fuel h p rom = T.writeCodes p rom := by
  induction t with
  | @leaf h n hn hl hw =>
    refine ⟨.leaf n.sym n.weight, fun fuel hf => ?_⟩
    obtain ⟨fuel, rfl⟩ := Nat.exists_eq_add_of_le' hf
    simp [treeAt, visit, hn, hl, Tree.writeCodes]
  | @internal h n l r hs1 hs2 xs1 xs2 hn hl t1 t2 hn1 hn2 hw ih1 ih2 =>
    obtain ⟨T1, h1⟩ := ih1
    obtain ⟨T2, h2⟩ := ih2
    refine ⟨.internal n.weight T1 T2, fun fuel hf => ?_⟩
    have hlen1 := t1.length
    have hlen2 := t2.length
    have hpos1 := t1.length_pos
    have hpos2 := t2.length_pos
    rw [List.length_append] at hf
    obtain ⟨fuel, rfl⟩ : ∃ k, fuel = k + 1 := Nat.exists_eq_add_of_le' (by omega)
    obtain ⟨tree1, visit1⟩ := h1 fuel (by omega)
    obtain ⟨tree2, visit2⟩ := h2 fuel (by omega)
    simp [treeAt, visit, hn, hl, tree1, tree2, visit1, visit2, Tree.writeCodes]

/-- The labelled tree at an Internal node is Internal. -/
theorem treeAt_internal {arena : Arena} {fuel : Nat} {h : Handle} {n : TreeNode} {T : Tree}
    (hn : nodeAt arena h = some n) (hl : n.leaf = false) (ht : treeAt arena (fuel + 1) h = some T) :
    ∃ l r, T = .internal n.weight l r := by
  simp only [treeAt, hn, hl, Bool.false_eq_true, if_false] at ht
  split at ht
  · cases ht
    exact ⟨_, _, rfl⟩
  · cases ht

/-- A valid arena has a labelled tree at its root, and the arena's code ROM is that of the tree. -/
theorem exists_tree_of_validTree {root : Handle} {nnodes : BitVec 10} {arena : Arena}
    (hv : validTree root nnodes arena = true) :
    ∃ T : Tree, treeAt arena 512 root = some T ∧ genCodes root arena = T.genCodes := by
  obtain ⟨hs, xs, t, -, -, -, -, hlen⟩ := validTree_tree hv
  obtain ⟨T, hT⟩ := t.exists_tree
  obtain ⟨htree, -⟩ := hT 512 (by omega)
  obtain ⟨-, hvisit⟩ := hT 256 hlen
  refine ⟨T, htree, ?_⟩
  obtain ⟨n, hn⟩ := t.node
  cases hl : n.leaf with
  | true =>
    have : T = .leaf n.sym n.weight := by simpa [treeAt, hn, hl, eq_comm] using htree
    simp [genCodes, hn, hl, this, Tree.genCodes]
  | false =>
    obtain ⟨l, r, rfl⟩ := treeAt_internal hn hl htree
    simp [genCodes, hn, hl, hvisit, Tree.genCodes]

/-- Settles O35: both code ROMs are that of the one labelled tree. -/
theorem sameTreeGivesSameCodes : Obligations.SameTreeGivesSameCodes := by
  intro root root' nnodes nnodes' arena arena' hv hv' htree
  obtain ⟨T, hT, hg⟩ := exists_tree_of_validTree hv
  obtain ⟨T', hT', hg'⟩ := exists_tree_of_validTree hv'
  have heq : T = T' := Option.some.inj (hT.symm.trans (htree.trans hT'))
  rw [hg, hg', heq]

/-! ## A tree seen from another arena -/

/-- The labelled tree at a node does not depend on the arena outside the tree's handles. -/
theorem IsTree.treeAt_congr {arena arena' : Arena} {h : Handle} {hs : List Handle} {xs : List Sym}
    (t : IsTree arena h hs xs) (heq : ∀ k ∈ hs, nodeAt arena' k = nodeAt arena k) (fuel : Nat) :
    treeAt arena' fuel h = treeAt arena fuel h := by
  induction t generalizing fuel with
  | leaf hn hl hw =>
    cases fuel with
    | zero => rfl
    | succ fuel => simp [treeAt, heq, hn, hl]
  | internal hn hl t1 t2 hn1 hn2 hw ih1 ih2 =>
    have h1 := ih1 fun k hk => heq k (List.mem_cons_of_mem _ (List.mem_append_left _ hk))
    have h2 := ih2 fun k hk => heq k (List.mem_cons_of_mem _ (List.mem_append_right _ hk))
    cases fuel with
    | zero => rfl
    | succ fuel => simp [treeAt, heq, hn, hl, h1, h2]

/-- A valid tree is one in any arena that has the same entries below `nnodes`, and has the same code ROM there. -/
theorem validTree_congr {root : Handle} {nnodes : BitVec 10} {arena arena' : Arena}
    (hv : validTree root nnodes arena = true)
    (heq : ∀ k : Handle, k.toNat < nnodes.toNat → nodeAt arena' k = nodeAt arena k) :
    validTree root nnodes arena' = true ∧ genCodes root arena' = genCodes root arena := by
  obtain ⟨hpos, hle, hroot, hs, xs, t, hd, hx, hb, hlen⟩ := (validTree_iff _ _ _).1 hv
  have heq' := fun k hk => heq k (hb k hk)
  have hv' := (validTree_iff _ _ _).2 ⟨hpos, hle, hroot, hs, xs, t.congr heq', hd, hx, hb, hlen⟩
  exact ⟨hv', sameTreeGivesSameCodes _ _ _ _ _ _ hv' hv (t.treeAt_congr heq' 512)⟩

end Sys2Proof.Machine
end

section
/-! PROOF. Runs of host accesses composed one after another (00_scope.md R9), and with them PERSIST and LOADTREE (30_encoding.md
R102). -/

namespace Sys2Proof.Machine

open Sys2Proof.Safety

/-! ## Runs of accesses -/

/-- The accesses `ops` all complete, answer `rs` in order and turn the block's `s` into `t`, whatever accesses wait after them and
whatever was answered before. -/
def Performs (ops : List HostOp) (s : State) (rs : List BusResponse) (t : State) : Prop :=
  ∀ q r, Sys2Proof.core.run ops.length (withHost (ops ++ q) r s) = .next (withHost q (r ++ rs) t)

theorem Performs.nil (s : State) : Performs [] s [] s := by
  intro q r
  simp [run_zero]

theorem Performs.append {ops ops' : List HostOp} {s t u : State} {rs rs' : List BusResponse} (h : Performs ops s rs t)
    (h' : Performs ops' t rs' u) : Performs (ops ++ ops') s (rs ++ rs') u := by
  intro q r
  rw [List.length_append, run_add, List.append_assoc, h, ← List.append_assoc]
  exact h' q _

/-- One access, from the step that performs it. -/
theorem performs_of_step {op : HostOp} {s t : State} {rs : List BusResponse}
    (h : ∀ q r, step (withHost (op :: q) r s) = .next (withHost q (r ++ rs) t)) : Performs [op] s rs t := by
  intro q r
  rw [List.length_singleton, run_succ, List.singleton_append, h]
  rfl

/-- What the statements call a run (`Runs`) starts from the accesses waiting and the responses given so far. -/
theorem Performs.runs {ops : List HostOp} {s t : State} {rs : List BusResponse} (h : Performs ops s rs t) :
    Runs ops s (withHost s.hostQueue (s.responses ++ rs) t) := h s.hostQueue s.responses

theorem wordValue_withHost (q : List HostOp) (r : List BusResponse) (s : State) (w : BusWord) :
    wordValue (withHost q r s) w = wordValue s w := by
  cases w <;> rfl

theorem storeWord_withHost (q : List HostOp) (r : List BusResponse) (s : State) (data : Word) (w : BusWord) :
    storeWord (withHost q r s) data w = (storeWord s data w).map (withHost q r) := by
  cases w <;> rfl

/-- A read of a mapped word (R66). -/
theorem performs_read {off : Offset} {w : BusWord} (hw : busWordAt off = some w) (s : State) :
    Performs [.read off 32] s [.read .okay (wordValue s w)] s := by
  refine performs_of_step fun q r => ?_
  rw [← wordValue_withHost q r s w]
  exact readAnswers_of_word (s := withHost q r s) hw q

/-- An accepted write in EMPTY (R67). -/
theorem performs_write {off : Offset} {w : BusWord} {s t : State} {data : Word} (hw : busWordAt off = some w)
    (hp : s.phase = .empty) (hs : storeWord s data w = some t) :
    Performs [.write off 32 data] s [.write .okay] t := by
  have hcmd : w ≠ .cmd := by
    rintro rfl
    cases hs
  refine performs_of_step fun q r => ?_
  have hstore := fun q => (storeWord_withHost q r s data w).trans (congrArg (Option.map (withHost q r)) hs)
  exact writeAnswers_of_store (s := withHost q r s) (t := withHost q r t) data hw hcmd hp hstore rfl q

/-- A command that completes (R34). -/
theorem performs_command {i : Instr} {s t : State} (h : exec i s = .next t) :
    Performs [commandOp i] s [.write .okay] t := by
  refine performs_of_step fun q r => ?_
  have hexec : exec i (withHost q r s) = .next (withHost q r t) := by rw [exec_withHost, h, mapNext]
  rw [step_commandOp rfl]
  exact congrArg (answerWith _) hexec

/-! ## PERSIST -/

theorem busWordAt_root : busWordAt 0x000C = some .root := rfl

theorem busWordAt_nnodes : busWordAt 0x0010 = some .nnodes := rfl

/-- What the three reads of a node answer (R64). -/
def nodeResponses (n : TreeNode) : List BusResponse :=
  [.read .okay n.weight, .read .okay (infoWord n), .read .okay (childWord n)]

theorem performs_readNode (s : State) {h : Nat} (hh : h < 511) :
    Performs (readNodeOps h) s (nodeResponses s.node[h]) s :=
  ((performs_read (busWordAt_nodeWeight hh) s).append (performs_read (busWordAt_nodeInfo hh) s)).append
    (performs_read (busWordAt_nodeChild hh) s)

/-- The reads of the first `n` nodes answer their words in order. -/
theorem performs_readNodes (s : State) {n : Nat} (hn : n ≤ 511) :
    Performs ((List.range n).flatMap readNodeOps) s ((s.node.toList.take n).flatMap nodeResponses) s := by
  induction n with
  | zero => exact .nil s
  | succ n ih =>
    have htake : s.node.toList.take (n + 1) = s.node.toList.take n ++ [s.node[n]] := by
      rw [← List.take_append_getElem (by simpa using hn), Vector.getElem_toList]
    rw [List.range_succ, htake, List.flatMap_append, List.flatMap_append, List.flatMap_singleton, List.flatMap_singleton]
    exact (ih (by omega)).append (performs_readNode s hn)

theorem performs_persist {s : State} (hn : s.nnodes.toNat ≤ 511) :
    Performs (persistOps s.nnodes.toNat) s (imageResponses (imageOf s)) s :=
  ((performs_read busWordAt_nnodes s).append (performs_read busWordAt_root s)).append (performs_readNodes s hn)

/-- Settles O38: PERSIST is reads of mapped words, whose values the image's responses list. -/
theorem persistReadsTheArenaImage : Obligations.PersistReadsTheArenaImage := fun _ hn => (performs_persist hn).runs

/-! ## LOADTREE -/

/-- SRESET in any state (R181, R200). -/
theorem exec_sreset (s : State) : exec .sreset s = .next (hardReset s) := by
  simp [exec, execSreset, dispatchChecks, passesLatch, Instr.opcode, legalIn, legalPhase]

/-- INFO and CHILD hold a node's fields (R64, R69): written over any entry they give the node back, its weight apart. -/
theorem writeChild_writeInfo (m n : TreeNode) :
    writeChild (writeInfo { m with weight := n.weight } (infoWord n)) (childWord n) = n := by
  obtain ⟨hleaf, -, hsym, -⟩ := infoWord_fields n
  obtain ⟨hleft, -, hright, -⟩ := childWord_fields n
  simp only [writeChild, writeInfo, hleaf, hsym, hleft, hright]

theorem putNode_eq_setNode (s : State) (h : Fin 511) (n : TreeNode) : putNode s h n = setNode s h.val n := by
  simp [putNode, setNode, Vector.setIfInBounds, Array.setIfInBounds]

theorem storeWord_nodeInfo_putNode (s : State) (h : Fin 511) (m : TreeNode) (data : Word) :
    storeWord (putNode s h m) data (.nodeInfo h) = some (putNode s h (writeInfo m data)) := by
  simp [storeWord, putNode]

theorem storeWord_nodeChild_putNode (s : State) (h : Fin 511) (m : TreeNode) (data : Word) :
    storeWord (putNode s h m) data (.nodeChild h) = some (putNode s h (writeChild m data)) := by
  simp [storeWord, putNode]

/-- The three writes of a node put it into the arena. -/
theorem performs_writeNode {s : State} (hp : s.phase = .empty) {h : Nat} (hh : h < 511) (n : TreeNode) :
    Performs (writeNodeOps h n) s (List.replicate 3 (.write .okay)) (setNode s h n) := by
  have hwrites := ((performs_write (data := n.weight) (busWordAt_nodeWeight hh) hp rfl).append
    (performs_write (data := infoWord n) (busWordAt_nodeInfo hh) hp (storeWord_nodeInfo_putNode ..))).append
    (performs_write (data := childWord n) (busWordAt_nodeChild hh) hp (storeWord_nodeChild_putNode ..))
  rw [writeChild_writeInfo, putNode_eq_setNode] at hwrites
  exact hwrites

/-- The nodes of an image put into an arena, from handle `h` on. -/
def storeNodes (arena : Arena) : Nat → List TreeNode → Arena
  | _, [] => arena
  | h, n :: rest => storeNodes (arena.setIfInBounds h n) (h + 1) rest

/-- The writes of an image's nodes put them into the arena. -/
theorem performs_writeNodes {s : State} (hp : s.phase = .empty) {h : Nat} {ns : List TreeNode} (hh : h + ns.length ≤ 511) :
    Performs (writeNodesOps h ns) s (List.replicate (writeNodesOps h ns).length (.write .okay))
      { s with node := storeNodes s.node h ns } := by
  induction ns generalizing h s with
  | nil => exact .nil s
  | cons n rest ih =>
    rw [List.length_cons] at hh
    rw [writeNodesOps, List.length_append, List.replicate_add]
    exact (performs_writeNode hp (by omega) n).append (ih (s := setNode s h n) hp (by omega))

theorem getElem?_storeNodes_of_lt (arena : Arena) {h i : Nat} (ns : List TreeNode) (hi : i < h) :
    (storeNodes arena h ns)[i]? = arena[i]? := by
  induction ns generalizing arena h with
  | nil => rfl
  | cons n rest ih =>
    rw [storeNodes, ih _ (by omega), Vector.getElem?_setIfInBounds_ne (by omega)]

theorem getElem?_storeNodes (arena : Arena) {h i : Nat} (ns : List TreeNode) (hi : i < ns.length) (hh : h + i < 511) :
    (storeNodes arena h ns)[h + i]? = ns[i]? := by
  induction ns generalizing arena h i with
  | nil => cases hi
  | cons n rest ih =>
    rw [storeNodes]
    cases i with
    | zero =>
      have hget := getElem?_storeNodes_of_lt (arena.setIfInBounds h n) rest (Nat.lt_succ_self h)
      exact hget.trans (Vector.getElem?_setIfInBounds_self_of_lt hh)
    | succ i =>
      rw [← Nat.add_assoc, Nat.add_right_comm]
      simpa using ih _ (by simpa using hi) (by omega)

/-- An arena into which an image was written has the image's entries below its `nnodes`. -/
theorem getElem?_storeNodes_image (s : State) (arena : Arena) {i : Nat} (hn : s.nnodes.toNat ≤ 511)
    (hi : i < s.nnodes.toNat) : (storeNodes arena 0 (imageOf s).nodes)[i]? = s.node[i]? := by
  have h := getElem?_storeNodes arena (h := 0) (i := i) (imageOf s).nodes (by simp [imageOf]; omega)
    (by rw [Nat.zero_add]; exact hi.trans_le hn)
  rw [Nat.zero_add] at h
  rw [h]
  simp [imageOf, hi]

/-- The state at LOADTREE's last command: reset, with the image of `s` in the arena. -/
def imageLoaded (s u : State) : State :=
  { hardReset u with
    nnodes := s.nnodes, root := s.root, node := storeNodes (hardReset u).node 0 (imageOf s).nodes }

/-- LOADTREE's accesses before its TLOAD: SRESET, then the writes of the image, in EMPTY. -/
theorem performs_loadImage (s u : State) :
    ∃ rs, Performs (commandOp .sreset :: wrOp 0x0010 ((0 : BitVec 22) ++ s.nnodes) ::
      wrOp 0x000C ((0 : BitVec 23) ++ s.root) :: writeNodesOps 0 (imageOf s).nodes) u rs (imageLoaded s u) := by
  have hnn : storeWord (hardReset u) ((0 : BitVec 22) ++ s.nnodes) .nnodes = some { hardReset u with nnodes := s.nnodes } := by
    rw [storeWord, (low10_fields s.nnodes).1]
  have hroot : storeWord { hardReset u with nnodes := s.nnodes } ((0 : BitVec 23) ++ s.root) .root =
      some { hardReset u with nnodes := s.nnodes, root := s.root } := by
    rw [storeWord, (low9_fields s.root).1]
  exact ⟨_, (((performs_command (exec_sreset u)).append (performs_write busWordAt_nnodes rfl hnn)).append
    (performs_write busWordAt_root rfl hroot)).append (performs_writeNodes rfl (by simp [imageOf]))⟩

/-- Settles O39: at the TLOAD the arena has the image's entries, so it is the valid tree with the same codes. -/
theorem loadtreeRestoresTheTree : Obligations.LoadtreeRestoresTheTree := by
  intro s u hv
  obtain ⟨-, hn, -, -⟩ := (validTree_iff _ _ _).1 hv
  obtain ⟨rs, hload⟩ := performs_loadImage s u
  have hnode := fun i => getElem?_storeNodes_image s (hardReset u).node (i := i) hn
  obtain ⟨hv', hcodes⟩ := validTree_congr (arena' := (imageLoaded s u).node) hv fun k hk => hnode k.toNat hk
  have htload : exec .tload (imageLoaded s u) = .next (acceptTree (imageLoaded s u)) := by
    rw [exec_own rfl rfl]
    exact if_pos hv'
  refine ⟨_, (hload.append (performs_command htload)).runs, rfl, rfl, rfl, rfl, hcodes, fun h hh hlt => ?_, fun x => ?_, rfl,
    rfl⟩
  · have hget := hnode h hlt
    rw [Vector.getElem?_eq_getElem hh, Vector.getElem?_eq_getElem hh] at hget
    exact Option.some.inj hget
  · simp [freqAt, withHost, imageLoaded, hardReset, State.reset]

end Sys2Proof.Machine
end

section
/-! PROOF. FSYM, TLOAD and the errors of BUILD (40_build.md R110 to R114, R125, R127); the frequency table of a text (R111). -/

namespace Sys2Proof.Machine

open Sys2Proof.Safety

/-! ## Commands of EMPTY -/

/-- A command of EMPTY, with a clear latch, is its own rule (R103). -/
theorem exec_of_empty {i : Instr} {s : State} (hp : s.phase = .empty) (he : s.err = .none)
    (hi : legalPhase i = some .empty) : exec i s = ownRule i s :=
  exec_own he (by simp [legalIn, hi, hp])

/-- An error but UNKNOWN_SYMBOL changes a clear latch and nothing else (R198, R199). -/
theorem raise_latches {e : Err} {s : State} (he : s.err = .none) (hne : e ≠ .unknownSymbol) (info : Word) :
    raise e info s = .next { s with err := e, errinfo := info } := by
  rw [raise_of_clear he, phaseAfter_of_ne hne]

/-- FSYM in EMPTY (R110). -/
theorem exec_fsym {s : State} (hp : s.phase = .empty) (he : s.err = .none) (x : Sym) :
    exec (.fsym x) s =
      if freqAt s x = 0xFFFFFFFF then .next { s with err := .weightOverflow, errinfo := zext32 x }
      else .next (setFreq s x (freqAt s x + 1)) := by
  rw [exec_of_empty hp he rfl, ← raise_latches he (by decide)]
  rfl

/-- BUILD in EMPTY (R112 to R114). -/
theorem exec_build {s : State} (hp : s.phase = .empty) (he : s.err = .none) :
    exec .build s =
      if freqEmpty s then .next { s with err := .invalidInput, errinfo := 0 }
      else if freqSum s > Config.maxCount then .next { s with err := .weightOverflow, errinfo := 0x00000100 }
      else .next (acceptTree (buildTree s)) := by
  rw [exec_of_empty hp he rfl, ← raise_latches he (by decide), ← raise_latches he (by decide)]
  rfl

/-- TLOAD in EMPTY (R125, R127). -/
theorem exec_tload {s : State} (hp : s.phase = .empty) (he : s.err = .none) :
    exec .tload s =
      if validTree s.root s.nnodes s.node then .next (acceptTree s)
      else .next { s with err := .corruptArtifact, errinfo := 0 } := by
  rw [exec_of_empty hp he rfl, ← raise_latches he (by decide)]
  rfl

/-- Settles O23: the two branches of FSYM's own rule. -/
theorem fsymCountsOneSymbol : Obligations.FsymCountsOneSymbol := fun _ x hp he => exec_fsym hp he x

/-- Every count is 0 exactly when BUILD finds the table empty (R113). -/
theorem freqEmpty_iff (s : State) : freqEmpty s = true ↔ ∀ x : Sym, freqAt s x = 0 := by
  rw [freqEmpty, ← map_freqAt_allSyms]
  simp [mem_allSyms]

/-- The sum of the counts in symbol order (R114). -/
theorem freqSum_eq (s : State) : freqSum s = (allSyms.map fun x => (freqAt s x).toNat).sum := by
  rw [freqSum, ← map_freqAt_allSyms, List.map_map]
  rfl

/-- Settles O25: the first check of BUILD's own rule. -/
theorem buildOfAnEmptyTable : Obligations.BuildOfAnEmptyTable := by
  intro s hp he h0
  rw [exec_build hp he, if_pos ((freqEmpty_iff s).2 h0)]

/-- Settles O26: the second check of BUILD's own rule; a table of counts that are all 0 sums to 0. -/
theorem buildOfTooLargeCounts : Obligations.BuildOfTooLargeCounts := by
  intro s hp he hsum
  have hlarge : freqSum s > Config.maxCount := hsum
  have hne : ¬ freqEmpty s = true := fun h0 => by
    have hzero : freqSum s = 0 := by simp [freqSum_eq, (freqEmpty_iff s).1 h0]
    omega
  rw [exec_build hp he, if_neg hne, if_pos hlarge]

/-- Settles O36: TLOAD's own rule on a valid tree. -/
theorem tloadAcceptsAValidTree : Obligations.TloadAcceptsAValidTree := by
  intro s hp he hv
  rw [exec_tload hp he, if_pos hv]
  rfl

/-- Settles O37: TLOAD's own rule on any other arena. -/
theorem tloadFailsClosed : Obligations.TloadFailsClosed := by
  intro s hp he hv
  rw [exec_tload hp he, if_neg (Bool.eq_false_iff.1 hv)]

/-! ## The frequency table of a text (R111) -/

/-- A count below the greatest goes up by one. -/
theorem exec_fsym_of_lt {s : State} {x : Sym} (hp : s.phase = .empty) (he : s.err = .none)
    (hx : (freqAt s x).toNat + 1 < 2 ^ 32) : exec (.fsym x) s = .next (setFreq s x (freqAt s x + 1)) := by
  rw [exec_fsym hp he, if_neg]
  intro h
  simp [h] at hx

/-- The count of `y` after `x` was counted. -/
theorem toNat_freqAt_setFreq {s : State} {x : Sym} (hx : (freqAt s x).toNat + 1 < 2 ^ 32) (y : Sym) :
    (freqAt (setFreq s x (freqAt s x + 1)) y).toNat = (freqAt s y).toNat + if x = y then 1 else 0 := by
  by_cases hxy : x = y
  · subst hxy
    rw [freqAt_setFreq_same, if_pos rfl, BitVec.toNat_add]
    exact Nat.mod_eq_of_lt hx
  · rw [freqAt_setFreq_other _ _ hxy, if_neg hxy, Nat.add_zero]

/-- The FSYM commands of a text add its counts to the table, where no count overflows. -/
theorem performs_freqOps {ts : List Sym} {s : State} (hp : s.phase = .empty) (he : s.err = .none)
    (hfit : ∀ x : Sym, (freqAt s x).toNat + ts.count x < 2 ^ 32) :
    ∃ rs t, Performs (freqOps ts) s rs t ∧ t.phase = .empty ∧ t.err = .none ∧
      ∀ x : Sym, (freqAt t x).toNat = (freqAt s x).toNat + ts.count x := by
  induction ts generalizing s with
  | nil => exact ⟨[], s, .nil s, hp, he, fun _ => rfl⟩
  | cons x ts ih =>
    have hx : (freqAt s x).toNat + 1 < 2 ^ 32 := by
      have := hfit x
      rw [List.count_cons_self] at this
      omega
    have hcount : ∀ y : Sym, (freqAt (setFreq s x (freqAt s x + 1)) y).toNat + ts.count y =
        (freqAt s y).toNat + (x :: ts).count y := fun y => by
      rw [toNat_freqAt_setFreq hx, List.count_cons]
      simp only [beq_iff_eq]
      omega
    obtain ⟨rs, t, hrun, hp', he', hfreq⟩ := ih (s := setFreq s x (freqAt s x + 1)) hp he fun y => by
      rw [hcount]
      exact hfit y
    exact ⟨_, t, (performs_command (exec_fsym_of_lt hp he hx)).append hrun, hp', he', fun y => (hfreq y).trans (hcount y)⟩

/-- Over all symbols the occurrences in a text sum to its length. -/
theorem sum_count_allSyms (ts : List Sym) : (allSyms.map ts.count).sum = ts.length := by
  have h := Multiset.sum_count_eq_card (s := ⟨(allSyms : Multiset Sym), Multiset.coe_nodup.2 allSyms_nodup⟩)
    (m := (ts : Multiset Sym)) fun x _ => mem_allSyms x
  simpa [Finset.sum] using h

/-- Settles O24: the FSYM commands from reset, where every count is 0. -/
theorem frequencyTableCountsTheText : Obligations.FrequencyTableCountsTheText := by
  intro ts hfit
  have h0 : ∀ x : Sym, (freqAt State.reset x).toNat = 0 := fun x => by simp [freqAt, State.reset]
  obtain ⟨rs, t, hrun, hp, he, hfreq⟩ := performs_freqOps (ts := ts) (s := State.reset) rfl rfl fun x => by
    rw [h0, Nat.zero_add]
    exact hfit x
  have hcount : ∀ x : Sym, (freqAt t x).toNat = ts.count x := fun x => by rw [hfreq, h0, Nat.zero_add]
  refine ⟨_, hrun.runs, he, hp, hcount, ?_⟩
  change freqSum t = ts.length
  rw [freqSum_eq, ← sum_count_allSyms]
  exact congrArg List.sum (List.map_congr_left fun x _ => hcount x)

end Sys2Proof.Machine
end

section
/-! PROOF. The arbiter's choice (40_build.md R117), and the codes of a valid tree as its paths (R121, R123). -/

namespace Sys2Proof.Machine

open Sys2Proof.Safety

/-! ## The arbiter -/

/-- The 41-bit key as a number (R117). -/
theorem toNat_key (e : PqSlot) : e.key.toNat = e.weight.toNat * 512 + e.seq.toNat := by
  rw [PqSlot.key, BitVec.toNat_append, ← Nat.shiftLeft_add_eq_or_of_lt e.seq.isLt, Nat.shiftLeft_eq]

/-- Keys are ordered by weight, then by sequence number (R117). -/
theorem key_le_iff (e m : PqSlot) : e.key.toNat ≤ m.key.toNat ↔
    e.weight.toNat < m.weight.toNat ∨ (e.weight = m.weight ∧ e.seq.toNat ≤ m.seq.toNat) := by
  have he := e.seq.isLt
  have hm := m.seq.isLt
  rw [toNat_key, toNat_key, ← BitVec.toNat_inj]
  omega

/-- A removal from a queue with a valid slot takes one of least key and clears its valid bit (R117). -/
theorem pqRemoveMin_of_valid {s : State} (h : ∃ e ∈ s.pq.toList, e.valid = true) :
    ∃ k : Fin 256, s.pq[k].valid = true ∧
      (∀ m ∈ s.pq.toList, m.valid = true → s.pq[k].key.toNat ≤ m.key.toNat) ∧
      pqRemoveMin s = (s.pq[k], { s with pq := s.pq.set k { s.pq[k] with valid := false } }) := by
  cases hl : leastValid 0 s.pq.toList with
  | none =>
    obtain ⟨e, he, hv⟩ := h
    rw [leastValid_none hl e he] at hv
    cases hv
  | some ke =>
    obtain ⟨k, e⟩ := ke
    obtain ⟨-, hk, hv, hmin⟩ := leastValid_some hl
    obtain ⟨hlt, rfl⟩ := List.getElem?_eq_some_iff.1 hk
    rw [Nat.sub_zero, Vector.length_toList] at hlt
    refine ⟨⟨k, hlt⟩, hv, hmin, ?_⟩
    simp [pqRemoveMin, hl, Vector.setIfInBounds, Array.setIfInBounds, hlt]

/-- Settles O30: the slot the arbiter removes, with its key read by weight and sequence number. -/
theorem arbiterRemovesTheLeastEntry : Obligations.ArbiterRemovesTheLeastEntry := by
  intro s ⟨k, hk⟩
  have hmem : ∀ j : Fin 256, s.pq[j] ∈ s.pq.toList := fun j => by simp
  obtain ⟨k, hv, hmin, hrem⟩ := pqRemoveMin_of_valid ⟨s.pq[k], hmem k, hk⟩
  rw [hrem]
  exact ⟨k, hv, rfl, fun j hj => (key_le_iff _ _).1 (hmin _ (hmem j) hj), rfl⟩

/-! ## Paths -/

/-- The nodes of a tree are those its paths lead to. -/
theorem IsTree.mem_iff_path {arena : Arena} {h : Handle} {hs : List Handle} {xs : List Sym} (t : IsTree arena h hs xs)
    (k : Handle) : k ∈ hs ↔ ∃ p, followPath arena h p = some k := by
  induction t with
  | @leaf h n hn hl hw =>
    rw [List.mem_singleton]
    constructor
    · rintro rfl
      exact ⟨[], rfl⟩
    · rintro ⟨_ | ⟨b, p⟩, hp⟩
      · exact (Option.some.inj hp).symm
      · simp [followPath, hn, hl] at hp
  | @internal h n l r hs1 hs2 xs1 xs2 hn hl t1 t2 hn1 hn2 hw ih1 ih2 =>
    have hcons : ∀ b p, followPath arena h (b :: p) = followPath arena (if b then n.right else n.left) p := fun b p => by
      simp [followPath, hn, hl]
    rw [List.mem_cons, List.mem_append, ih1, ih2]
    constructor
    · rintro (rfl | ⟨p, hp⟩ | ⟨p, hp⟩)
      · exact ⟨[], rfl⟩
      · exact ⟨false :: p, (hcons _ _).trans hp⟩
      · exact ⟨true :: p, (hcons _ _).trans hp⟩
    · rintro ⟨_ | ⟨b, p⟩, hp⟩
      · exact .inl (Option.some.inj hp).symm
      · rw [hcons] at hp
        cases b
        · exact .inr (.inl ⟨p, hp⟩)
        · exact .inr (.inr ⟨p, hp⟩)

/-- In a valid tree the handles below `nnodes` are those the root's paths lead to. -/
theorem lt_nnodes_iff_path {root : Handle} {nnodes : BitVec 10} {arena : Arena} (hv : validTree root nnodes arena = true)
    (k : Handle) : k.toNat < nnodes.toNat ↔ ∃ p, followPath arena root p = some k := by
  obtain ⟨hs, xs, t, -, -, hm, -⟩ := validTree_tree hv
  rw [← hm, t.mem_iff_path]

/-- In a valid tree a symbol is at the end of a path exactly when a node below `nnodes` is its leaf. -/
theorem exists_leafAt_iff {root : Handle} {nnodes : BitVec 10} {arena : Arena} (hv : validTree root nnodes arena = true)
    (x : Sym) : (∃ q, LeafAt arena root q x) ↔
      ∃ h n, h.toNat < nnodes.toNat ∧ nodeAt arena h = some n ∧ n.leaf = true ∧ n.sym = x := by
  constructor
  · rintro ⟨q, k, n, hq, hn⟩
    exact ⟨k, n, (lt_nnodes_iff_path hv k).2 ⟨q, hq⟩, hn⟩
  · rintro ⟨k, n, hk, hn⟩
    obtain ⟨q, hq⟩ := (lt_nnodes_iff_path hv k).1 hk
    exact ⟨q, k, n, hq, hn⟩

/-- Settles O32: an entry made from a path has that path as its sequence, and other entries are empty. -/
theorem codesAreThePathsOfTheTree : Obligations.CodesAreThePathsOfTheTree := by
  rintro root nnodes arena hv ⟨r, hr, hl⟩ x
  obtain ⟨hpath, hnone⟩ := genCodes_internal hv hr hl
  change (∀ p, p ≠ [] → (codeseq (romAt (genCodes root arena) x) = p ↔ LeafAt arena root p x)) ∧
    ((romAt (genCodes root arena) x).len = 0 ↔ _)
  refine ⟨fun p hp => ⟨?_, fun hq => ?_⟩, fun h0 => ?_, fun hno => ?_⟩
  · rintro rfl
    exact codeseq_genCodes hv hr hl (mt (codeseq_eq_nil_iff _).2 hp)
  · obtain ⟨hrom, -, hlen⟩ := hpath x p hq
    rw [hrom, codeseq_entryOf hlen]
  · intro h n hh hn hnl hx
    obtain ⟨q, hq⟩ := (exists_leafAt_iff hv x).2 ⟨h, n, hh, hn, hnl, hx⟩
    obtain ⟨hrom, hpos, hlen⟩ := hpath x q hq
    rw [← codeseq_eq_nil_iff, hrom, codeseq_entryOf hlen] at h0
    simp [h0] at hpos
  · rw [hnone x fun q hq => ?_]
    · rfl
    · obtain ⟨h, n, hh, hn, hnl, hx⟩ := (exists_leafAt_iff hv x).1 ⟨q, hq⟩
      exact hno h n hh hn hnl hx

end Sys2Proof.Machine
end

section
/-! PROOF. The arbiter's keys in BUILD (40_build.md R115 to R118): every valid slot holds a node's weight and its handle as sequence
number, and what leaves the queue is below what stays. -/

namespace Sys2Proof.Machine

open Sys2Proof.Safety

/-! ## Keys of nodes -/

/-- The arbiter's key `{weight, seq}` of a node's entry in the queue, whose sequence number is the handle (R117). -/
def nodeKey (arena : Arena) (h : Handle) : Nat := (weightOf arena h).getD 0 * 512 + h.toNat

theorem nodeKey_of_node {arena : Arena} {h : Handle} {n : TreeNode} (hn : nodeAt arena h = some n) :
    nodeKey arena h = n.weight.toNat * 512 + h.toNat := by
  simp [nodeKey, weightOf, hn]

theorem nodeKey_congr {arena arena' : Arena} {h : Handle} (heq : nodeAt arena' h = nodeAt arena h) :
    nodeKey arena' h = nodeKey arena h := by
  rw [nodeKey, weightOf, heq]
  rfl

/-- Different nodes have different keys. -/
theorem nodeKey_injective {arena : Arena} {a b : Handle} (h : nodeKey arena a = nodeKey arena b) : a = b := by
  have ha := a.isLt
  have hb := b.isLt
  apply BitVec.eq_of_toNat_eq
  unfold nodeKey at h
  omega

theorem exists_nodeAt (arena : Arena) {h : Handle} (hh : h.toNat < 511) : ∃ n, nodeAt arena h = some n :=
  ⟨arena[h.toNat], Vector.getElem?_eq_getElem hh⟩

/-- `KeyBelow` compares the keys as numbers. -/
theorem keyBelow_iff {arena : Arena} {a b : Handle} (ha : a.toNat < 511) (hb : b.toNat < 511) :
    KeyBelow arena a b ↔ nodeKey arena a < nodeKey arena b := by
  obtain ⟨n, hn⟩ := exists_nodeAt arena ha
  obtain ⟨m, hm⟩ := exists_nodeAt arena hb
  rw [nodeKey_of_node hn, nodeKey_of_node hm]
  simp only [KeyBelow, hn, hm, Option.some.injEq, exists_and_left, exists_eq_left', ← BitVec.toNat_inj]
  omega

/-! ## Slots that hold nodes -/

/-- The slot holds a created node: its weight, and its handle as the sequence number (R115, R118). -/
def SlotOf (s : State) (e : PqSlot) : Prop :=
  e.handle.toNat < s.nnodes.toNat ∧ e.key.toNat = nodeKey s.node e.handle

theorem SlotOf.weight {s : State} {e : PqSlot} (h : SlotOf s e) {n : TreeNode} (hn : nodeAt s.node e.handle = some n) :
    n.weight = e.weight := by
  obtain ⟨-, hkey⟩ := h
  rw [toNat_key, nodeKey_of_node hn] at hkey
  have hseq := e.seq.isLt
  have hhandle := e.handle.isLt
  apply BitVec.eq_of_toNat_eq
  omega

/-- The queue of BUILD: `seq` counts the nodes as `nnodes` does, and the valid slots hold different nodes. -/
structure Queued (s : State) : Prop where
  seq : s.seq.toNat = s.nnodes.toNat
  slot : ∀ e ∈ validSlots s, SlotOf s e
  distinct : ((validSlots s).map (·.handle)).Nodup

/-- There are no more valid slots than nodes. -/
theorem Queued.validCount_le {s : State} (q : Queued s) : validCount s ≤ s.nnodes.toNat := by
  have hnd : ((validSlots s).map (·.handle.toNat)).Nodup := by
    simpa [Function.comp_def] using q.distinct.map fun a b h => BitVec.eq_of_toNat_eq h
  have hsub : (validSlots s).map (·.handle.toNat) ⊆ List.range s.nnodes.toNat := fun k hk => by
    obtain ⟨e, he, rfl⟩ := List.mem_map.1 hk
    exact List.mem_range.2 (q.slot e he).1
  simpa [validCount_eq] using (List.subperm_of_subset hnd hsub).length_le

/-! ## A new node in the queue -/

theorem toNat_seq_addNode (n : TreeNode) {s : State} (hs : s.seq.toNat < 511) (hc : validCount s < 256) :
    (addNode n s).seq.toNat = s.seq.toNat + 1 := by
  obtain ⟨k, hk, -⟩ := freeSlot_of_validCount_lt (s := setNode s s.nnodes.toNat n) hc
  have hseq : (addNode n s).seq = s.seq + 1#9 := by
    rw [addNode, pqInsert, hk]
    rfl
  rw [hseq, BitVec.toNat_add, BitVec.toNat_ofNat]
  omega

theorem nodeKey_addNode_old (n : TreeNode) {s : State} {k : Handle} (h : k.toNat < s.nnodes.toNat) :
    nodeKey (addNode n s).node k = nodeKey s.node k := nodeKey_congr (nodeAt_addNode_old n h)

theorem nodeKey_addNode_new (n : TreeNode) {s : State} (h : s.nnodes.toNat < 511) :
    nodeKey (addNode n s).node (nextHandle s) = n.weight.toNat * 512 + s.nnodes.toNat := by
  rw [nodeKey_of_node (nodeAt_addNode_new n h), toNat_nextHandle h]

theorem getElem?_node_addNode_new (n : TreeNode) {s : State} (h : s.nnodes.toNat < 511) :
    (addNode n s).node[s.nnodes.toNat]? = some n := by
  rw [node_addNode, Vector.getElem?_setIfInBounds_self_of_lt h]

/-- The valid slots after a node was added: the new one and the old ones. -/
theorem mem_validSlots_addNode (n : TreeNode) {s : State} (hc : validCount s < 256) (e : PqSlot) :
    e ∈ validSlots (addNode n s) ↔ e = newSlot (nextHandle s) n.weight s ∨ e ∈ validSlots s := by
  rw [(validSlots_addNode n hc).mem_iff, List.mem_cons]

theorem queued_addNode (n : TreeNode) {s : State} (q : Queued s) (hn : s.nnodes.toNat < 511) (hc : validCount s < 256) :
    Queued (addNode n s) where
  seq := by rw [toNat_seq_addNode n (q.seq ▸ hn) hc, toNat_nnodes_addNode n hn, q.seq]
  slot := by
    intro e he
    rw [SlotOf, toNat_nnodes_addNode n hn]
    rcases (mem_validSlots_addNode n hc e).1 he with rfl | he
    · have hnew := toNat_nextHandle hn
      refine ⟨?_, ?_⟩
      · change (nextHandle s).toNat < _
        omega
      · rw [toNat_key]
        exact (congrArg _ q.seq).trans (nodeKey_addNode_new n hn).symm
    · obtain ⟨hlt, hkey⟩ := q.slot e he
      exact ⟨by omega, hkey.trans (nodeKey_addNode_old n hlt).symm⟩
  distinct := by
    rw [((validSlots_addNode n hc).map _).nodup_iff, List.map_cons, List.nodup_cons]
    refine ⟨fun hm => ?_, q.distinct⟩
    obtain ⟨e, he, heq⟩ := List.mem_map.1 hm
    have hlt := (q.slot e he).1
    have hnew := toNat_nextHandle hn
    have heq' : e.handle = nextHandle s := heq
    rw [heq'] at hlt
    omega

/-! ## Removals -/

/-- The removed slot has the least key (R117). -/
theorem key_pqRemoveMin_le {s : State} {m : PqSlot} (hm : m ∈ validSlots s) :
    (pqRemoveMin s).1.key.toNat ≤ m.key.toNat := by
  obtain ⟨hmem, hv⟩ := List.mem_filter.1 hm
  obtain ⟨k, -, hmin, hrem⟩ := pqRemoveMin_of_valid ⟨m, hmem, hv⟩
  rw [hrem]
  exact hmin m hmem hv

@[simp] theorem slotOf_pqRemoveMin (s : State) (e : PqSlot) : SlotOf (pqRemoveMin s).2 e ↔ SlotOf s e := by
  rw [SlotOf, SlotOf, pqRemoveMin_nnodes, pqRemoveMin_node]

/-- A removal leaves nodes of greater key in the queue. -/
theorem queued_pqRemoveMin {s : State} (q : Queued s) (hc : 0 < validCount s) :
    Queued (pqRemoveMin s).2 ∧ SlotOf s (pqRemoveMin s).1 ∧
      ∀ e ∈ validSlots (pqRemoveMin s).2, nodeKey s.node (pqRemoveMin s).1.handle < nodeKey s.node e.handle := by
  have hp := validSlots_pqRemoveMin hc
  have hin : (pqRemoveMin s).1 ∈ validSlots s := hp.mem_iff.2 (List.mem_cons_self ..)
  have hrest : ∀ e ∈ validSlots (pqRemoveMin s).2, e ∈ validSlots s := fun e he =>
    hp.mem_iff.2 (List.mem_cons_of_mem _ he)
  obtain ⟨hfresh, hdistinct⟩ := List.nodup_cons.1 ((hp.map (·.handle)).nodup_iff.1 q.distinct)
  refine ⟨⟨?_, fun e he => (slotOf_pqRemoveMin s e).2 (q.slot e (hrest e he)), hdistinct⟩, q.slot _ hin, fun e he => ?_⟩
  · rw [pqRemoveMin_seq, pqRemoveMin_nnodes, q.seq]
  · rw [← (q.slot _ hin).2, ← (q.slot e (hrest e he)).2]
    refine lt_of_le_of_ne (key_pqRemoveMin_le (hrest e he)) fun heq => hfresh ?_
    rw [(q.slot _ hin).2, (q.slot e (hrest e he)).2] at heq
    exact List.mem_map.2 ⟨e, he, (nodeKey_injective heq).symm⟩

/-- Two slots have left the queue of `u`, the first with a smaller key than the second, and that with a smaller one than any slot
left (R118). -/
structure Removed (a b : PqSlot) (u : State) : Prop where
  queue : Queued u
  left : SlotOf u a
  right : SlotOf u b
  ascending : nodeKey u.node a.handle < nodeKey u.node b.handle
  least : ∀ e ∈ validSlots u, nodeKey u.node b.handle < nodeKey u.node e.handle

theorem removed_two {s : State} (q : Queued s) (hc : 2 ≤ validCount s) :
    Removed (pqRemoveMin s).1 (pqRemoveMin (pqRemoveMin s).2).1 (pqRemoveMin (pqRemoveMin s).2).2 := by
  have hcount := validCount_pqRemoveMin (s := s) (by omega)
  obtain ⟨q1, hleft, hmin1⟩ := queued_pqRemoveMin q (by omega)
  obtain ⟨q2, hright, hmin2⟩ := queued_pqRemoveMin q1 (by omega)
  have hin : (pqRemoveMin (pqRemoveMin s).2).1 ∈ validSlots (pqRemoveMin s).2 :=
    (validSlots_pqRemoveMin (s := (pqRemoveMin s).2) (by omega)).mem_iff.2 (List.mem_cons_self ..)
  exact ⟨q2, by simpa using hleft, by simpa using hright, by simpa using hmin1 _ hin, by simpa using hmin2⟩

end Sys2Proof.Machine
end

section
/-! PROOF. The arena BUILD lays out (40_build.md R112, R115, R118, R120): the leaves in symbol order, then the Internal nodes in the
order of their merges, with children whose keys ascend in the order of their removal. -/

namespace Sys2Proof.Machine

open Sys2Proof.Safety

/-! ## The layout of the arena -/

/-- Handle `h` has an Internal node as the merge loop makes it (R118). -/
def MergedAt (arena : Arena) (h : Nat) : Prop :=
  ∃ n l r, arena[h]? = some n ∧ n.leaf = false ∧ n.sym = 0 ∧ n.left.toNat < h ∧ n.right.toNat < h ∧
    nodeAt arena n.left = some l ∧ nodeAt arena n.right = some r ∧ n.weight.toNat = l.weight.toNat + r.weight.toNat ∧
    KeyBelow arena n.left n.right

theorem keyBelow_congr {arena arena' : Arena} {a b : Handle} (ha : nodeAt arena' a = nodeAt arena a)
    (hb : nodeAt arena' b = nodeAt arena b) : KeyBelow arena' a b ↔ KeyBelow arena a b := by
  rw [KeyBelow, KeyBelow, ha, hb]

/-- A merged node's children have smaller handles. -/
theorem MergedAt.child_lt {arena : Arena} {h : Nat} (m : MergedAt arena h) {n : TreeNode} (hn : arena[h]? = some n) :
    n.left.toNat < h ∧ n.right.toNat < h := by
  obtain ⟨n', -, -, hn', -, -, hl, hr, -⟩ := m
  rw [hn] at hn'
  cases hn'
  exact ⟨hl, hr⟩

/-- A merged node sees the arena up to its own handle only. -/
theorem MergedAt.congr {arena arena' : Arena} {h : Nat} (m : MergedAt arena h)
    (heq : ∀ k ≤ h, arena'[k]? = arena[k]?) : MergedAt arena' h := by
  obtain ⟨n, l, r, hn, hleaf, hsym, hl, hr, hnl, hnr, hw, hk⟩ := m
  have hleft : nodeAt arena' n.left = nodeAt arena n.left := heq _ hl.le
  have hright : nodeAt arena' n.right = nodeAt arena n.right := heq _ hr.le
  exact ⟨n, l, r, (heq h le_rfl).trans hn, hleaf, hsym, hl, hr, hleft.trans hnl, hright.trans hnr, hw,
    (keyBelow_congr hleft hright).2 hk⟩

/-- The arena after `nn` nodes: the leaves `ls` from handle 0, then merged nodes, each of whose left children has a greater key than
the right child before it, and the entries of `base` above. -/
structure Layout (base : Arena) (ls : List TreeNode) (arena : Arena) (nn : Nat) : Prop where
  bound : ls.length ≤ nn
  leaves : ∀ h (hp : h < ls.length), arena[h]? = some ls[h]
  merged : ∀ h, ls.length ≤ h → h < nn → MergedAt arena h
  order : ∀ h n m, ls.length ≤ h → h + 1 < nn → arena[h]? = some n → arena[h + 1]? = some m →
    KeyBelow arena n.right m.left
  above : ∀ h, nn ≤ h → arena[h]? = base[h]?

/-- A leaf after leaves only (R115). -/
theorem Layout.addLeaf {base : Arena} {ls : List TreeNode} {arena : Arena} {nn : Nat} (l : Layout base ls arena nn)
    (hn : nn = ls.length) (hlt : nn < 511) (n : TreeNode) :
    Layout base (ls ++ [n]) (arena.setIfInBounds nn n) (nn + 1) where
  bound := by simp [hn]
  leaves := by
    intro h hp
    rw [List.length_append, List.length_singleton] at hp
    rcases Nat.lt_succ_iff_lt_or_eq.1 hp with hp | rfl
    · rw [Vector.getElem?_setIfInBounds_ne (by omega), l.leaves h hp, List.getElem_append_left hp]
    · subst hn
      rw [Vector.getElem?_setIfInBounds_self_of_lt hlt, List.getElem_concat_length rfl]
  merged := by
    intro h hp hlt
    rw [List.length_append, List.length_singleton] at hp
    omega
  order := by
    intro h _ _ hp hlt
    rw [List.length_append, List.length_singleton] at hp
    omega
  above := fun h hh => by rw [Vector.getElem?_setIfInBounds_ne (by omega), l.above h (by omega)]

/-- A merged node whose left child has a greater key than the right child of the node before (R118). -/
theorem Layout.addMerged {base : Arena} {ls : List TreeNode} {arena : Arena} {nn : Nat} (l : Layout base ls arena nn)
    (hlt : nn < 511) (n : TreeNode) (hm : MergedAt (arena.setIfInBounds nn n) nn)
    (hord : ∀ h p, ls.length ≤ h → h + 1 = nn → arena[h]? = some p →
      KeyBelow (arena.setIfInBounds nn n) p.right n.left) :
    Layout base ls (arena.setIfInBounds nn n) (nn + 1) := by
  have hold : ∀ k < nn, (arena.setIfInBounds nn n)[k]? = arena[k]? := fun k hk =>
    Vector.getElem?_setIfInBounds_ne (by omega)
  have hnew : (arena.setIfInBounds nn n)[nn]? = some n := Vector.getElem?_setIfInBounds_self_of_lt hlt
  refine ⟨l.bound.trans (Nat.le_succ _), fun h hp => ?_, fun h hp hh => ?_, fun h p m hp hh hn' hm' => ?_, fun h hh => ?_⟩
  · rw [hold h (hp.trans_le l.bound), l.leaves h hp]
  · rcases Nat.lt_succ_iff_lt_or_eq.1 hh with hh | rfl
    · exact (l.merged h hp hh).congr fun k hk => hold k (by omega)
    · exact hm
  · rw [hold h (by omega)] at hn'
    rcases Nat.lt_succ_iff_lt_or_eq.1 hh with hh | heq
    · rw [hold _ hh] at hm'
      have hright := ((l.merged h hp (by omega)).child_lt hn').2
      have hleft := ((l.merged (h + 1) (by omega) hh).child_lt hm').1
      exact (keyBelow_congr (hold _ (by omega)) (hold _ (by omega))).2 (l.order h p m hp hh hn' hm')
    · rw [heq, hnew] at hm'
      cases hm'
      exact hord h p hp heq hn'
  · rw [Vector.getElem?_setIfInBounds_ne (by omega), l.above h (by omega)]

/-! ## BUILD between two of its turns -/

/-- BUILD between two turns, by its arena: the queue holds nodes, the arena is laid out, the last merge removed nothing that is above
what is in the queue, and the newest node is in the queue. -/
structure Laid (base : Arena) (ls : List TreeNode) (s : State) : Prop where
  queue : Queued s
  layout : Layout base ls s.node s.nnodes.toNat
  ascending : ∀ h n, ls.length ≤ h → h + 1 = s.nnodes.toNat → s.node[h]? = some n →
    ∀ e ∈ validSlots s, nodeKey s.node n.right < nodeKey s.node e.handle
  newest : 0 < s.nnodes.toNat → ∃ e ∈ validSlots s, e.handle.toNat + 1 = s.nnodes.toNat

theorem laid_buildStart (s : State) : Laid s.node [] (buildStart s) := by
  have hv : validSlots (buildStart s) = [] := by simp [validSlots, List.filter_eq_nil_iff]
  refine ⟨⟨rfl, by simp [hv], by simp [hv]⟩, ⟨Nat.zero_le _, ?_, ?_, ?_, fun _ _ => rfl⟩, by simp [hv], by simp⟩ <;> simp

/-- The node added last is in the queue. -/
theorem newest_addNode (n : TreeNode) {s : State} (hn : s.nnodes.toNat < 511) (hc : validCount s < 256) :
    ∃ e ∈ validSlots (addNode n s), e.handle.toNat + 1 = (addNode n s).nnodes.toNat := by
  refine ⟨_, (mem_validSlots_addNode n hc _).2 (.inl rfl), ?_⟩
  rw [toNat_nnodes_addNode n hn]
  exact congrArg (· + 1) (toNat_nextHandle hn)

/-- One more leaf (R115). -/
theorem laid_addLeaf {base : Arena} {ls : List TreeNode} {s : State} (l : Laid base ls s) (n : TreeNode)
    (hn : s.nnodes.toNat = ls.length) (hroom : ls.length < 256) : Laid base (ls ++ [n]) (addNode n s) := by
  have hlt : s.nnodes.toNat < 511 := by omega
  have hc : validCount s < 256 := l.queue.validCount_le.trans_lt (by omega)
  refine ⟨queued_addNode n l.queue hlt hc, ?_, fun h _ hp hh => ?_, fun _ => newest_addNode n hlt hc⟩
  · rw [node_addNode, toNat_nnodes_addNode n hlt]
    exact l.layout.addLeaf hn hlt n
  · rw [toNat_nnodes_addNode n hlt] at hh
    rw [List.length_append, List.length_singleton] at hp
    omega

/-- The node over two removed slots is a merged one. -/
theorem mergedAt_addNode {a b : PqSlot} {u : State} (r : Removed a b u) (hn : u.nnodes.toNat < 511)
    (hfit : a.weight.toNat + b.weight.toNat < 2 ^ 32) :
    MergedAt (addNode (mergedNode a b) u).node u.nnodes.toNat := by
  have hla := r.left.1
  have hlb := r.right.1
  obtain ⟨na, hna⟩ := exists_nodeAt u.node (h := a.handle) (by omega)
  obtain ⟨nb, hnb⟩ := exists_nodeAt u.node (h := b.handle) (by omega)
  refine ⟨mergedNode a b, na, nb, getElem?_node_addNode_new _ hn, rfl, rfl, hla, hlb, (nodeAt_addNode_old _ hla).trans hna,
    (nodeAt_addNode_old _ hlb).trans hnb, ?_, ?_⟩
  · rw [toNat_weight_mergedNode hfit, r.left.weight hna, r.right.weight hnb]
  · refine (keyBelow_iff (by simp only [mergedNode]; omega) (by simp only [mergedNode]; omega)).2 ?_
    simpa only [mergedNode, nodeKey_addNode_old _ hla, nodeKey_addNode_old _ hlb] using r.ascending

/-- The node over two slots is above both in the order of keys. -/
theorem nodeKey_lt_mergedNode {a b : PqSlot} {u : State} (hb : SlotOf u b) (hn : u.nnodes.toNat < 511)
    (hfit : a.weight.toNat + b.weight.toNat < 2 ^ 32) :
    nodeKey (addNode (mergedNode a b) u).node b.handle < nodeKey (addNode (mergedNode a b) u).node (nextHandle u) := by
  have hlt := hb.1
  obtain ⟨nb, hnb⟩ := exists_nodeAt u.node (h := b.handle) (by omega)
  rw [nodeKey_addNode_old _ hlt, nodeKey_addNode_new _ hn, nodeKey_of_node hnb, hb.weight hnb,
    toNat_weight_mergedNode hfit]
  omega

/-- The node over two removed slots, where the right child of the node before had a smaller key than both (R118). -/
theorem laid_addNode_mergedNode {base : Arena} {ls : List TreeNode} {a b : PqSlot} {u : State} (r : Removed a b u)
    (l : Layout base ls u.node u.nnodes.toNat) (hn : u.nnodes.toNat < 511) (hc : validCount u < 256)
    (hfit : a.weight.toNat + b.weight.toNat < 2 ^ 32)
    (hasc : ∀ h n, ls.length ≤ h → h + 1 = u.nnodes.toNat → u.node[h]? = some n →
      nodeKey u.node n.right < nodeKey u.node a.handle) : Laid base ls (addNode (mergedNode a b) u) := by
  have hla := r.left.1
  have hlb := r.right.1
  have hm := mergedAt_addNode r hn hfit
  refine ⟨queued_addNode _ r.queue hn hc, ?_, fun h n hp hh hnode e he => ?_, fun _ => newest_addNode _ hn hc⟩
  · rw [node_addNode] at hm
    rw [node_addNode, toNat_nnodes_addNode _ hn]
    refine l.addMerged hn _ hm fun h p hp hh hnode => ?_
    have hright := ((l.merged h hp (by omega)).child_lt hnode).2
    rw [← node_addNode]
    refine (keyBelow_iff (by omega) (by simp only [mergedNode]; omega)).2 ?_
    rw [nodeKey_addNode_old _ (by omega), nodeKey_addNode_old _ (show (mergedNode a b).left.toNat < _ from hla)]
    exact hasc h p hp hh hnode
  · rw [toNat_nnodes_addNode _ hn, Nat.succ_inj] at hh
    have hnew := getElem?_node_addNode_new (mergedNode a b) hn
    rw [← hh, hnode] at hnew
    cases hnew
    rcases (mem_validSlots_addNode _ hc e).1 he with rfl | he
    · exact nodeKey_lt_mergedNode r.right hn hfit
    · have hle := (r.queue.slot e he).1
      simpa only [mergedNode, nodeKey_addNode_old _ hlb, nodeKey_addNode_old _ hle] using r.least e he

/-- One pass of the merge loop (R118). -/
theorem laid_mergeOnce {base : Arena} {ls : List TreeNode} {total : Nat} {xs : List Sym} {s : State}
    (l : Laid base ls s) (g : Growing total xs s) (ht : total < 2 ^ 32) (hc : 2 ≤ validCount s) :
    Laid base ls (mergeOnce s) := by
  have hroom := length_le_of_nodup g.distinct
  obtain ⟨hc1, hc2⟩ := g.count
  have hw := queueWeight_two_removals hc
  rw [g.weight] at hw
  have hcount := validCount_two_removals hc
  have hnode : (pqRemoveMin (pqRemoveMin s).2).2.node = s.node := by simp
  have hnn : (pqRemoveMin (pqRemoveMin s).2).2.nnodes = s.nnodes := by simp
  have hin : (pqRemoveMin s).1 ∈ validSlots s := (validSlots_two_removals hc).mem_iff.2 (List.mem_cons_self ..)
  have hlay := l.layout
  rw [← hnode, ← hnn] at hlay
  rw [mergeOnce_eq]
  refine laid_addNode_mergedNode (removed_two l.queue hc) hlay (by rw [hnn]; omega) (by omega) (by omega) ?_
  rw [hnode, hnn]
  exact fun h n hp hh hn => l.ascending h n hp hh hn _ hin

/-! ## The loops of BUILD -/

/-- The leaf BUILD makes of a symbol (R115). -/
def leafNode (s : State) (x : Sym) : TreeNode := { leaf := true, sym := x, weight := freqAt s x, left := 0, right := 0 }

@[simp] theorem leafNode_insertLeaf (s : State) (x : Sym) : leafNode (insertLeaf s x) = leafNode s := by
  funext y
  simp [leafNode]

theorem insertLeaf_of_zero {s : State} {x : Sym} (h : freqAt s x = 0) : insertLeaf s x = s := if_pos h

theorem insertLeaf_of_ne_zero {s : State} {x : Sym} (h : freqAt s x ≠ 0) : insertLeaf s x = addNode (leafNode s x) s :=
  if_neg h

/-- The leaf insertion lays the leaves of the symbols `zs` with a count after those there are (R115). -/
theorem laid_foldl_insertLeaf (zs : List Sym) {base : Arena} {ls : List TreeNode} {s : State} (l : Laid base ls s)
    (hn : s.nnodes.toNat = ls.length) (hroom : ls.length + zs.length ≤ 256) :
    Laid base (ls ++ (zs.filter fun x => freqAt s x != 0).map (leafNode s)) (zs.foldl insertLeaf s) := by
  induction zs generalizing ls s with
  | nil => simpa using l
  | cons x zs ih =>
    rw [List.length_cons] at hroom
    rw [List.foldl_cons]
    by_cases h0 : freqAt s x = 0
    · rw [insertLeaf_of_zero h0, List.filter_cons_of_neg (by simp [h0])]
      exact ih l hn (by omega)
    · have hs := insertLeaf_of_ne_zero h0
      have l1 := laid_addLeaf l (leafNode s x) hn (by omega)
      have hn1 := toNat_nnodes_addNode (leafNode s x) (s := s) (by omega)
      rw [← hs] at l1 hn1
      have := ih l1 (by simp [hn1, hn]) (by simp; omega)
      rw [List.filter_cons_of_pos (by simpa using h0), List.map_cons]
      simpa using this

/-- The merge loop (R118). -/
theorem laid_mergeLoop {base : Arena} {ls : List TreeNode} {total : Nat} {xs : List Sym} (ht : total < 2 ^ 32) (fuel : Nat)
    {s : State} (l : Laid base ls s) (g : Growing total xs s) : Laid base ls (mergeLoop fuel s) := by
  induction fuel generalizing s with
  | zero => exact l
  | succ fuel ih =>
    rw [mergeLoop]
    split
    · exact ih (laid_mergeOnce l g ht (by omega)) (growing_mergeOnce g ht (by omega))
    · exact l

/-- The state after the merge loop: one slot is left, over a laid out arena. -/
theorem exists_merged {s : State} (hne : freqEmpty s = false) (hsum : freqSum s ≤ Config.maxCount) :
    ∃ u, buildTree s = takeRoot u ∧ Growing (freqSum s) (present s).reverse u ∧ validCount u = 1 ∧
      Laid s.node ((present s).map (leafNode s)) u := by
  have g : Growing (freqSum s) (present s).reverse (insertLeaves (buildStart s)) := growing_insertLeaves s
  have l : Laid s.node ((present s).map (leafNode s)) (insertLeaves (buildStart s)) :=
    laid_foldl_insertLeaf allSyms (laid_buildStart s) rfl (by simp [allSyms])
  have ht : freqSum s < 2 ^ 32 := Nat.lt_of_le_of_lt hsum (by decide)
  obtain ⟨x, hx⟩ : ∃ x, freqAt s x ≠ 0 := by
    by_contra h0
    rw [(freqEmpty_iff s).2 (by simpa using h0)] at hne
    cases hne
  have hpos : 0 < (present s).reverse.length :=
    List.length_pos_of_mem (List.mem_reverse.2 (List.mem_filter.2 ⟨mem_allSyms x, by simpa using hx⟩))
  have hroom := length_le_of_nodup g.distinct
  obtain ⟨hc1, hc2⟩ := g.count
  obtain ⟨g1, h1⟩ := growing_mergeLoop ht 255 g (g.validCount_pos hpos) (by omega)
  exact ⟨_, rfl, g1, h1, laid_mergeLoop ht 255 l g⟩

/-- What the last removal takes from a queue of one slot (R120). -/
theorem takeRoot_of_single {u : State} (h1 : validCount u = 1) :
    ∃ e, validSlots u = [e] ∧ (takeRoot u).root = e.handle ∧ (takeRoot u).node = u.node ∧
      (takeRoot u).nnodes = u.nnodes := by
  obtain ⟨e, he⟩ := List.length_eq_one_iff.1 ((validCount_eq u).symm.trans h1)
  have hmem := (validSlots_pqRemoveMin (s := u) (by omega)).mem_iff.2 (List.mem_cons_self ..)
  rw [he, List.mem_singleton] at hmem
  exact ⟨e, he, congrArg (·.handle) hmem, pqRemoveMin_node u, pqRemoveMin_nnodes u⟩

/-- The tree of a table that BUILD accepts: its layout, its size, its root. -/
theorem buildTree_layout {s : State} (hne : freqEmpty s = false) (hsum : freqSum s ≤ Config.maxCount) :
    Layout s.node ((present s).map (leafNode s)) (buildTree s).node (buildTree s).nnodes.toNat ∧
      (buildTree s).nnodes.toNat + 1 = 2 * (present s).length ∧
      (buildTree s).root.toNat + 1 = (buildTree s).nnodes.toNat ∧
      ∃ r, nodeAt (buildTree s).node (buildTree s).root = some r ∧ r.weight.toNat = freqSum s := by
  obtain ⟨u, hu, g, h1, l⟩ := exists_merged hne hsum
  obtain ⟨e, he, hroot, hnode, hnn⟩ := takeRoot_of_single h1
  obtain ⟨hcount, -⟩ := g.count
  rw [List.length_reverse, h1] at hcount
  have hslot := l.queue.slot e (by simp [he])
  have hweight := g.weight
  rw [hu, hroot, hnode, hnn]
  refine ⟨l.layout, hcount, ?_, ?_⟩
  · obtain ⟨e', he', hnew⟩ := l.newest (Nat.zero_lt_of_lt hslot.1)
    rw [he, List.mem_singleton] at he'
    rw [← hnew, he']
  · have hroom := length_le_of_nodup g.distinct
    rw [List.length_reverse] at hroom
    obtain ⟨r, hr⟩ := exists_nodeAt u.node (h := e.handle) (Nat.lt_of_lt_of_le hslot.1 (by omega))
    exact ⟨r, hr, by rw [hslot.weight hr, ← hweight]; simp [queueWeight, he]⟩

/-! ## What BUILD leaves -/

/-- A table with a count, and a sum that fits, is what BUILD makes a tree of (R112 to R114). -/
theorem exec_build_of_fits {s : State} (hp : s.phase = .empty) (he : s.err = .none) (hne : freqEmpty s = false)
    (hsum : freqSum s ≤ Config.maxCount) : exec .build s = .next (acceptTree (buildTree s)) := by
  rw [exec_build hp he, if_neg (by simp [hne]), if_neg (by omega)]

/-- Only such a table takes BUILD to READY. -/
theorem fits_of_exec_build {s t : State} (hp : s.phase = .empty) (he : s.err = .none) (h : exec .build s = .next t)
    (ht : t.phase = .ready) :
    freqEmpty s = false ∧ freqSum s ≤ Config.maxCount ∧ t = acceptTree (buildTree s) := by
  rw [exec_build hp he] at h
  split at h
  · cases h
    simp [hp] at ht
  · rename_i hne
    split at h
    · cases h
      simp [hp] at ht
    · cases h
      exact ⟨by simpa using hne, by omega, rfl⟩

/-- Settles O27: the valid tree of `buildTree_valid`, with the layout's frame and size. -/
theorem buildMakesAValidTree : Obligations.BuildMakesAValidTree := by
  intro s hp he ⟨x, hx⟩ hsum
  have hne : freqEmpty s = false := Bool.eq_false_iff.2 fun h0 => hx ((freqEmpty_iff s).1 h0 x)
  obtain ⟨hvalid, hcount⟩ := buildTree_valid hne hsum
  obtain ⟨hlayout, hnn, -, hroot⟩ := buildTree_layout hne hsum
  have hexec := exec_build_of_fits hp he hne hsum
  have hsame := (sameButTree_buildTree s).eq
  generalize buildTree s = u at *
  refine ⟨acceptTree u, hexec, ?_, hvalid, rfl, ?_, hcount, hroot, fun h hh hle => ?_⟩
  · conv_lhs => rw [hsame]
    rfl
  · rw [acceptTree_nnodes]
    omega
  · have habove := hlayout.above h hle
    rw [Vector.getElem?_eq_getElem hh, Vector.getElem?_eq_getElem hh] at habove
    exact Option.some.inj habove

/-- Settles O28: the layout, clause by clause. -/
theorem buildLaysOutTheArena : Obligations.BuildLaysOutTheArena := by
  intro s t hp he hexec ht
  obtain ⟨hne, hsum, rfl⟩ := fits_of_exec_build hp he hexec ht
  obtain ⟨hlayout, -, hroot, -⟩ := buildTree_layout hne hsum
  obtain ⟨-, hleaves, hmerged, horder, -⟩ := hlayout
  generalize buildTree s = u at *
  simp only [List.length_map, List.getElem_map] at hleaves hmerged horder
  exact ⟨hleaves, hmerged, horder, by rw [acceptTree_root, acceptTree_nnodes]; omega⟩

/-- The sum of the counts is that of the present symbols. -/
theorem freqSum_eq_present (s : State) : freqSum s = ((present s).map fun x => (freqAt s x).toNat).sum := by
  rw [freqSum_eq, present]
  induction allSyms with
  | nil => rfl
  | cons x xs ih =>
    by_cases h0 : freqAt s x = 0
    · rw [List.map_cons, List.sum_cons, List.filter_cons_of_neg (by simp [h0]), h0, ih]
      exact Nat.zero_add _
    · rw [List.map_cons, List.sum_cons, List.filter_cons_of_pos (by simpa using h0), ih, List.map_cons, List.sum_cons]

/-- The fixed code of a lone leaf (R122). -/
theorem entryOf_true : entryOf [true] = { len := 1, bits := 1#256 <<< 255 } := by
  simp [entryOf, alignBits]

/-- Settles O29: the layout with one leaf, and the code ROM of a lone leaf. -/
theorem buildOfOneSymbol : Obligations.BuildOfOneSymbol := by
  intro s x hp he hpresent
  have hx : freqAt s x ≠ 0 := by
    have hmem : x ∈ present s := by simp [hpresent]
    simpa [present, mem_allSyms] using hmem
  have hne : freqEmpty s = false := Bool.eq_false_iff.2 fun h0 => hx ((freqEmpty_iff s).1 h0 x)
  have hsum : freqSum s ≤ Config.maxCount := by
    rw [freqSum_eq_present, hpresent, List.map_singleton, List.sum_singleton]
    exact Nat.le_pred_of_lt (freqAt s x).isLt
  obtain ⟨hlayout, hnn, hroot, -⟩ := buildTree_layout hne hsum
  rw [hpresent, List.length_singleton] at hnn
  have hexec := exec_build_of_fits hp he hne hsum
  have herr := (buildTree_err s).trans he
  generalize buildTree s = u at *
  have hleaf : u.node[0]? = some (leafNode s x) := by simpa [hpresent] using hlayout.leaves 0 (by simp [hpresent])
  have hroot0 : u.root = 0 := BitVec.eq_of_toNat_eq (show u.root.toNat = 0 by omega)
  have hcode : ∀ y, codeAt (acceptTree u) y = if x = y then entryOf [true] else CodeEntry.none := by
    refine genCodes_leaf (r := leafNode s x) ?_ rfl
    rw [hroot0]
    exact hleaf
  refine ⟨acceptTree u, hexec, rfl, herr, BitVec.eq_of_toNat_eq (show u.nnodes.toNat = 1 by omega), hroot0, ?_, ?_,
    fun y hy => ?_⟩
  · rw [Vector.getElem?_eq_getElem (by decide)] at hleaf
    exact Option.some.inj hleaf
  · rw [hcode, if_pos rfl, entryOf_true]
  · rw [hcode, if_neg (Ne.symm hy)]
    rfl

end Sys2Proof.Machine
end

section
/-! PROOF. Greater counts have no longer codes (40_build.md R124(f)): in the arena BUILD lays out, depth goes down as keys go up. -/

namespace Sys2Proof.Machine

open Sys2Proof.Safety

/-! ## Paths by their last bit -/

/-- The last step of a path goes from an Internal node to its child. -/
theorem followPath_concat {arena : Arena} {h k : Handle} {p : List Bool} {b : Bool}
    (hp : followPath arena h (p ++ [b]) = some k) :
    ∃ j n, followPath arena h p = some j ∧ nodeAt arena j = some n ∧ n.leaf = false ∧
      k = if b then n.right else n.left := by
  induction p generalizing h with
  | nil =>
    simp only [List.nil_append, followPath] at hp
    split at hp
    · cases hp
    · rename_i n hn
      split at hp
      · cases hp
      · rename_i hl
        exact ⟨h, n, rfl, hn, by simpa using hl, (Option.some.inj hp).symm⟩
  | cons c p ih =>
    simp only [List.cons_append, followPath] at hp ⊢
    split at hp
    · cases hp
    · split at hp
      · cases hp
      · rename_i hl
        simpa [hl] using ih hp

/-! ## Keys in a laid out arena -/

section
variable {base : Arena} {ls : List TreeNode} {arena : Arena} {nn : Nat}

/-- The Internal nodes of a laid out arena are the merged ones, where `ls` are leaves. -/
theorem Layout.length_le_of_internal (l : Layout base ls arena nn) (hls : ∀ n ∈ ls, n.leaf = true) {h : Nat} {n : TreeNode}
    (hn : arena[h]? = some n) (hl : n.leaf = false) : ls.length ≤ h := by
  by_contra hlt
  rw [l.leaves h (by omega)] at hn
  cases hn
  rw [hls _ (List.getElem_mem _)] at hl
  cases hl

/-- A merged node's children have smaller handles and ascending keys, and its weight is the sum of theirs. -/
theorem Layout.children (l : Layout base ls arena nn) (hnn : nn ≤ 511) {h : Nat} (hle : ls.length ≤ h) (hlt : h < nn)
    {n : TreeNode} (hn : arena[h]? = some n) :
    ∃ wl wr, nodeKey arena n.left = wl * 512 + n.left.toNat ∧ nodeKey arena n.right = wr * 512 + n.right.toNat ∧
      n.weight.toNat = wl + wr ∧ n.left.toNat < h ∧ n.right.toNat < h ∧
      nodeKey arena n.left < nodeKey arena n.right := by
  obtain ⟨n', x, y, hn', -, -, hl, hr, hx, hy, hw, hk⟩ := l.merged h hle hlt
  rw [hn'] at hn
  cases hn
  rw [keyBelow_iff (by omega) (by omega)] at hk
  exact ⟨_, _, nodeKey_of_node hx, nodeKey_of_node hy, hw, hl, hr, hk⟩

/-- A merged node has a greater key than its children. -/
theorem Layout.key_child_lt (l : Layout base ls arena nn) (hnn : nn ≤ 511) {h : Handle} (hle : ls.length ≤ h.toNat)
    (hlt : h.toNat < nn) {n : TreeNode} (hn : nodeAt arena h = some n) (b : Bool) :
    nodeKey arena (if b then n.right else n.left) < nodeKey arena h := by
  obtain ⟨wl, wr, hkl, hkr, hw, hl, hr, hk⟩ := l.children hnn hle hlt hn
  rw [nodeKey_of_node hn]
  cases b <;> simp only [if_true, Bool.false_eq_true, if_false] <;> omega

/-- The children of an earlier merged node have smaller keys than those of a later one. -/
theorem Layout.key_right_lt_left (l : Layout base ls arena nn) (hnn : nn ≤ 511) {j k : Nat} {n m : TreeNode}
    (hle : ls.length ≤ j) (hjk : j + 1 ≤ k) (hlt : k < nn) (hn : arena[j]? = some n) (hm : arena[k]? = some m) :
    nodeKey arena n.right < nodeKey arena m.left := by
  have hnext : ∀ {i : Nat} {n m : TreeNode}, ls.length ≤ i → i + 1 < nn → arena[i]? = some n → arena[i + 1]? = some m →
      nodeKey arena n.right < nodeKey arena m.left := fun {i n m} hi hlt hn hm => by
    obtain ⟨-, -, -, -, -, -, hr, -⟩ := l.children hnn hi (by omega) hn
    obtain ⟨-, -, -, -, -, hl, -⟩ := l.children hnn (h := i + 1) (by omega) hlt hm
    exact (keyBelow_iff (by omega) (by omega)).1 (l.order i n m hi hlt hn hm)
  induction k, hjk using Nat.le_induction generalizing m with
  | base => exact hnext hle hlt hn hm
  | succ k hjk ih =>
    obtain ⟨m', -, -, hm', -⟩ := l.merged k (by omega) (by omega)
    obtain ⟨-, -, -, -, -, -, -, hk⟩ := l.children hnn (h := k) (by omega) (by omega) hm'
    exact ((ih (by omega) hm').trans hk).trans (hnext (by omega) hlt hm' hm)

/-- The keys of merged nodes ascend with their handles. -/
theorem Layout.key_le_of_le (l : Layout base ls arena nn) (hnn : nn ≤ 511) {j k : Handle} {n m : TreeNode}
    (hle : ls.length ≤ j.toNat) (hjk : j.toNat ≤ k.toNat) (hlt : k.toNat < nn) (hn : nodeAt arena j = some n)
    (hm : nodeAt arena k = some m) : nodeKey arena j ≤ nodeKey arena k := by
  rcases Nat.eq_or_lt_of_le hjk with heq | hjk
  · rw [BitVec.eq_of_toNat_eq heq]
  · have hord := l.key_right_lt_left hnn hle hjk hlt hn hm
    obtain ⟨wl, wr, hkl, hkr, hw, -, -, hk⟩ := l.children hnn hle (by omega) hn
    obtain ⟨wl', wr', hkl', hkr', hw', -, -, hk'⟩ := l.children hnn (hle.trans hjk.le) hlt hm
    have hweights : wl ≤ wr ∧ wr ≤ wl' ∧ wl' ≤ wr' := by
      have := n.left.isLt
      have := n.right.isLt
      have := m.left.isLt
      have := m.right.isLt
      omega
    rw [nodeKey_of_node hn, nodeKey_of_node hm]
    omega

/-! ## Depth -/

variable {root : Handle}

/-- Along a path from the root, the newest node, the keys go down. -/
theorem Layout.key_path_le (l : Layout base ls arena nn) (hls : ∀ n ∈ ls, n.leaf = true) (hnn : nn ≤ 511)
    (hroot : root.toNat + 1 = nn) {q : List Bool} {y : Handle} (hq : followPath arena root q = some y) :
    y.toNat < nn ∧ nodeKey arena y + q.length ≤ nodeKey arena root := by
  induction q using List.reverseRecOn generalizing y with
  | nil =>
    cases hq
    exact ⟨by omega, by simp⟩
  | append_singleton q b ih =>
    obtain ⟨j, n, hj, hn, hl, rfl⟩ := followPath_concat hq
    obtain ⟨hlt, hkey⟩ := ih hj
    have hle := l.length_le_of_internal hls hn hl
    have hchild := l.key_child_lt hnn hle hlt hn b
    obtain ⟨-, -, -, -, -, hleft, hright, -⟩ := l.children hnn hle hlt hn
    refine ⟨?_, ?_⟩
    · cases b <;> simp only [if_true, Bool.false_eq_true, if_false] <;> omega
    · rw [List.length_append, List.length_singleton]
      omega

/-- Of two children the one with the smaller or equal key is that of the earlier node, or of the same (R117, R118). -/
theorem Layout.parent_le (l : Layout base ls arena nn) (hnn : nn ≤ 511) {j k : Handle} {n m : TreeNode} {b c : Bool}
    (hle : ls.length ≤ k.toNat) (hlt : j.toNat < nn) (hn : nodeAt arena j = some n) (hm : nodeAt arena k = some m)
    (hkey : nodeKey arena (if b then n.right else n.left) ≤ nodeKey arena (if c then m.right else m.left)) :
    j.toNat ≤ k.toNat := by
  by_contra hkj
  have hord := l.key_right_lt_left hnn hle (k := j.toNat) (by omega) hlt hm hn
  obtain ⟨-, -, -, -, -, -, -, hk⟩ := l.children hnn (hle.trans (by omega)) hlt hn
  obtain ⟨-, -, -, -, -, -, -, hk'⟩ := l.children hnn hle (by omega) hm
  cases b <;> cases c <;> simp only [if_true, Bool.false_eq_true, if_false] at hkey <;> omega

/-- A node of smaller or equal key is at least as deep: its parent was made no later. -/
theorem Layout.depth_antitone (l : Layout base ls arena nn) (hls : ∀ n ∈ ls, n.leaf = true) (hnn : nn ≤ 511)
    (hroot : root.toNat + 1 = nn) {p q : List Bool} {x y : Handle} (hp : followPath arena root p = some x)
    (hq : followPath arena root q = some y) (hkey : nodeKey arena x ≤ nodeKey arena y) : q.length ≤ p.length := by
  induction q using List.reverseRecOn generalizing p x y with
  | nil => exact Nat.zero_le _
  | append_singleton q c ih =>
    rcases List.eq_nil_or_concat p with rfl | ⟨p, b, rfl⟩
    · cases hp
      have hlow := (l.key_path_le hls hnn hroot hq).2
      rw [List.length_append, List.length_singleton] at hlow
      omega
    · rw [List.concat_eq_append] at hp ⊢
      obtain ⟨j, n, hj, hn, hnl, rfl⟩ := followPath_concat hp
      obtain ⟨k, m, hk, hm, hml, rfl⟩ := followPath_concat hq
      have hjlt := (l.key_path_le hls hnn hroot hj).1
      have hklt := (l.key_path_le hls hnn hroot hk).1
      have hjk := l.parent_le hnn (l.length_le_of_internal hls hm hml) hjlt hn hm hkey
      have hle := ih hj hk (l.key_le_of_le hnn (l.length_le_of_internal hls hn hnl) hjk hklt hn hm)
      simpa using hle

end

/-! ## The codes of present symbols -/

/-- After BUILD a present symbol's leaf is below `nnodes`, with the symbol's count as its weight (R115). -/
theorem exists_leaf_of_present {s : State} {x : Sym} {base arena : Arena} {nn : Nat}
    (l : Layout base ((present s).map (leafNode s)) arena nn) (hnn : nn ≤ 511) (hx : freqAt s x ≠ 0) :
    ∃ h : Handle, h.toNat < nn ∧ nodeAt arena h = some (leafNode s x) := by
  have hmem : x ∈ present s := List.mem_filter.2 ⟨mem_allSyms x, by simpa using hx⟩
  obtain ⟨i, hi, rfl⟩ := List.getElem_of_mem hmem
  have hbound := l.bound
  rw [List.length_map] at hbound
  have htoNat : (BitVec.ofNat 9 i).toNat = i := Nat.mod_eq_of_lt (by omega)
  refine ⟨BitVec.ofNat 9 i, by omega, ?_⟩
  rw [nodeAt, htoNat, l.leaves i (by simpa using hi), List.getElem_map]

/-- Settles O31: the leaf of the smaller count has the smaller key, so it is at least as deep, and a code is as long as its leaf is
deep. -/
theorem greaterCountNeverHasLongerCode : Obligations.GreaterCountNeverHasLongerCode := by
  intro s t a b hp he hexec ht hb hab
  obtain ⟨hne, hsum, rfl⟩ := fits_of_exec_build hp he hexec ht
  obtain ⟨hlayout, -, hroot, r, hr, -⟩ := buildTree_layout hne hsum
  have hvalid := (buildTree_valid hne hsum).1
  generalize buildTree s = u at *
  obtain ⟨-, hnn, -⟩ := (validTree_iff _ _ _).1 hvalid
  have ha : freqAt s a ≠ 0 := by
    intro h0
    simp [h0] at hab
  obtain ⟨ka, haLt, haNode⟩ := exists_leaf_of_present hlayout hnn ha
  obtain ⟨kb, hbLt, hbNode⟩ := exists_leaf_of_present hlayout hnn hb
  obtain ⟨p, hpPath⟩ := (lt_nnodes_iff_path hvalid ka).1 haLt
  obtain ⟨q, hqPath⟩ := (lt_nnodes_iff_path hvalid kb).1 hbLt
  have hkey : nodeKey u.node kb ≤ nodeKey u.node ka := by
    have := kb.isLt
    rw [nodeKey_of_node haNode, nodeKey_of_node hbNode]
    simp only [leafNode]
    omega
  have hdepth := hlayout.depth_antitone (by simp [leafNode]) hnn hroot hqPath hpPath hkey
  have hpLeaf : LeafAt u.node u.root p a := ⟨ka, _, hpPath, haNode, rfl, rfl⟩
  have hqLeaf : LeafAt u.node u.root q b := ⟨kb, _, hqPath, hbNode, rfl, rfl⟩
  change (romAt (genCodes u.root u.node) a).len.toNat ≤ (romAt (genCodes u.root u.node) b).len.toNat
  cases hl : r.leaf with
  | true =>
    have heq := ((leafAt_leaf hr hl _ _).1 hpLeaf).2.symm.trans ((leafAt_leaf hr hl _ _).1 hqLeaf).2
    rw [heq]
  | false =>
    obtain ⟨hcodes, -⟩ := genCodes_internal hvalid hr hl
    obtain ⟨hromA, -, hlenA⟩ := hcodes a p hpLeaf
    obtain ⟨hromB, -, hlenB⟩ := hcodes b q hqLeaf
    rwa [hromA, hromB, entryOf_len hlenA, entryOf_len hlenB]

end Sys2Proof.Machine
end

section
/-! PROOF. The encoder (41_encoder.md): WBIT, what ESTART, ESYM and EEND do in the phase they are legal in (R140 to R144), and the
bytes of a whole encode operation (R145, R148). -/

namespace Sys2Proof.Machine

open Sys2Proof.Safety

/-! ## WBIT (R143) -/

/-- Settles O41: the bit is placed by `writeBit`, which changes that bit alone. -/
theorem wbitPlacesOneBit : Obligations.WbitPlacesOneBit := by
  intro p b
  have hcnt := p.cnt.isLt
  exact ⟨writeBit p.acc (7 - p.cnt.toNat) b, fun j hj => getLsbD_writeBit _ _ j b (by omega) hj, rfl⟩

/-! ## The commands in the phase they are legal in -/

/-- With a clear latch, in the phase R94 lists for it, a command is its own rule (R103). -/
theorem exec_of_phase {i : Instr} {s : State} {p : Phase} (hp : s.phase = p) (he : s.err = .none)
    (hi : legalPhase i = some p) : exec i s = ownRule i s :=
  exec_own he (by simp [legalIn, hi, hp])

/-- ESTART (R140). -/
theorem exec_estart {s : State} (hp : s.phase = .ready) (he : s.err = .none) :
    exec .estart s = .next { setPacker s Packer.zero with phase := .enc } :=
  exec_of_phase hp he rfl

/-- ESYM of a symbol with a code (R141). -/
theorem exec_esym {s : State} {x : Sym} (hp : s.phase = .enc) (he : s.err = .none) (hk : s.byteSink = .accepting)
    (hx : (codeAt s x).len ≠ 0) :
    exec (.esym x) s = .next { setPacker s (packBits (packerOf s) (codeseq (codeAt s x))).1 with
      bytesOut := s.bytesOut ++ (packBits (packerOf s) (codeseq (codeAt s x))).2 } := by
  rw [exec_of_phase hp he rfl]
  exact (if_neg hx).trans (emitBytes_accepting hk)

/-- ESYM of a symbol without a code (R142). -/
theorem exec_esym_unknown {s : State} {x : Sym} (hp : s.phase = .enc) (he : s.err = .none) (hx : (codeAt s x).len = 0) :
    exec (.esym x) s =
      .next { setPacker s Packer.zero with err := .unknownSymbol, errinfo := zext32 x, phase := .ready } := by
  rw [exec_of_phase hp he rfl]
  exact (if_pos hx).trans (raise_of_clear he)

/-- EEND (R144). -/
theorem exec_eend {s : State} (hp : s.phase = .enc) (he : s.err = .none) (hk : s.byteSink = .accepting) :
    exec .eend s = .next { setPacker s Packer.zero with
      phase := .ready, bytesOut := s.bytesOut ++ flushBytes (packerOf s) } := by
  rw [exec_of_phase hp he rfl]
  exact emitBytes_accepting hk

/-- Settles O40: the packer of ESTART's own rule is clear. -/
theorem estartOpensAnEncode : Obligations.EstartOpensAnEncode := fun _ hp he => exec_estart hp he

/-- Settles O42: the code's bits go through the packer, which loses none and adds none. -/
theorem esymPacksTheCode : Obligations.EsymPacksTheCode := by
  intro s x hp he hk hx
  obtain ⟨hbytes, hleft⟩ := packBits_count (packerOf s) (codeseq (codeAt s x))
  rw [codeseq_length] at hbytes hleft
  exact ⟨_, _, _, exec_esym hp he hk hx, hbytes, hleft, packBits_bits (packerOf s) _⟩

/-- Settles O43: the error of ESYM's own rule, over a cleared packer. -/
theorem esymOfAnUnknownSymbol : Obligations.EsymOfAnUnknownSymbol := fun _ _ hp he hx => exec_esym_unknown hp he hx

/-- Settles O44: the flush is empty exactly when no bit is pending. -/
theorem eendFlushesAndCloses : Obligations.EendFlushesAndCloses := by
  intro s hp he hk
  have hflush : flushBytes (packerOf s) = if s.wcnt ≠ 0 then [s.wacc] else [] := (ite_not ..).symm
  rw [exec_eend hp he hk, hflush]
  rfl

/-! ## A whole encode operation -/

/-- The state of an encode opened from `s` that has packed the bit sequence `q`. -/
def encoding (s : State) (q : List Bool) : State :=
  { setPacker s (packBits Packer.zero q).1 with
    phase := .enc, bytesOut := s.bytesOut ++ (packBits Packer.zero q).2 }

theorem encoding_nil (s : State) : encoding s [] = { setPacker s Packer.zero with phase := .enc } := by
  simp [encoding, packBits, setPacker]

/-- ESYM goes on from the bits packed so far. -/
theorem exec_esym_encoding {s : State} {x : Sym} (he : s.err = .none) (hk : s.byteSink = .accepting)
    (hx : (codeAt s x).len ≠ 0) (q : List Bool) :
    exec (.esym x) (encoding s q) = .next (encoding s (q ++ codeseq (codeAt s x))) := by
  rw [exec_esym (s := encoding s q) rfl he hk hx, encoding, encoding, packBits_append, ← List.append_assoc]
  rfl

/-- The ESYM commands of a text pack its bits. -/
theorem performs_esyms {ts : List Sym} {s : State} (he : s.err = .none) (hk : s.byteSink = .accepting)
    (hts : ∀ x ∈ ts, (codeAt s x).len ≠ 0) (q : List Bool) :
    Performs (ts.map fun x => commandOp (.esym x)) (encoding s q) (List.replicate ts.length (.write .okay))
      (encoding s (q ++ textBits s ts)) := by
  induction ts generalizing q with
  | nil =>
    rw [textBits, List.flatMap_nil, List.append_nil]
    exact .nil _
  | cons x ts ih =>
    obtain ⟨hx, hrest⟩ := List.forall_mem_cons.1 hts
    have hrun := (performs_command (exec_esym_encoding he hk hx q)).append (ih hrest (q ++ codeseq (codeAt s x)))
    rw [List.append_assoc] at hrun
    exact hrun

/-- EEND after a bit sequence has made the emitted bytes its payload (R98). -/
theorem exec_eend_encoding {s : State} (he : s.err = .none) (hk : s.byteSink = .accepting) (q : List Bool) :
    exec .eend (encoding s q) = .next { setPacker s Packer.zero with
      phase := .ready, bytesOut := s.bytesOut ++ payload q } := by
  rw [exec_eend (s := encoding s q) rfl he hk, ← packBits_flush, ← List.append_assoc]
  rfl

/-- ENCODE (R102) of a text whose symbols have codes. -/
theorem performs_encodeOps {ts : List Sym} {s : State} (hp : s.phase = .ready) (he : s.err = .none)
    (hk : s.byteSink = .accepting) (hts : ∀ x ∈ ts, (codeAt s x).len ≠ 0) :
    Performs (encodeOps ts) s (List.replicate (ts.length + 2) (.write .okay))
      { setPacker s Packer.zero with phase := .ready, bytesOut := s.bytesOut ++ payload (textBits s ts) } := by
  have hstart : exec .estart s = .next (encoding s []) := by rw [exec_estart hp he, encoding_nil]
  have hrun := ((performs_command hstart).append (performs_esyms he hk hts [])).append
    (performs_command (exec_eend_encoding he hk ([] ++ textBits s ts)))
  rw [List.replicate_succ']
  exact hrun

/-- Settles O45: the run of ENCODE ends in READY, where it began. -/
theorem encodeEmitsThePayload : Obligations.EncodeEmitsThePayload := by
  intro s ts hp he hk hts
  have hrun := (performs_encodeOps hp he hk hts).runs
  rw [← hp] at hrun
  exact hrun

end Sys2Proof.Machine
end

section
/-! PROOF. The decoder (42_decoder.md): RBIT and WALK, what DSTART, DBYTE and DEND do in the phase they are legal in (R160 to
R165), and the symbols of a whole decode operation, the lossy tail among them (R166, R167). -/

namespace Sys2Proof.Machine

open Sys2Proof.Safety

/-! ## RBIT and WALK (R162 to R164) -/

/-- Settles O47: the byte with bit 7 dropped and a 0 appended is the byte shifted. -/
theorem rbitDeliversTheTopBit : Obligations.RbitDeliversTheTopBit := by
  intro byte cnt hcnt
  rw [rbit_eq]
  exact ⟨rfl, rfl, BitVec.toNat_sub_of_le hcnt⟩

/-- WALK at a lone leaf (R164). -/
theorem walk_lone {arena : Arena} {root : Handle} {r : TreeNode} (hr : nodeAt arena root = some r) (hl : r.leaf = true)
    (cur : Handle) (bit : Bool) : walk arena root cur bit = some (cur, if bit then some r.sym else none) := by
  simp [walk, hr, hl]

/-- WALK in a tree whose root is an Internal node (R163). -/
theorem walk_internal {arena : Arena} {root cur : Handle} {r n m : TreeNode} {bit : Bool} (hr : nodeAt arena root = some r)
    (hl : r.leaf = false) (hn : nodeAt arena cur = some n)
    (hm : nodeAt arena (if bit then n.right else n.left) = some m) :
    walk arena root cur bit =
      if m.leaf then some (root, some m.sym) else some (if bit then n.right else n.left, none) := by
  simp [walk, hr, hl, hn, hm]

/-- Settles O48: the two kinds of root, and for an Internal one both bits. -/
theorem walkTakesOneStep : Obligations.WalkTakesOneStep := by
  intro arena root cur r hr
  refine ⟨fun hl n m bit hn hm => ?_, fun hl => ⟨walk_lone hr hl cur true, walk_lone hr hl cur false⟩⟩
  cases bit with
  | false => exact walk_internal hr hl hn hm
  | true => exact walk_internal hr hl hn hm

/-! ## The commands in the phase they are legal in -/

/-- DSTART (R160). -/
theorem exec_dstart {s : State} (hp : s.phase = .ready) (he : s.err = .none) :
    exec .dstart s = .next { s with cur := s.root, rbyte := 0, rcnt := 0, phase := .dec } :=
  exec_of_phase hp he rfl

/-- DEND (R165). -/
theorem exec_dend {s : State} (hp : s.phase = .dec) (he : s.err = .none) :
    exec .dend s = .next { s with phase := .ready } :=
  exec_of_phase hp he rfl

/-- Settles O46: DSTART's own rule. -/
theorem dstartOpensADecode : Obligations.DstartOpensADecode := fun _ hp he => exec_dstart hp he

/-- Settles O50: DEND's own rule. -/
theorem dendClosesTheDecode : Obligations.DendClosesTheDecode := fun _ hp he => exec_dend hp he

/-- The eight rounds of DBYTE walk the bits of the byte and use it up (R161). -/
theorem walkBits_byte (arena : Arena) (root cur : Handle) (b : Byte) :
    walkBits arena root 8 { byte := b, cnt := 8, cur := cur } =
      (walkSeq arena root cur (byteBits b)).map fun w => ({ byte := 0, cnt := 0, cur := w.1 }, w.2) := by
  have hbits : (byteBits b).take 8 = byteBits b := List.take_of_length_le (byteBits_length b).le
  simp only [walkBits_eq _ _ _ _ le_rfl, hbits, BitVec.ofNat_eq_ofNat, BitVec.shiftLeft_eq_zero le_rfl, BitVec.sub_self]

/-- DBYTE whose walk follows a handle without an entry (log 8). -/
theorem exec_dbyte_of_none {s : State} {b : Byte} (hp : s.phase = .dec) (he : s.err = .none)
    (hw : walkSeq s.node s.root s.cur (byteBits b) = none) : exec (.dbyte b) s = .fault .noSuchNode := by
  rw [exec_of_phase hp he rfl]
  simp only [ownRule, walkBits_byte, hw, Option.map_none]

/-- DBYTE whose walk is defined is left with its symbols to emit (R161). -/
theorem exec_dbyte_of_some {s : State} {b : Byte} {c : Handle} {syms : List Sym} (hp : s.phase = .dec)
    (he : s.err = .none) (hw : walkSeq s.node s.root s.cur (byteBits b) = some (c, syms)) :
    exec (.dbyte b) s = emitSyms syms { s with rbyte := 0, rcnt := 0, cur := c } := by
  rw [exec_of_phase hp he rfl]
  simp only [ownRule, walkBits_byte, hw, Option.map_some, setReader]

/-- A consumer that accepts `n` more values takes as many symbols, and hangs a command that emits more (R76; log 4). -/
theorem emitSyms_stopsAfter {s : State} {n : Nat} (h : s.symSink = .stopsAfter n) (xs : List Sym) :
    emitSyms xs s =
      if xs.length ≤ n then .next { s with symsOut := s.symsOut ++ xs, symSink := .stopsAfter (n - xs.length) }
      else .fault .symOutHangs := by
  simp only [emitSyms, h, Sink.accept]
  by_cases hn : xs.length ≤ n <;> simp [hn]

/-- DBYTE with a consumer that accepts `n` more symbols (R161, R76; log 4). -/
theorem exec_dbyte_stopsAfter {s : State} {b : Byte} {c : Handle} {syms : List Sym} {n : Nat} (hp : s.phase = .dec)
    (he : s.err = .none) (hk : s.symSink = .stopsAfter n)
    (hw : walkSeq s.node s.root s.cur (byteBits b) = some (c, syms)) :
    exec (.dbyte b) s =
      if syms.length ≤ n then
        .next { s with rbyte := 0, rcnt := 0, cur := c, symsOut := s.symsOut ++ syms,
                       symSink := .stopsAfter (n - syms.length) }
      else .fault .symOutHangs :=
  (exec_dbyte_of_some hp he hw).trans
    (emitSyms_stopsAfter (s := { s with rbyte := 0, rcnt := 0, cur := c }) hk syms)

/-- DBYTE with a consumer that accepts (R161, R76). -/
theorem exec_dbyte {s : State} {b : Byte} {c : Handle} {syms : List Sym} (hp : s.phase = .dec) (he : s.err = .none)
    (hk : s.symSink = .accepting) (hw : walkSeq s.node s.root s.cur (byteBits b) = some (c, syms)) :
    exec (.dbyte b) s = .next { s with rbyte := 0, rcnt := 0, cur := c, symsOut := s.symsOut ++ syms } :=
  (exec_dbyte_of_some hp he hw).trans (emitSyms_accepting hk)

/-- Settles O49: under the invariant the walk of any eight bits is defined. -/
theorem dbyteWalksEightBits : Obligations.DbyteWalksEightBits := by
  intro s b hinv hp he hk
  obtain ⟨c, syms, hw, hlen, -⟩ := walkSeq_of_validTree (hinv.tree (by simp [hp])) (byteBits b) (hinv.cursor hp)
    (hinv.cursorInternal hp)
  rw [byteBits_length] at hlen
  exact ⟨c, syms, hw, hlen, exec_dbyte hp he hk hw⟩

/-- Settles O60: DBYTE stops at its walk or at `emitSyms` alone. -/
theorem dbyteCompletesOrStopsByName : Obligations.DbyteCompletesOrStopsByName := fun _ _ hp he =>
  ⟨exec_dbyte_of_none hp he, fun _ _ hw =>
    ⟨fun hk => exec_dbyte hp he hk hw, fun _ hk => exec_dbyte_stopsAfter hp he hk hw⟩⟩

/-! ## A whole decode operation -/

/-- A walk of one bit sequence after another. -/
theorem walkSeq_append_eq_some_iff {arena : Arena} {root cur c : Handle} {q r : List Bool} {out : List Sym} :
    walkSeq arena root cur (q ++ r) = some (c, out) ↔
      ∃ j xs ys, walkSeq arena root cur q = some (j, xs) ∧ walkSeq arena root j r = some (c, ys) ∧ out = xs ++ ys := by
  rw [walkSeq_append]
  cases walkSeq arena root cur q with
  | none => simp
  | some v =>
    obtain ⟨j, xs⟩ := v
    cases hr : walkSeq arena root j r with
    | none => simp [hr]
    | some w => simp [hr, Prod.ext_iff, eq_comm]

theorem walkSeq_append_of {arena : Arena} {root cur j c : Handle} {q r : List Bool} {xs ys : List Sym}
    (hq : walkSeq arena root cur q = some (j, xs)) (hr : walkSeq arena root j r = some (c, ys)) :
    walkSeq arena root cur (q ++ r) = some (c, xs ++ ys) :=
  walkSeq_append_eq_some_iff.2 ⟨j, xs, ys, hq, hr, rfl⟩

/-- The state of a decode opened from `s` whose walk is at `c` and has emitted `syms`. -/
def decoding (s : State) (c : Handle) (syms : List Sym) : State :=
  { s with phase := .dec, rbyte := 0, rcnt := 0, cur := c, symsOut := s.symsOut ++ syms }

/-- The DBYTE commands of a byte sequence walk its bits. -/
theorem performs_dbytes {bs : List Byte} {s : State} {c c' : Handle} {out : List Sym} (he : s.err = .none)
    (hk : s.symSink = .accepting) (hw : walkSeq s.node s.root c (bs.flatMap byteBits) = some (c', out))
    (syms : List Sym) :
    Performs (bs.map fun b => commandOp (.dbyte b)) (decoding s c syms) (List.replicate bs.length (.write .okay))
      (decoding s c' (syms ++ out)) := by
  induction bs generalizing c out syms with
  | nil =>
    cases hw
    rw [List.append_nil]
    exact .nil _
  | cons b bs ih =>
    obtain ⟨j, xs, ys, hb, hbs, rfl⟩ := walkSeq_append_eq_some_iff.1 hw
    have hexec : exec (.dbyte b) (decoding s c syms) = .next (decoding s j (syms ++ xs)) := by
      rw [exec_dbyte (s := decoding s c syms) rfl he hk hb, decoding, decoding, ← List.append_assoc]
    rw [← List.append_assoc]
    exact (performs_command hexec).append (ih hbs (syms ++ xs))

/-- DECODE (R102) of bytes whose bits' walk from the root is known. -/
theorem performs_decodeOps {bs : List Byte} {s : State} {c : Handle} {out : List Sym} (hp : s.phase = .ready)
    (he : s.err = .none) (hk : s.symSink = .accepting)
    (hw : walkSeq s.node s.root s.root (bs.flatMap byteBits) = some (c, out)) :
    Performs (decodeOps bs) s (List.replicate (bs.length + 2) (.write .okay))
      { s with cur := c, rbyte := 0, rcnt := 0, symsOut := s.symsOut ++ out } := by
  have hstart : exec .dstart s = .next (decoding s s.root []) := by rw [exec_dstart hp he, decoding, List.append_nil]
  have hend : exec .dend (decoding s c out) =
      .next { s with cur := c, rbyte := 0, rcnt := 0, symsOut := s.symsOut ++ out } := by
    rw [exec_dend (s := decoding s c out) rfl he, ← hp]
    rfl
  rw [List.replicate_succ']
  exact ((performs_command hstart).append (performs_dbytes he hk hw [])).append (performs_command hend)

/-! ## The walk of a payload -/

/-- When each code of a text leads from the root back to the root with its symbol, the text's bits give the text. -/
theorem walkSeq_textBits {s : State} {ts : List Sym}
    (h : ∀ x ∈ ts, walkSeq s.node s.root s.root (codeseq (codeAt s x)) = some (s.root, [x])) :
    walkSeq s.node s.root s.root (textBits s ts) = some (s.root, ts) := by
  induction ts with
  | nil => rfl
  | cons x ts ih =>
    obtain ⟨hx, hrest⟩ := List.forall_mem_cons.1 h
    exact walkSeq_append_of hx (ih hrest)

/-- Decoding a payload is decoding its text's codes and then its padding (R146). -/
theorem performs_decode_payload {s : State} {ts : List Sym} {c : Handle} {tail : List Sym} (hp : s.phase = .ready)
    (he : s.err = .none) (hk : s.symSink = .accepting)
    (hcodes : ∀ x ∈ ts, walkSeq s.node s.root s.root (codeseq (codeAt s x)) = some (s.root, [x]))
    (hpad : walkSeq s.node s.root s.root (List.replicate (padBits (textBits s ts).length) false) = some (c, tail)) :
    Performs (decodeOps (payload (textBits s ts))) s
      (List.replicate ((payload (textBits s ts)).length + 2) (.write .okay))
      { s with cur := c, rbyte := 0, rcnt := 0, symsOut := s.symsOut ++ ts ++ tail } := by
  rw [List.append_assoc]
  refine performs_decodeOps hp he hk ?_
  rw [payload_bits]
  exact walkSeq_append_of (walkSeq_textBits hcodes) hpad

/-! ## With a lone leaf (R164, R167(a)) -/

/-- A lone leaf's symbol is the only one with a code, and its code is `1` (R122). -/
theorem codeseq_genCodes_lone {root : Handle} {arena : Arena} {r : TreeNode} (hr : nodeAt arena root = some r)
    (hl : r.leaf = true) {x : Sym} (hx : (romAt (genCodes root arena) x).len ≠ 0) :
    r.sym = x ∧ codeseq (romAt (genCodes root arena) x) = [true] := by
  rw [genCodes_leaf hr hl] at hx ⊢
  by_cases hsym : r.sym = x
  · exact ⟨hsym, by rw [if_pos hsym, codeseq_entryOf (by simp)]⟩
  · rw [if_neg hsym] at hx
    exact absurd rfl hx

/-- Zeros at a lone leaf are ignored. -/
theorem walkSeq_zeros_lone {arena : Arena} {root : Handle} {r : TreeNode} (hr : nodeAt arena root = some r)
    (hl : r.leaf = true) (cur : Handle) (p : Nat) :
    walkSeq arena root cur (List.replicate p false) = some (cur, []) := by
  induction p with
  | zero => rfl
  | succ p ih => simp [List.replicate_succ, walkSeq, walk_lone hr hl, ih]

/-- Settles O52: each `1` emits the leaf's symbol, and the padding zeros emit nothing. -/
theorem loneLeafRoundTripIsExact : Obligations.LoneLeafRoundTripIsExact := by
  rintro s ts hinv hp he ⟨-, hk⟩ ⟨r, hr, hl⟩ hts
  have hcodes : ∀ x ∈ ts, walkSeq s.node s.root s.root (codeseq (codeAt s x)) = some (s.root, [x]) := fun x hx => by
    have hlen := hts x hx
    rw [show codeAt s x = romAt s.code x from rfl, hinv.rom (by simp [hp])] at hlen ⊢
    obtain ⟨rfl, hcode⟩ := codeseq_genCodes_lone hr hl hlen
    simp [hcode, walkSeq, walk_lone hr hl]
  have hrun := (performs_decode_payload hp he hk hcodes (walkSeq_zeros_lone hr hl _ _)).runs
  rw [List.append_nil] at hrun
  exact hrun

/-! ## With an Internal root (R163, R166, R167(b)) -/

/-- A nonempty path to a leaf starts at an Internal node and goes on from its child. -/
theorem LeafAt.exists_internal {arena : Arena} {h : Handle} {b : Bool} {q : List Bool} {x : Sym}
    (hq : LeafAt arena h (b :: q) x) :
    ∃ n, nodeAt arena h = some n ∧ n.leaf = false ∧ LeafAt arena (if b then n.right else n.left) q x := by
  obtain ⟨k, m, hf, hm⟩ := hq
  simp only [followPath] at hf
  split at hf
  · cases hf
  · rename_i n hn
    split at hf
    · cases hf
    · rename_i hl
      exact ⟨n, hn, by simpa using hl, k, m, hf, hm⟩

/-- The walk along a part of a path that stops short of the leaf emits nothing and is where that part leads. -/
theorem walkSeq_of_partial_path {arena : Arena} {root : Handle} {r : TreeNode} (hr : nodeAt arena root = some r)
    (hl : r.leaf = false) {q : List Bool} {b : Bool} {q' : List Bool} {x : Sym} {cur : Handle}
    (hq : LeafAt arena cur (q ++ b :: q') x) :
    ∃ c, followPath arena cur q = some c ∧ walkSeq arena root cur q = some (c, []) := by
  induction q generalizing cur with
  | nil => exact ⟨cur, rfl, rfl⟩
  | cons d q ih =>
    rw [List.cons_append] at hq
    obtain ⟨n, hn, hnl, hchild⟩ := hq.exists_internal
    obtain ⟨_, _, hcons⟩ := List.exists_cons_of_ne_nil (List.append_ne_nil_of_right_ne_nil q (List.cons_ne_nil b q'))
    obtain ⟨m, hm, hml, -⟩ := (hcons ▸ hchild).exists_internal
    obtain ⟨c, hc, hw⟩ := ih hchild
    exact ⟨c, by simp [followPath, hn, hnl, hc], by simp [walkSeq, walk_internal hr hl hn hm, hml, hw]⟩

/-- Going left all the way leads to a leaf: the left spine (R166). -/
theorem IsTree.exists_left_spine {arena : Arena} {h : Handle} {hs : List Handle} {xs : List Sym}
    (t : IsTree arena h hs xs) : ∃ z x, LeafAt arena h (List.replicate z false) x := by
  induction t with
  | leaf hn hl _ => exact ⟨0, _, (leafAt_leaf hn hl _ _).2 ⟨rfl, rfl⟩⟩
  | internal hn hl _ _ _ _ _ ihLeft _ =>
    obtain ⟨z, x, hz⟩ := ihLeft
    exact ⟨z + 1, x, (leafAt_internal hn hl _ _).2 ⟨false, _, List.replicate_succ, hz⟩⟩

/-- Zeros from the root emit one symbol each time they have gone down the left spine, and then are part of the way down. -/
theorem walkSeq_zeros {arena : Arena} {root : Handle} {r : TreeNode} (hr : nodeAt arena root = some r)
    (hl : r.leaf = false) {z : Nat} (hz : 1 ≤ z) {x : Sym} (hx : LeafAt arena root (List.replicate z false) x) (p : Nat) :
    ∃ c, followPath arena root (List.replicate (p % z) false) = some c ∧
      walkSeq arena root root (List.replicate p false) = some (c, List.replicate (p / z) x) := by
  induction p using Nat.strong_induction_on with
  | _ p ih =>
    by_cases hlt : p < z
    · have hsplit : List.replicate z false = List.replicate p false ++ false :: List.replicate (z - p - 1) false := by
        rw [← List.replicate_succ, List.replicate_append_replicate]
        congr
        omega
      rw [Nat.mod_eq_of_lt hlt, Nat.div_eq_of_lt hlt]
      exact walkSeq_of_partial_path hr hl (hsplit ▸ hx)
    · obtain ⟨c, hc, hw⟩ := ih (p - z) (by omega)
      have hsplit : List.replicate p false = List.replicate z false ++ List.replicate (p - z) false := by
        rw [List.replicate_append_replicate]
        congr
        omega
      rw [Nat.mod_eq_sub_mod (by omega), Nat.div_eq_sub_div hz (by omega), hsplit, List.replicate_succ]
      exact ⟨c, hc, walkSeq_append_of (walkSeq_path hr hl hx (mt (List.replicate_eq_nil_iff false).1 (by omega))) hw⟩

/-- Settles O51: the codes lead from the root to their leaves, and the padding zeros go down the left spine. -/
theorem decodeOfEncodeHasTheLossyTail : Obligations.DecodeOfEncodeHasTheLossyTail := by
  rintro s hinv hp he ⟨-, hk⟩ ⟨r, hr, hl⟩
  have hnotEmpty : s.phase ≠ .empty := by simp [hp]
  have hvalid := hinv.tree hnotEmpty
  have hrom : ∀ y, codeAt s y = romAt (genCodes s.root s.node) y := fun y => by
    rw [← hinv.rom hnotEmpty]
    rfl
  obtain ⟨_, _, t, -⟩ := validTree_tree hvalid
  obtain ⟨z, x, hx⟩ := t.exists_left_spine
  obtain ⟨hentry, hpos, hlen⟩ := (genCodes_internal hvalid hr hl).1 x _ hx
  rw [List.length_replicate] at hpos
  refine ⟨x, z, hpos, by rw [hrom, hentry, codeseq_entryOf hlen], fun ts hts => ?_⟩
  have hcodes : ∀ y ∈ ts, walkSeq s.node s.root s.root (codeseq (codeAt s y)) = some (s.root, [y]) := fun y hy => by
    have hne := hts y hy
    rw [hrom] at hne ⊢
    exact walkSeq_path hr hl (codeseq_genCodes hvalid hr hl hne) (mt (codeseq_eq_nil_iff _).1 hne)
  obtain ⟨c, hc, hpad⟩ := walkSeq_zeros hr hl hpos hx (padBits (textBits s ts).length)
  exact ⟨c, hc, (performs_decode_payload hp he hk hcodes hpad).runs⟩

end Sys2Proof.Machine
end

section
/-! PROOF. The system commands NOP, SRESET and CLRERR (43_system.md R180 to R182): R103's checks are split, and what remains is each
command's own rule. -/

namespace Sys2Proof.Machine

/-- Settles O17: rejected while an error is latched or executed, NOP leaves the state as it is, and no phase is illegal for it. -/
theorem nopChangesNothing : Obligations.NopChangesNothing := by
  intro s
  obtain ⟨-, -, hrejected⟩ | ⟨-, hillegal, -⟩ | ⟨-, -, hown⟩ := exec_cases .nop s
  · exact hrejected
  · cases hillegal
  · exact hown

/-- Settles O18: SRESET is `hardReset` in any state, whose fields are R44's values with the outputs and the outside kept. -/
theorem sresetRestoresTheResetState : Obligations.SresetRestoresTheResetState := exec_sreset

/-- Settles O20: CLRERR passes the latch (R200) and is legal in every phase, so it always runs its own rule. -/
theorem clrerrClearsTheLatch : Obligations.ClrerrClearsTheLatch := by
  intro s
  obtain ⟨-, hrejects, -⟩ | ⟨-, hillegal, -⟩ | ⟨-, -, hown⟩ := exec_cases .clrerr s
  · cases hrejects
  · cases hillegal
  · exact hown

end Sys2Proof.Machine
end

section
/-! PROOF. A latched error (60_exceptions.md R198 to R203): commands other than SRESET and CLRERR are rejected, and the error stays
as it was first latched. -/

namespace Sys2Proof.Machine

open Sys2Proof.Safety

/-- While an error is latched a word is without effect, unless it is the word of SRESET or CLRERR (R103, R198, R200). -/
theorem runCommandWord_of_latched {s : State} {w : Word} (he : s.err ≠ .none) (hsreset : decode w ≠ .instr .sreset)
    (hclrerr : decode w ≠ .instr .clrerr) : runCommandWord w s = .next s := by
  cases hd : decode w with
  | reject e => exact runCommandWord_of_reject_latched hd he
  | instr i =>
    rw [eq_encode_of_decode hd, runCommandWord_encode]
    obtain ⟨-, -, hrejected⟩ | ⟨hclear, -⟩ | ⟨hclear | rfl | rfl, -⟩ := exec_cases i s
    · exact hrejected
    · exact absurd hclear he
    · exact absurd hclear he
    · exact absurd hd hsreset
    · exact absurd hd hclrerr

/-- Settles O6: the write of a word that is without effect is still answered OKAY (R34). -/
theorem commandIsRejectedWhileErrorIsLatched : Obligations.CommandIsRejectedWhileErrorIsLatched :=
  fun _ _ he hsreset hclrerr => writeAnswers_of_command rfl fun _ => runCommandWord_of_latched he hsreset hclrerr

/-- The effects on a latched error: the resets and CLRERR end it, and no other effect changes it, since those that latch an error
need a clear latch (R198). -/
theorem Effect.keeps_error {s t : State} {op : HostOp} (e : Effect s op t) (he : s.err ≠ .none) :
    (t.err = s.err ∧ t.errinfo = s.errinfo) ∨ op = .rst ∨ op = commandOp .sreset ∨ op = commandOp .clrerr := by
  cases e with
  | reset hop => exact .inr (hop.imp_right .inl)
  | clrerr => exact .inr (.inr (.inr rfl))
  | latch _ _ hclear => exact absurd hclear he
  | build _ hclear => exact absurd hclear he
  | esymUnknown _ _ hclear => exact absurd hclear he
  | store _ _ hw =>
    rw [storeWord_eq hw]
    exact .inl ⟨rfl, rfl⟩
  | _ => exact .inl ⟨rfl, rfl⟩

/-- Settles O22: by the effects of the access the step performs. -/
theorem firstErrorIsKept : Obligations.FirstErrorIsKept := by
  intro s t he hs
  rcases step_cases hs with ⟨-, rfl⟩ | ⟨op, rest, u, rs, hq, e, rfl⟩
  · exact .inl ⟨rfl, rfl⟩
  · rcases e.keeps_error he with hkept | rfl | rfl | rfl
    · exact .inl hkept
    · exact .inr ⟨rest, .inl hq⟩
    · exact .inr ⟨rest, .inr (.inl hq)⟩
    · exact .inr ⟨rest, .inr (.inr hq)⟩

end Sys2Proof.Machine
end

section
/-! PROOF. The reset input (70_reset_and_hazards.md R220): one of the two resets, the other being SRESET. -/

namespace Sys2Proof.Machine

/-- The reset input as an access (R220). -/
theorem performOp_rst (s : State) : performOp .rst s = .next (hardReset s) := rfl

/-- Settles O19: both sides are `hardReset` of the state the reset input leaves to reset, the step's by `performOp_rst` and SRESET's
by `exec_sreset`, which holds in every phase and with an error latched (R200). -/
theorem hardwareResetEqualsSreset : Obligations.HardwareResetEqualsSreset := by
  intro s rest
  rw [step_enqueued, performOp_rst, exec_sreset]

end Sys2Proof.Machine
end
